-- ==== Sys2Proof/Word.lean ====
section
/-! DEFINITION. The word types of the MMU (00_scope.md R7, R8). -/

namespace Sys2Proof

/-- One byte of physical memory. -/
abbrev Byte := BitVec 8

/-- `VA_BITS = 64` (R7): a virtual address as issued. -/
abbrev VAddr := BitVec 64

/-- `PA_BITS = 48` (R7): a physical address. -/
abbrev PAddr := BitVec 48

/-- `DESC_BITS = 64` (R7): a translation table entry; system and general registers have the same width. -/
abbrev DWord := BitVec 64

/-- An A64 instruction word (30_encoding.md R47, general knowledge). -/
abbrev IWord := BitVec 32

/-- An address space identifier. DEDUCED: R57 compares it with the 16 bits `arg[63:48]` (log 18). -/
abbrev Asid := BitVec 16

/-- A virtual machine identifier, only ever compared for equality. DESIGN CHOICE: no width is given, so none is fixed (log 18). -/
abbrev Vmid := Nat

end Sys2Proof
end

