-- ==== Sys2Proof/Config.lean ====
section
/-! DEFINITION. The vocabulary of the MMU and its configuration: what an implementation fixes (00_scope.md R7,
10_state.md R27) as plain data, and the OPEN functions and free choices as constants without a body. -/

namespace Sys2Proof

/-- The exception level of an access (60_exceptions.md R92). -/
inductive EL | el0 | el1 | el2 | el3
  deriving DecidableEq, Repr, Inhabited

/-- The kind of an access (10_state.md R24 (b)). -/
inductive AccessKind | fetch | read | write
  deriving DecidableEq, Repr, Inhabited

/-- Which base registers a translation goes through (10_state.md R21). -/
inductive Regime | el1and0 | el2 | el3
  deriving DecidableEq, Repr, Inhabited

/-- The translation granule (00_scope.md R9, 30_encoding.md R41). -/
inductive Granule | kb4 | kb16 | kb64
  deriving DecidableEq, Repr, Inhabited

/-- What an entry above the last level can be (30_encoding.md R44; the type excludes U11). -/
inductive UpperKind | invalid | block | table
  deriving DecidableEq, Repr, Inhabited

/-- What an entry of the last level can be (30_encoding.md R44; the type excludes U11). -/
inductive LastKind | invalid | page
  deriving DecidableEq, Repr, Inhabited

/-- The attribute part of one entry a walk read: its level, whether it is a table descriptor, its attribute bits. -/
structure EntryAttrs where
  level   : Nat
  isTable : Bool
  bits    : DWord
  deriving DecidableEq, Repr, Inhabited

/-- `Attrs`, the additional information of R82: what `AttrsOf` keeps of the list of entries read (D13, log 19). -/
abbrev Attrs := List EntryAttrs

/-- One TLB entry (10_state.md R21). `size` is `2^k`. -/
structure TlbEntry where
  vaBase : VAddr
  k      : Nat
  paBase : PAddr
  attrs  : Attrs
  asid   : Asid
  vmid   : Vmid
  regime : Regime
  level  : Nat
  deriving DecidableEq, Repr, Inhabited

/-- The sixteen `TLBI` operations of ARMv8.0-A, `<type><level>` (30_encoding.md R48; general knowledge GK6). -/
inductive TlbiKind
  | vmalle1 | vae1 | aside1 | vaae1 | vale1 | vaale1 | ipas2e1 | ipas2le1
  | alle2 | vae2 | alle1 | vale2 | vmalls12e1 | alle3 | vae3 | vale3
  deriving DecidableEq, Repr, Inhabited

/-- A `TLBI` operation: its kind and whether it carries `IS` (30_encoding.md R46). -/
structure TlbiOp where
  kind : TlbiKind
  is   : Bool
  deriving DecidableEq, Repr, Inhabited

/-- How a completed walk is cached (40_tlb_tlbi.md R54): not, its own range, or the whole contiguous group. -/
inductive FillChoice | none | narrow | wide
  deriving DecidableEq, Repr, Inhabited

/-- One resolution of everything the spec leaves free at a step (D18, D19; U1, U2). -/
structure Choice where
  /-- Entry `i` of the TLB is lost when bit `i` is set (R55). -/
  lost          : Nat
  /-- `some i`: use the `i`-th matching entry if there is one; `none`: walk (R52). -/
  hit           : Option Nat
  fill          : FillChoice
  /-- Which fault a walk reports where Permission and AddressSize both apply (R91 item 3). -/
  sizeFirst     : Bool
  deriving DecidableEq, Repr, Inhabited

/-- Which instance of `DescKind`, `PermitsAt`, `AttrsOf`, `IsContiguous` is in force: the general-knowledge
instance G of GK4, or functions about which nothing is known (D12, D13, D27; log 11). -/
inductive EntryFormat | gk4 | unknown
  deriving DecidableEq, Repr, Inhabited

/-- Which instance of `TlbiSelects` is in force: the table of R57 (GK6), or a function about which nothing is known (D21; log 12). -/
inductive TlbiTable | armv8 | unknown
  deriving DecidableEq, Repr, Inhabited

/-- The parameters of 00_scope.md R7 as plain data. No step changes them (10_state.md R27; log 10).
`MMU_ON` is fixed true (D16), `N_PE` fixed 1 (D25), `EL2_TSZ` and `EL3_TSZ` fixed 16 (R66), `TLB_CAPACITY` used by no rule (D19). -/
structure Config where
  granuleOfTG0 : Vector (Option Granule) 4
  granuleOfTG1 : Vector (Option Granule) 4
  outBitsOfIPS : Vector (Option Nat) 8
  tag0         : Bool
  tag1         : Bool
  tagEl2       : Bool
  tagEl3       : Bool
  descBigEndian : Bool
  txszMin      : Nat
  txszMax      : Nat
  el2Granule   : Granule
  el3Granule   : Granule
  el2OutBits   : Nat
  el3OutBits   : Nat
  entryFormat  : EntryFormat
  tlbiTable    : TlbiTable
  /-- Whether the marked extension of 42_translation_walk.md R85 (GK8) is admitted; otherwise D26 refuses (log 14). -/
  generalWalk  : Bool
  /-- Whether the privilege of `TLBI` (general knowledge GK6) is checked; the source gives no check (R56; log 16). -/
  tlbiPrivilege : Bool
  /-- The memory declared as plain: (base, size) ranges of physical addresses (R34, D7; log 24). -/
  plainMemory  : List (Nat × Nat)
  deriving DecidableEq, Repr

/-! The OPEN functions (92_eei_decisions.md section 7): nothing in Lean can evaluate them. -/

/-- `DescKind` above the last level (D12). -/
opaque Config.unknownUpperKind : Nat → DWord → UpperKind
/-- `DescKind` at the last level (D12). -/
opaque Config.unknownLastKind : DWord → LastKind
/-- What `AttrsOf` keeps of one entry at a level (D13). -/
opaque Config.unknownAttrBits : Nat → DWord → DWord
/-- The permission verdict of one entry's attributes (D13). -/
opaque Config.unknownPermits : EntryAttrs → AccessKind → EL → Bool
/-- `IsContiguous` (D27). -/
opaque Config.unknownContiguous : DWord → Bool
/-- `TlbiSelects` (D21). It is not told whether the operation carries `IS`: with one processor both forms act alike
(60_exceptions.md R97, D25; log 28). -/
opaque Config.unknownTlbiSelects : TlbiKind → Option DWord → Asid → Vmid → TlbEntry → Bool
/-- The free choices of the machine, one for each value of `State.tick` (D18, D19; log 3). -/
opaque Config.freeChoice : Nat → Choice

/-- Entries the TLB may hold after reset, of which nothing is known (10_state.md R28; log 6). -/
opaque Config.resetEntries : List TlbEntry

end Sys2Proof
end

