-- ==== Sys2Proof/Machine/Bits.lean ====
section
/-! DEFINITION. The slices and joins of 00_scope.md R8 and 42_translation_walk.md R74, R107. -/

namespace Sys2Proof.Machine

/-- `v[hi:lo]` (R8); with `hi < lo` it is empty. -/
def slice {w : Nat} (v : BitVec w) (hi lo : Nat) : BitVec (hi + 1 - lo) := v.extractLsb' lo (hi + 1 - lo)

/-- The slice is `Zeros`; an empty slice is (R8). -/
def sliceZeros {w : Nat} (v : BitVec w) (hi lo : Nat) : Bool := slice v hi lo == 0

/-- The slice is `Ones`; an empty slice is (R8). -/
def sliceOnes {w : Nat} (v : BitVec w) (hi lo : Nat) : Bool := slice v hi lo == BitVec.allOnes _

/-- `v` with bits [k-1:0] cleared (40_tlb_tlbi.md R54). -/
def clearLow {w : Nat} (k : Nat) (v : BitVec w) : BitVec w := (v >>> k) <<< k

/-- `hi[47:k] : lo[k-1:0]`: the upper bits of an entry's address joined to the low bits of the virtual address (R74).
For `k` of 48 or more nothing of `hi` is left and the result is `lo[47:0]`; where `k` is above 48 that cut to the 48 bits of R82
is the model's own reading (DEDUCED, log 40). -/
def joinAt (k : Nat) (hi : PAddr) (lo : VAddr) : PAddr := clearLow k hi ||| (lo.setWidth k).setWidth 48

/-- log2 of a granule's size (00_scope.md R9). -/
def granuleBits : Granule → Nat
  | .kb4 => 12
  | .kb16 => 14
  | .kb64 => 16

end Sys2Proof.Machine
end

