-- ==== Sys2Proof/Machine/Assembler.lean ====
section
/-! DEFINITION. The assembler text of `TLBI` operations (30_encoding.md R46, D30; the names are GK6). -/

namespace Sys2Proof.Machine

/-- `<type>` of an operation name. -/
def typeText : TlbiKind → String
  | .alle1 | .alle2 | .alle3 => "ALL"
  | .vmalle1 => "VMALL"
  | .vmalls12e1 => "VMALLS12"
  | .aside1 => "ASID"
  | .vae1 | .vae2 | .vae3 => "VA"
  | .vaae1 => "VAA"
  | .vale1 | .vale2 | .vale3 => "VAL"
  | .vaale1 => "VAAL"
  | .ipas2e1 => "IPAS2"
  | .ipas2le1 => "IPAS2L"

/-- `<level>` as the exception level whose translations are meant. -/
def opLevel : TlbiKind → EL
  | .alle2 | .vae2 | .vale2 => .el2
  | .alle3 | .vae3 | .vale3 => .el3
  | .vmalle1 | .vae1 | .aside1 | .vaae1 | .vale1 | .vaale1 | .ipas2e1 | .ipas2le1 | .alle1 | .vmalls12e1 => .el1

/-- `<level>` of an operation name. -/
def levelText : EL → String
  | .el0 => "E0"
  | .el1 => "E1"
  | .el2 => "E2"
  | .el3 => "E3"

/-- The operation name: `<type>`, then `<level>`, then optionally `IS`, with nothing between them. -/
def opName (op : TlbiOp) : String :=
  typeText op.kind ++ levelText (opLevel op.kind) ++ (if op.is then "IS" else "")

/-- The configured operations: every kind, with and without `IS` (30_encoding.md R48). -/
def allKinds : List TlbiKind :=
  [.vmalle1, .vae1, .aside1, .vaae1, .vale1, .vaale1, .ipas2e1, .ipas2le1,
   .alle2, .vae2, .alle1, .vale2, .vmalls12e1, .alle3, .vae3, .vale3]

def allOps : List TlbiOp := allKinds.flatMap fun k => [⟨k, true⟩, ⟨k, false⟩]

/-- The operation an operation name stands for; none for a name outside the configured set (30_encoding.md R49, U10). -/
def opOfName? (name : String) : Option TlbiOp := allOps.find? fun op => decide (opName op = name)

/-- Whether an operation takes `<Xt>` (30_encoding.md R48, column "takes Xt"). -/
def takesXt : TlbiKind → Bool
  | .vmalle1 | .alle1 | .alle2 | .alle3 | .vmalls12e1 => false
  | .vae1 | .aside1 | .vaae1 | .vale1 | .vaale1 | .ipas2e1 | .ipas2le1 | .vae2 | .vale2 | .vae3 | .vale3 => true

end Sys2Proof.Machine
end

