-- ==== Sys2Proof/Syntax.lean ====
section
/-! DEFINITION. The instructions: one constructor for each row of spec/opcode_table.json. -/

namespace Sys2Proof

/-- `tlbi` is the source's own row, the term `Tlbi(op, xt?)` with the operation name as text (30_encoding.md R46,
R47, D30). Every other constructor is one binary row (R48, GK6) with its register field `Rt`; an operation that
takes no `<Xt>` carries the field and ignores it (40_tlb_tlbi.md R56 corner (d)). -/
inductive Instr
  | tlbi (name : String) (xt : Option (BitVec 5))
  | vmalle1is (rt : BitVec 5)
  | vmalle1 (rt : BitVec 5)
  | vae1is (rt : BitVec 5)
  | vae1 (rt : BitVec 5)
  | aside1is (rt : BitVec 5)
  | aside1 (rt : BitVec 5)
  | vaae1is (rt : BitVec 5)
  | vaae1 (rt : BitVec 5)
  | vale1is (rt : BitVec 5)
  | vale1 (rt : BitVec 5)
  | vaale1is (rt : BitVec 5)
  | vaale1 (rt : BitVec 5)
  | ipas2e1is (rt : BitVec 5)
  | ipas2e1 (rt : BitVec 5)
  | ipas2le1is (rt : BitVec 5)
  | ipas2le1 (rt : BitVec 5)
  | alle2is (rt : BitVec 5)
  | alle2 (rt : BitVec 5)
  | vae2is (rt : BitVec 5)
  | vae2 (rt : BitVec 5)
  | alle1is (rt : BitVec 5)
  | alle1 (rt : BitVec 5)
  | vale2is (rt : BitVec 5)
  | vale2 (rt : BitVec 5)
  | vmalls12e1is (rt : BitVec 5)
  | vmalls12e1 (rt : BitVec 5)
  | alle3is (rt : BitVec 5)
  | alle3 (rt : BitVec 5)
  | vae3is (rt : BitVec 5)
  | vae3 (rt : BitVec 5)
  | vale3is (rt : BitVec 5)
  | vale3 (rt : BitVec 5)
  deriving DecidableEq, Repr

end Sys2Proof
end

