-- ==== Sys2Proof/WellFormed.lean ====
section
/-! DEFINITION. Well-formed instructions: a term the assembler syntax of 30_encoding.md R46 and the table of R48 admit. -/

namespace Sys2Proof

/-- The text form needs a configured operation name and `<Xt>` exactly where the operation takes it; a binary row admits every register number. -/
def Instr.wf : Instr → Bool
  | .tlbi name xt =>
    match Machine.opOfName? name with
    | none => false
    | some op => xt.isSome == Machine.takesXt op.kind
  | .vmalle1is _ | .vmalle1 _ | .vae1is _ | .vae1 _ | .aside1is _ | .aside1 _ | .vaae1is _ | .vaae1 _
  | .vale1is _ | .vale1 _ | .vaale1is _ | .vaale1 _ | .ipas2e1is _ | .ipas2e1 _ | .ipas2le1is _ | .ipas2le1 _
  | .alle2is _ | .alle2 _ | .vae2is _ | .vae2 _ | .alle1is _ | .alle1 _ | .vale2is _ | .vale2 _
  | .vmalls12e1is _ | .vmalls12e1 _ | .alle3is _ | .alle3 _ | .vae3is _ | .vae3 _ | .vale3is _ | .vale3 _ => true

end Sys2Proof
end

