-- ==== Sys2Proof/Decode.lean ====
section
/-! DEFINITION. The decoder and the encoder of the A64 words of `TLBI` (30_encoding.md R47, R48, R49; PRESUMED, general
knowledge GK6, log 13). Decoding is total and rejects by name. -/

namespace Sys2Proof

/-- Why bytes are no instruction of this hardware (30_encoding.md R49, U10). -/
inductive DecodeReject
  /-- Fewer than four bytes are left. -/
  | truncated
  /-- Bits [31:19] or CRn are not those of a `TLBI` word (R47). -/
  | notTlbi
  /-- A `TLBI` word whose (op1, CRm, op2) the table of R48 does not list. -/
  | unlistedTlbi (op1 : BitVec 3) (crm : BitVec 4) (op2 : BitVec 3)
  deriving DecidableEq, Repr

/-- One row of the table of R48: `SYS #op1, C8, CRm, #op2, Xt`. -/
structure EncodingRow where
  op1  : BitVec 3
  crm  : BitVec 4
  op2  : BitVec 3
  make : BitVec 5 → Instr

/-- The rows with op1 = 0. -/
def rowsOp0 : List EncodingRow :=
  [⟨0, 3, 0, .vmalle1is⟩,
   ⟨0, 7, 0, .vmalle1⟩,
   ⟨0, 3, 1, .vae1is⟩,
   ⟨0, 7, 1, .vae1⟩,
   ⟨0, 3, 2, .aside1is⟩,
   ⟨0, 7, 2, .aside1⟩,
   ⟨0, 3, 3, .vaae1is⟩,
   ⟨0, 7, 3, .vaae1⟩,
   ⟨0, 3, 5, .vale1is⟩,
   ⟨0, 7, 5, .vale1⟩,
   ⟨0, 3, 7, .vaale1is⟩,
   ⟨0, 7, 7, .vaale1⟩]

/-- The rows with op1 = 4 and op1 = 6. -/
def rowsOp46 : List EncodingRow :=
  [⟨4, 0, 1, .ipas2e1is⟩,
   ⟨4, 4, 1, .ipas2e1⟩,
   ⟨4, 0, 5, .ipas2le1is⟩,
   ⟨4, 4, 5, .ipas2le1⟩,
   ⟨4, 3, 0, .alle2is⟩,
   ⟨4, 7, 0, .alle2⟩,
   ⟨4, 3, 1, .vae2is⟩,
   ⟨4, 7, 1, .vae2⟩,
   ⟨4, 3, 4, .alle1is⟩,
   ⟨4, 7, 4, .alle1⟩,
   ⟨4, 3, 5, .vale2is⟩,
   ⟨4, 7, 5, .vale2⟩,
   ⟨4, 3, 6, .vmalls12e1is⟩,
   ⟨4, 7, 6, .vmalls12e1⟩,
   ⟨6, 3, 0, .alle3is⟩,
   ⟨6, 7, 0, .alle3⟩,
   ⟨6, 3, 1, .vae3is⟩,
   ⟨6, 7, 1, .vae3⟩,
   ⟨6, 3, 5, .vale3is⟩,
   ⟨6, 7, 5, .vale3⟩]

def encodingRows : List EncodingRow := rowsOp0 ++ rowsOp46

/-- Bits [31:19] of every `SYS` word with op0 = 01 and L = 0 (R47). -/
def sysPrefix : BitVec 13 := 0b1101010100001#13

/-- The instruction a 32-bit word stands for. -/
def decodeWord (w : IWord) : Except DecodeReject Instr :=
  if w.extractLsb 31 19 = sysPrefix ∧ w.extractLsb 15 12 = 8#4 then
    match encodingRows.find? fun r =>
        decide (r.op1 = w.extractLsb 18 16 ∧ r.crm = w.extractLsb 11 8 ∧ r.op2 = w.extractLsb 7 5) with
    | some r => .ok (r.make (w.extractLsb 4 0))
    | none => .error (.unlistedTlbi (w.extractLsb 18 16) (w.extractLsb 11 8) (w.extractLsb 7 5))
  else .error .notTlbi

/-- A64 words are little-endian in memory (R47): the first byte is bits [7:0]. -/
def wordOfBytes (b0 b1 b2 b3 : Byte) : IWord := b3 ++ b2 ++ b1 ++ b0

/-- The instruction at the head of a list of bytes, and the bytes after it. -/
def decode : List Byte → Except DecodeReject (Instr × List Byte)
  | b0 :: b1 :: b2 :: b3 :: rest =>
    match decodeWord (wordOfBytes b0 b1 b2 b3) with
    | .ok i => .ok (i, rest)
    | .error e => .error e
  | _ => .error .truncated

/-- (op1, CRm, op2) and `Rt` of an instruction (R48); the source's text form has no binary encoding (R47). -/
def encodeFields : Instr → Option (BitVec 3 × BitVec 4 × BitVec 3 × BitVec 5)
  | .tlbi _ _ => none
  | .vmalle1is rt => some (0, 3, 0, rt)
  | .vmalle1 rt => some (0, 7, 0, rt)
  | .vae1is rt => some (0, 3, 1, rt)
  | .vae1 rt => some (0, 7, 1, rt)
  | .aside1is rt => some (0, 3, 2, rt)
  | .aside1 rt => some (0, 7, 2, rt)
  | .vaae1is rt => some (0, 3, 3, rt)
  | .vaae1 rt => some (0, 7, 3, rt)
  | .vale1is rt => some (0, 3, 5, rt)
  | .vale1 rt => some (0, 7, 5, rt)
  | .vaale1is rt => some (0, 3, 7, rt)
  | .vaale1 rt => some (0, 7, 7, rt)
  | .ipas2e1is rt => some (4, 0, 1, rt)
  | .ipas2e1 rt => some (4, 4, 1, rt)
  | .ipas2le1is rt => some (4, 0, 5, rt)
  | .ipas2le1 rt => some (4, 4, 5, rt)
  | .alle2is rt => some (4, 3, 0, rt)
  | .alle2 rt => some (4, 7, 0, rt)
  | .vae2is rt => some (4, 3, 1, rt)
  | .vae2 rt => some (4, 7, 1, rt)
  | .alle1is rt => some (4, 3, 4, rt)
  | .alle1 rt => some (4, 7, 4, rt)
  | .vale2is rt => some (4, 3, 5, rt)
  | .vale2 rt => some (4, 7, 5, rt)
  | .vmalls12e1is rt => some (4, 3, 6, rt)
  | .vmalls12e1 rt => some (4, 7, 6, rt)
  | .alle3is rt => some (6, 3, 0, rt)
  | .alle3 rt => some (6, 7, 0, rt)
  | .vae3is rt => some (6, 3, 1, rt)
  | .vae3 rt => some (6, 7, 1, rt)
  | .vale3is rt => some (6, 3, 5, rt)
  | .vale3 rt => some (6, 7, 5, rt)

/-- `0xD5088000 | op1 << 16 | CRm << 8 | op2 << 5 | Rt` (R47), written as the joined fields. -/
def sysWord (op1 : BitVec 3) (crm : BitVec 4) (op2 : BitVec 3) (rt : BitVec 5) : IWord :=
  sysPrefix ++ op1 ++ 8#4 ++ crm ++ op2 ++ rt

/-- The word of an instruction; none for the text form. -/
def encode (i : Instr) : Option IWord :=
  match encodeFields i with
  | none => none
  | some (op1, crm, op2, rt) => some (sysWord op1 crm op2 rt)

/-- The four bytes of a word as memory holds them, lowest address first. -/
def bytesOfWord (w : IWord) : List Byte :=
  [w.extractLsb 7 0, w.extractLsb 15 8, w.extractLsb 23 16, w.extractLsb 31 24]

/-- The word of a numbered instruction: its low `nbits` bits, every bit above them 0. -/
def wordOfTable (nbits w : Nat) : IWord := BitVec.ofNat 32 (w % 2 ^ nbits)

/-- What the decoder reads from an instruction numbered as spec/opcode_table.json numbers it. -/
def decodeTableWord (nbits w : Nat) : Option Instr :=
  match decode (bytesOfWord (wordOfTable nbits w)) with
  | .ok (i, _) => some i
  | .error _ => none

end Sys2Proof
end

