-- ==== Sys2Proof/Machine/Defaults.lean ====
section
/-! DEFINITION. Values of the configuration: the spec's default one, and the architecture's tables of GK2 and GK3; and the TLB
after reset. -/

namespace Sys2Proof.Machine

/-- The granule encodings the source lists for TG0 and TG1 alike, 2'b10 not listed (30_encoding.md R41, D10). -/
def sourceGranules : Vector (Option Granule) 4 := #v[some .kb4, some .kb16, none, some .kb64]

/-- The two IPS values the source gives (30_encoding.md R42, D11). -/
def sourceOutBits : Vector (Option Nat) 8 := #v[some 32, none, none, none, none, some 48, none, none]

/-- TG0 in the architecture: 00=4KB, 01=64KB, 10=16KB. PRESUMED (GK2). -/
def armGranulesTG0 : Vector (Option Granule) 4 := #v[some .kb4, some .kb64, some .kb16, none]

/-- TG1 in the architecture: 01=16KB, 10=4KB, 11=64KB. PRESUMED (GK2). -/
def armGranulesTG1 : Vector (Option Granule) 4 := #v[none, some .kb16, some .kb4, some .kb64]

/-- The architecture's IPS table. PRESUMED (GK3). -/
def armOutBits : Vector (Option Nat) 8 :=
  #v[some 32, some 36, some 40, some 42, some 44, some 48, none, none]

/-- The configuration of the reset state: the default of every parameter that has one in 00_scope.md R7, and for the
OPEN ones a value log 10 names (bounds 16 to 39 from GK17, EL2 and EL3 with 64KB and 48 bits, entries as GK4, R57's table). -/
def defaultConfig : Config where
  granuleOfTG0 := sourceGranules
  granuleOfTG1 := sourceGranules
  outBitsOfIPS := sourceOutBits
  tag0 := false
  tag1 := false
  tagEl2 := false
  tagEl3 := false
  descBigEndian := false
  txszMin := 16
  txszMax := 39
  el2Granule := .kb64
  el3Granule := .kb64
  el2OutBits := 48
  el3OutBits := 48
  entryFormat := .gk4
  tlbiTable := .armv8
  generalWalk := true
  tlbiPrivilege := false
  plainMemory := [(0, 2 ^ 48)]

/-- The source-backed model of R85 and D26: only the 64KB, 42-bit walk. -/
def sourceConfig : Config := { defaultConfig with generalWalk := false }

/-- The instance a model run against real register values loads. PRESUMED (GK2, GK3). -/
def armConfig : Config :=
  { defaultConfig with granuleOfTG0 := armGranulesTG0, granuleOfTG1 := armGranulesTG1, outBitsOfIPS := armOutBits }

/-! The TLB after reset (10_state.md R28): any set of entries. -/

/-- A TLB entry has the form R21 gives it: its size is a power of two (it is held as `2^k`) and `vaBase` is a multiple of it. -/
abbrev EntryWf (e : TlbEntry) : Prop := e.vaBase.toNat % 2 ^ e.k = 0

/-- Set union with one entry (log 22). -/
def addEntry (e : TlbEntry) (tlb : List TlbEntry) : List TlbEntry := if e ∈ tlb then tlb else e :: tlb

/-- The set of the entries in a list that are entries in the sense of R21. -/
def entrySet (es : List TlbEntry) : List TlbEntry := (es.filter fun e => decide (EntryWf e)).foldr addEntry []

/-- The TLB after reset: a set of entries of which nothing is known, not assumed empty (R28, 70_reset_and_hazards.md R99; log 6). -/
def resetTlb : List TlbEntry := entrySet Config.resetEntries

end Sys2Proof.Machine
end

