-- ==== Sys2Proof/Machine/State.lean ====
section
/-! DEFINITION. The state of the machine (10_state.md R10), its faults, its refusals and its reset value. -/

namespace Sys2Proof.Machine

/-- The faults of a translation (60_exceptions.md R86): the record `Fault(kind, level, va, acc)`, one constructor for
each kind. A fault is a returned value that a step REPORTS in `State.response` (R93, D17); no step stops with one, so
nothing here is an unsafe stop (log 4). -/
inductive Fault
  /-- Raised by `selectRegion`: the address lies in neither region (R87). Safe. -/
  | vaRange (va : VAddr) (acc : AccessKind)
  /-- Raised by a walk: the entry read at this level is invalid (R88). Safe. -/
  | translation (level : Nat) (va : VAddr) (acc : AccessKind)
  /-- Raised by a walk or by a TLB hit: the entry of this level does not permit the access (R89). Safe. -/
  | permission (level : Nat) (va : VAddr) (acc : AccessKind)
  /-- Raised by a walk: an address lies outside the output size; the level is `none` for the base register (R90). Safe. -/
  | addressSize (level : Option Nat) (va : VAddr) (acc : AccessKind)
  deriving DecidableEq, Repr

/-- Why a case has no meaning (30_encoding.md R49). Every refusal is safe: it makes claims unprovable, never false ones provable. -/
inductive Refusal
  /-- An arm of `exec` without a meaning. None is left. -/
  | notModelled (mnemonic : String)
  /-- Raised by `selectRegion`: T0SZ or T1SZ outside `TXSZ_MIN` to `TXSZ_MAX` (R49, U3). -/
  | txszOutOfBounds
  /-- Raised by `selectRegion`: the granule field holds a value not listed (R49, U4). -/
  | granuleNotListed
  /-- Raised by `selectRegion`: both regions hold the address because a checked slice is empty (R72). -/
  | regionsOverlap
  /-- Raised by every translation at EL0 or EL1: the IPS field holds a value not listed (R49, U5; log 23). -/
  | ipsNotListed
  /-- Raised by every translation in a region for which the spec gives no walk (R49, R85, D26; log 14, log 15). -/
  | walkNotGiven
  /-- Raised by a walk that would read outside the declared plain memory (20_memory.md R34, D7; log 24). -/
  | walkOutsidePlainMemory (pa : PAddr)
  /-- Raised by an access that reaches a contiguous group breaking a condition of R59 (U6, D27). -/
  | contiguousGroupBroken
  /-- Raised by the text form of `TLBI` with a name outside the configured set (R49, U10). -/
  | tlbiNameNotConfigured
  /-- Raised by a `TLBI` below the level GK6 needs, where `cfg.tlbiPrivilege` asks for the check (log 16). -/
  | tlbiUndefinedAtLevel
  /-- Raised by an instruction word that decodes to nothing (R49, U10). -/
  | undecoded (why : DecodeReject)
  /-- Raised by a fetch to be executed whose address is no multiple of 4; the source gives no such fetch (R26, N24; log 26). -/
  | fetchMisaligned
  deriving DecidableEq, Repr

/-- The outcome of a part of a translation (60_exceptions.md R86), or a refusal. -/
inductive Result (α : Type)
  | ok (a : α)
  | fault (f : Fault)
  | refused (r : Refusal)
  deriving DecidableEq, Repr

/-- TCR_EL1 field by field (10_state.md R13 to R19, 30_encoding.md R50); `rest` holds the fields the source does not show (log 17). -/
structure TcrEl1 where
  t0sz : BitVec 6
  t1sz : BitVec 6
  ips  : BitVec 3
  tg0  : BitVec 2
  tg1  : BitVec 2
  rest : BitVec 45
  deriving DecidableEq, Repr

/-- What the requester supplies with a step (10_state.md R24 (c), (d)). -/
structure Inputs where
  el   : EL
  asid : Asid
  vmid : Vmid
  deriving DecidableEq, Repr

/-- A `WriteSysReg(reg, value)` step (10_state.md R29, 42_translation_walk.md R110). TCR_EL1 is written field by field
(30_encoding.md R50) or, PRESUMED from the positions of GK1, as one word (log 17). -/
inductive SysRegWrite
  | ttbr0El1 (v : DWord)
  | ttbr1El1 (v : DWord)
  | ttbr0El2 (v : DWord)
  | ttbr0El3 (v : DWord)
  | tcrEl1 (t : TcrEl1)
  | tcrEl1Word (w : DWord)
  deriving DecidableEq, Repr

/-- A step of the requester (92_eei_decisions.md D1). -/
inductive Action
  /-- `MemWrite(pa, n, v)` (20_memory.md R31). -/
  | memWrite (pa : PAddr) (n : Nat) (value : Nat)
  /-- `WriteSysReg(reg, value)`. -/
  | writeSysReg (w : SysRegWrite)
  /-- The requester gives its register `Xt` a value (10_state.md R25). -/
  | setX (t : BitVec 5) (v : DWord)
  /-- A `TLBI` issued as a term (30_encoding.md R47, D30). -/
  | instr (i : Instr)
  /-- An instruction issued as a word. -/
  | instrWord (w : IWord)
  /-- `Access(kind, va, el, n, v?)` (42_translation_walk.md R109). -/
  | access (kind : AccessKind) (va : VAddr) (n : Nat) (value : Nat)
  /-- A fetch of one instruction word at a virtual address, then its execution (R26, R39, R108; log 26). -/
  | fetchExecute (va : VAddr)
  deriving DecidableEq, Repr

/-- A step of the requester with the inputs it presents. -/
structure Request where
  inputs : Inputs
  action : Action
  deriving DecidableEq, Repr

/-- What the last step reported to the requester (42_translation_walk.md R109, 60_exceptions.md R93). -/
inductive Response
  /-- There was no request. -/
  | idle
  /-- A step without a result was done. -/
  | done
  /-- The translation faulted; the access was not performed. -/
  | fault (f : Fault)
  /-- A fetch or read: the address, the attributes and the value of the bytes read. -/
  | loaded (pa : PAddr) (attrs : Attrs) (value : Nat)
  /-- A write was performed. -/
  | stored (pa : PAddr) (attrs : Attrs)
  /-- The requester split an access at a page boundary (D5). -/
  | split
  deriving DecidableEq, Repr

/-- The state (10_state.md R10), the requester's registers and inputs (R24, R25), the configuration (R27), and the
model's own `requests`, `response`, `choices` and `tick` (log 1, log 3, log 4). -/
structure State where
  ttbr0El1 : DWord
  ttbr1El1 : DWord
  ttbr0El2 : DWord
  ttbr0El3 : DWord
  tcrEl1   : TcrEl1
  tlb      : List TlbEntry
  /-- Physical memory in the canonical form of `Memory.wf`. -/
  mem      : List Host.Cell
  x        : Vector DWord 31
  inputs   : Inputs
  cfg      : Config
  requests : List Request
  response : Response
  choices  : List Choice
  tick     : Nat
  deriving DecidableEq, Repr

/-- The state after reset. The spec leaves every component unspecified (10_state.md R28, 70_reset_and_hazards.md R99);
the values are the model's (logs 3, 5, 7, 8, 9, 10), and the TLB is a set of entries of which nothing is known (log 6). -/
def State.reset : State where
  ttbr0El1 := 0
  ttbr1El1 := 0
  ttbr0El2 := 0
  ttbr0El3 := 0
  tcrEl1   := ⟨0, 0, 0, 0, 0, 0⟩
  tlb      := resetTlb
  mem      := []
  x        := Vector.replicate 31 0
  inputs   := ⟨.el3, 0, 0⟩
  cfg      := defaultConfig
  requests := []
  response := .idle
  choices  := []
  tick     := 0

end Sys2Proof.Machine
end

