-- ==== Sys2Proof/Machine/Ops.lean ====
section
/-! DEFINITION. The named operations over memory, registers, the TLB as a set, the reports and the free choices. -/

namespace Sys2Proof.Machine

/-! Physical memory (10_state.md R23, 20_memory.md R31). -/

abbrev Memory := List Host.Cell

/-- What an unlisted address reads as. DESIGN CHOICE: the spec leaves memory unspecified at reset (R28; log 7). -/
def unlistedByte : Byte := 0

/-- The canonical form from a lowest address on: addresses strictly rising below 2^48, no entry equal to an unlisted byte. -/
def Memory.wfFrom : Nat → Memory → Bool
  | _, [] => true
  | lo, (a, b) :: m => decide (lo ≤ a) && decide (a < 2 ^ 48) && decide (b ≠ unlistedByte) && Memory.wfFrom (a + 1) m

/-- The canonical form. -/
def Memory.wf (m : Memory) : Bool := Memory.wfFrom 0 m

/-- The byte at an address. -/
def Memory.read : Memory → Nat → Byte
  | [], _ => unlistedByte
  | (k, b) :: m, a => if k = a then b else Memory.read m a

/-- Put a cell in its place in a list of rising addresses. -/
def Memory.insert (a : Nat) (b : Byte) : Memory → Memory
  | [] => [(a, b)]
  | (k, c) :: m => if a < k then (a, b) :: (k, c) :: m else (k, c) :: Memory.insert a b m

/-- Write one byte, keeping the canonical form. -/
def Memory.write (m : Memory) (a : Nat) (b : Byte) : Memory :=
  if b = unlistedByte then m.filter fun c => decide (c.1 ≠ a)
  else Memory.insert a b (m.filter fun c => decide (c.1 ≠ a))

/-- The bytes at `pa`, `pa + 1`, ..., addition modulo 2^48 (R31). -/
def readBytes (m : Memory) (pa : PAddr) : Nat → List Byte
  | 0 => []
  | n + 1 => Memory.read m pa.toNat :: readBytes m (pa + 1) n

/-- Store bytes at `pa`, `pa + 1`, ..., addition modulo 2^48 (R31). -/
def writeBytes (m : Memory) (pa : PAddr) : List Byte → Memory
  | [] => m
  | b :: bs => writeBytes (Memory.write m pa.toNat b) (pa + 1) bs

/-- The number little-endian bytes stand for: the first byte is the least significant (20_memory.md R32). -/
def valueLE : List Byte → Nat
  | [] => 0
  | b :: bs => b.toNat + 256 * valueLE bs

/-- The `n` little-endian bytes of a number (R32). -/
def bytesLE : Nat → Nat → List Byte
  | 0, _ => []
  | n + 1, v => BitVec.ofNat 8 v :: bytesLE n (v / 256)

/-- Bytes in address order for a value in the byte order `DESC_BIG_ENDIAN` picks (R32, D4). -/
def inOrder (bigEndian : Bool) (bs : List Byte) : List Byte := if bigEndian then bs.reverse else bs

/-- `MemRead(pa, n)` (R31). -/
def memRead (cfg : Config) (m : Memory) (pa : PAddr) (n : Nat) : BitVec (8 * n) :=
  BitVec.ofNat (8 * n) (valueLE (inOrder cfg.descBigEndian (readBytes m pa n)))

/-- `MemWrite(pa, n, v)` (R31). -/
def memWrite (cfg : Config) (m : Memory) (pa : PAddr) (n : Nat) (v : BitVec (8 * n)) : Memory :=
  writeBytes m pa (inOrder cfg.descBigEndian (bytesLE n v.toNat))

/-- The 8-byte read of a table entry (20_memory.md R34). -/
def memRead64 (cfg : Config) (m : Memory) (pa : PAddr) : DWord := memRead cfg m pa 8

/-- Whether one physical address lies in the declared plain memory (20_memory.md R34, D7). -/
def plainByte (cfg : Config) (pa : PAddr) : Bool :=
  cfg.plainMemory.any fun r => decide (r.1 ≤ pa.toNat ∧ pa.toNat < r.1 + r.2)

/-- Whether `n` bytes from `pa` on lie in the declared plain memory. -/
def plain (cfg : Config) (pa : PAddr) : Nat → Bool
  | 0 => true
  | n + 1 => plainByte cfg pa && plain cfg (pa + 1) n

/-! Registers. -/

/-- `x[t]` (00_scope.md R8): register 31 reads as zero (10_state.md R25, GK10). -/
def readX (s : State) (t : BitVec 5) : DWord :=
  if h : t.toNat < 31 then s.x[t.toNat]'h else 0

/-- `x[t] <- v`, a step of the requester; register 31 discards it (R25, GK10; log 8). -/
def writeX (s : State) (t : BitVec 5) (v : DWord) : State :=
  if h : t.toNat < 31 then { s with x := s.x.set t.toNat v h } else s

/-- The fields of TCR_EL1 at the positions of GK1: T0SZ [5:0], TG0 [15:14], T1SZ [21:16], TG1 [31:30], IPS [34:32]. PRESUMED (log 17). -/
def TcrEl1.ofWord (w : DWord) : TcrEl1 where
  t0sz := w.extractLsb 5 0
  tg0 := w.extractLsb 15 14
  t1sz := w.extractLsb 21 16
  tg1 := w.extractLsb 31 30
  ips := w.extractLsb 34 32
  rest := w.extractLsb 63 35 ++ w.extractLsb 29 22 ++ w.extractLsb 13 6

/-- TCR_EL1 as one word, the same positions. -/
def TcrEl1.toWord (t : TcrEl1) : DWord :=
  t.rest.extractLsb 44 16 ++ t.ips ++ t.tg1 ++ t.rest.extractLsb 15 8 ++ t.t1sz ++ t.tg0 ++ t.rest.extractLsb 7 0 ++ t.t0sz

/-- `WriteSysReg(reg, value)`, with no privilege check (10_state.md R29, 42_translation_walk.md R110). -/
def writeSysReg (s : State) : SysRegWrite → State
  | .ttbr0El1 v => { s with ttbr0El1 := v }
  | .ttbr1El1 v => { s with ttbr1El1 := v }
  | .ttbr0El2 v => { s with ttbr0El2 := v }
  | .ttbr0El3 v => { s with ttbr0El3 := v }
  | .tcrEl1 t => { s with tcrEl1 := t }
  | .tcrEl1Word w => { s with tcrEl1 := TcrEl1.ofWord w }

/-! One-field updates. -/

def setTlb (s : State) (tlb : List TlbEntry) : State := { s with tlb := tlb }
def setMem (s : State) (m : Memory) : State := { s with mem := m }
def setRequests (s : State) (rs : List Request) : State := { s with requests := rs }

/-- Tell the requester how its step ended. -/
def respond (s : State) (r : Response) : State := { s with response := r }

/-- A FAULT AS THE SPEC DESCRIBES IT (60_exceptions.md R93, R98, D17): it is reported, the access is not performed, and
nothing is saved, entered or changed. There is no return from it (R95). -/
def reportFault (s : State) (f : Fault) : State := respond s (.fault f)

/-- The 6-bit fault status code the architecture gives a fault. PRESUMED, the marked extension of GK13 (60_exceptions.md
R86): no rule reads it (log 34). -/
def faultStatusCode : Fault → BitVec 6
  | .vaRange _ _ => 0b000100#6
  | .translation level _ _ => 0b0001#4 ++ BitVec.ofNat 2 level
  | .permission level _ _ => 0b0011#4 ++ BitVec.ofNat 2 level
  | .addressSize level _ _ => 0b0000#4 ++ BitVec.ofNat 2 (level.getD 0)

/-! The free choices (D18, D19). -/

/-- The resolution of what is free at this step: scripted, or of unknown value (log 3). -/
def choiceOf (s : State) : Choice :=
  match s.choices with
  | c :: _ => c
  | [] => Config.freeChoice s.tick

/-- `TLB \ S` (40_tlb_tlbi.md R55): entry `i` is lost when bit `i` of the number is set. -/
def loseEntries : Nat → List TlbEntry → List TlbEntry
  | _, [] => []
  | n, e :: es => if n % 2 = 1 then loseEntries (n / 2) es else e :: loseEntries (n / 2) es

/-- The start of every step: the step's choice is drawn and the TLB loses what it loses (R55; log 35). -/
def beginStep (s : State) : State :=
  { s with choices := s.choices.tail, tick := s.tick + 1, tlb := loseEntries (choiceOf s).lost s.tlb }

/-- The requester's step leaves the queue and its inputs are presented (10_state.md R24). -/
def takeRequest (s : State) (inp : Inputs) (rest : List Request) : State :=
  { s with inputs := inp, requests := rest }

end Sys2Proof.Machine
end

