-- ==== Sys2Proof/Machine/Operands.lean ====
section
/-! DEFINITION. The operand forms of `TLBI` (40_tlb_tlbi.md R56, 30_encoding.md R46). The hardware has no other operand and no flag. -/

namespace Sys2Proof.Machine

/-- `arg` of R56 for a word: `some(x[t])` for an operation that takes `<Xt>`; any other ignores the field (corner (d)). -/
def wordArg (op : TlbiOp) (rt : BitVec 5) (s : State) : Option DWord :=
  if takesXt op.kind then some (readX s rt) else none

/-- `arg` of R56 for the text form: `if t is present then some(x[t]) else none`, a present `<Xt>` of an operation that takes
none being ignored (corner (d)). -/
def textArg (op : TlbiOp) (xt : Option (BitVec 5)) (s : State) : Option DWord := xt.bind fun t => wordArg op t s

/-- `arg[63:48]` (R57). -/
def argAsid (arg : DWord) : Asid := arg.extractLsb 63 48

/-- The first address of the 4KB page whose bits [55:12] are `arg[43:0]`, extended with copies of bit 55 (R57). -/
def argPage (arg : DWord) : VAddr := BitVec.signExtend 64 (arg.extractLsb 43 0 ++ 0#12)

end Sys2Proof.Machine
end

