-- ==== Sys2Proof/Machine/Tlbi.lean ====
section
/-! DEFINITION. The `TLBI` instruction (40_tlb_tlbi.md R56, R57): one meaning for each row of the opcode table. -/

namespace Sys2Proof.Machine

/-- `Covers(e, arg)` (R57): the 4KB page `arg` names lies inside the entry. -/
def covers (e : TlbEntry) (arg : DWord) : Bool :=
  decide (e.vaBase.toNat ≤ (argPage arg).toNat) && decide ((argPage arg).toNat + 4096 ≤ e.vaBase.toNat + 2 ^ e.k)

/-- The table of R57. PRESUMED (GK6; log 12). -/
def armv8Selects (kind : TlbiKind) (arg : DWord) (vmid : Vmid) (e : TlbEntry) : Bool :=
  match kind with
  | .alle1 => e.regime == .el1and0
  | .alle2 => e.regime == .el2
  | .alle3 => e.regime == .el3
  | .vmalle1 | .vmalls12e1 => e.regime == .el1and0 && e.vmid == vmid
  | .aside1 => e.regime == .el1and0 && e.vmid == vmid && e.asid == argAsid arg
  | .vae1 | .vale1 => e.regime == .el1and0 && e.vmid == vmid && e.asid == argAsid arg && covers e arg
  | .vaae1 | .vaale1 => e.regime == .el1and0 && e.vmid == vmid && covers e arg
  | .vae2 | .vale2 => e.regime == .el2 && covers e arg
  | .vae3 | .vale3 => e.regime == .el3 && covers e arg
  | .ipas2e1 | .ipas2le1 => false

/-- `TlbiSelects(op, arg, asid, vmid, e)` (R57). Under either table the `IS` form of an
operation selects as the other does, `N_PE = 1` (60_exceptions.md R97, D25; log 28). Where the text form leaves out an `<Xt>`
the operation takes, the table of R57 reads register 31, zero, as the word R47 gives that text does. PRESUMED (GK6; log 31). -/
def tlbiSelects (cfg : Config) (op : TlbiOp) (arg : Option DWord) (asid : Asid) (vmid : Vmid) (e : TlbEntry) : Bool :=
  match cfg.tlbiTable with
  | .unknown => Config.unknownTlbiSelects op.kind arg asid vmid e
  | .armv8 => armv8Selects op.kind (arg.getD 0) vmid e

/-- The level GK6 needs for an operation: not EL0; EL2 or EL3 for `E2`; EL3 for `E3` (R56). -/
def levelAllows (kind : TlbiKind) (el : EL) : Bool :=
  match opLevel kind, el with
  | _, .el0 => false
  | .el2, .el1 => false
  | .el3, .el1 => false
  | .el3, .el2 => false
  | _, _ => true

/-- Whether the operation runs at the requester's level: always, unless `cfg.tlbiPrivilege` asks for GK6's check (log 16). -/
def tlbiAllowed (s : State) (kind : TlbiKind) : Bool := !s.cfg.tlbiPrivilege || levelAllows kind s.inputs.el

/-- `TLB <- { e in TLB | !TlbiSelects(op, arg, CUR_ASID, CUR_VMID, e) }` (R56). -/
def invalidate (op : TlbiOp) (arg : Option DWord) (s : State) : State :=
  setTlb s (s.tlb.filter fun e => !tlbiSelects s.cfg op arg s.inputs.asid s.inputs.vmid e)

/-- `Tlbi(op, t?)` (R56) with its argument read. -/
def tlbi (op : TlbiOp) (arg : Option DWord) (s : State) : Host.Outcome State Fault Refusal :=
  if tlbiAllowed s op.kind then .next (invalidate op arg s) else .refused .tlbiUndefinedAtLevel

/-- `Tlbi` of a binary row: the argument is the register `Rt` names. -/
def tlbiWord (op : TlbiOp) (rt : BitVec 5) (s : State) : Host.Outcome State Fault Refusal := tlbi op (wordArg op rt s) s

/-- `TLBI <type><level>{IS} {, <Xt>}`: the source's row, by name; a name outside the configured set is refused (30_encoding.md R49). -/
def execTlbi (name : String) (xt : Option (BitVec 5)) (s : State) : Host.Outcome State Fault Refusal :=
  match opOfName? name with
  | some op => tlbi op (textArg op xt s) s
  | none => .refused .tlbiNameNotConfigured

/-- `TLBI VMALLE1IS`. -/
def execVmalle1is (rt : BitVec 5) (s : State) : Host.Outcome State Fault Refusal := tlbiWord ⟨.vmalle1, true⟩ rt s

/-- `TLBI VMALLE1`. -/
def execVmalle1 (rt : BitVec 5) (s : State) : Host.Outcome State Fault Refusal := tlbiWord ⟨.vmalle1, false⟩ rt s

/-- `TLBI VAE1IS, <Xt>`. -/
def execVae1is (rt : BitVec 5) (s : State) : Host.Outcome State Fault Refusal := tlbiWord ⟨.vae1, true⟩ rt s

/-- `TLBI VAE1, <Xt>`. -/
def execVae1 (rt : BitVec 5) (s : State) : Host.Outcome State Fault Refusal := tlbiWord ⟨.vae1, false⟩ rt s

/-- `TLBI ASIDE1IS, <Xt>`. -/
def execAside1is (rt : BitVec 5) (s : State) : Host.Outcome State Fault Refusal := tlbiWord ⟨.aside1, true⟩ rt s

/-- `TLBI ASIDE1, <Xt>`. -/
def execAside1 (rt : BitVec 5) (s : State) : Host.Outcome State Fault Refusal := tlbiWord ⟨.aside1, false⟩ rt s

/-- `TLBI VAAE1IS, <Xt>`. -/
def execVaae1is (rt : BitVec 5) (s : State) : Host.Outcome State Fault Refusal := tlbiWord ⟨.vaae1, true⟩ rt s

/-- `TLBI VAAE1, <Xt>`. -/
def execVaae1 (rt : BitVec 5) (s : State) : Host.Outcome State Fault Refusal := tlbiWord ⟨.vaae1, false⟩ rt s

/-- `TLBI VALE1IS, <Xt>`. -/
def execVale1is (rt : BitVec 5) (s : State) : Host.Outcome State Fault Refusal := tlbiWord ⟨.vale1, true⟩ rt s

/-- `TLBI VALE1, <Xt>`. -/
def execVale1 (rt : BitVec 5) (s : State) : Host.Outcome State Fault Refusal := tlbiWord ⟨.vale1, false⟩ rt s

/-- `TLBI VAALE1IS, <Xt>`. -/
def execVaale1is (rt : BitVec 5) (s : State) : Host.Outcome State Fault Refusal := tlbiWord ⟨.vaale1, true⟩ rt s

/-- `TLBI VAALE1, <Xt>`. -/
def execVaale1 (rt : BitVec 5) (s : State) : Host.Outcome State Fault Refusal := tlbiWord ⟨.vaale1, false⟩ rt s

/-- `TLBI IPAS2E1IS, <Xt>`. -/
def execIpas2e1is (rt : BitVec 5) (s : State) : Host.Outcome State Fault Refusal := tlbiWord ⟨.ipas2e1, true⟩ rt s

/-- `TLBI IPAS2E1, <Xt>`. -/
def execIpas2e1 (rt : BitVec 5) (s : State) : Host.Outcome State Fault Refusal := tlbiWord ⟨.ipas2e1, false⟩ rt s

/-- `TLBI IPAS2LE1IS, <Xt>`. -/
def execIpas2le1is (rt : BitVec 5) (s : State) : Host.Outcome State Fault Refusal := tlbiWord ⟨.ipas2le1, true⟩ rt s

/-- `TLBI IPAS2LE1, <Xt>`. -/
def execIpas2le1 (rt : BitVec 5) (s : State) : Host.Outcome State Fault Refusal := tlbiWord ⟨.ipas2le1, false⟩ rt s

/-- `TLBI ALLE2IS`. -/
def execAlle2is (rt : BitVec 5) (s : State) : Host.Outcome State Fault Refusal := tlbiWord ⟨.alle2, true⟩ rt s

/-- `TLBI ALLE2`. -/
def execAlle2 (rt : BitVec 5) (s : State) : Host.Outcome State Fault Refusal := tlbiWord ⟨.alle2, false⟩ rt s

/-- `TLBI VAE2IS, <Xt>`. -/
def execVae2is (rt : BitVec 5) (s : State) : Host.Outcome State Fault Refusal := tlbiWord ⟨.vae2, true⟩ rt s

/-- `TLBI VAE2, <Xt>`. -/
def execVae2 (rt : BitVec 5) (s : State) : Host.Outcome State Fault Refusal := tlbiWord ⟨.vae2, false⟩ rt s

/-- `TLBI ALLE1IS`. -/
def execAlle1is (rt : BitVec 5) (s : State) : Host.Outcome State Fault Refusal := tlbiWord ⟨.alle1, true⟩ rt s

/-- `TLBI ALLE1`. -/
def execAlle1 (rt : BitVec 5) (s : State) : Host.Outcome State Fault Refusal := tlbiWord ⟨.alle1, false⟩ rt s

/-- `TLBI VALE2IS, <Xt>`. -/
def execVale2is (rt : BitVec 5) (s : State) : Host.Outcome State Fault Refusal := tlbiWord ⟨.vale2, true⟩ rt s

/-- `TLBI VALE2, <Xt>`. -/
def execVale2 (rt : BitVec 5) (s : State) : Host.Outcome State Fault Refusal := tlbiWord ⟨.vale2, false⟩ rt s

/-- `TLBI VMALLS12E1IS`. -/
def execVmalls12e1is (rt : BitVec 5) (s : State) : Host.Outcome State Fault Refusal := tlbiWord ⟨.vmalls12e1, true⟩ rt s

/-- `TLBI VMALLS12E1`. -/
def execVmalls12e1 (rt : BitVec 5) (s : State) : Host.Outcome State Fault Refusal := tlbiWord ⟨.vmalls12e1, false⟩ rt s

/-- `TLBI ALLE3IS`. -/
def execAlle3is (rt : BitVec 5) (s : State) : Host.Outcome State Fault Refusal := tlbiWord ⟨.alle3, true⟩ rt s

/-- `TLBI ALLE3`. -/
def execAlle3 (rt : BitVec 5) (s : State) : Host.Outcome State Fault Refusal := tlbiWord ⟨.alle3, false⟩ rt s

/-- `TLBI VAE3IS, <Xt>`. -/
def execVae3is (rt : BitVec 5) (s : State) : Host.Outcome State Fault Refusal := tlbiWord ⟨.vae3, true⟩ rt s

/-- `TLBI VAE3, <Xt>`. -/
def execVae3 (rt : BitVec 5) (s : State) : Host.Outcome State Fault Refusal := tlbiWord ⟨.vae3, false⟩ rt s

/-- `TLBI VALE3IS, <Xt>`. -/
def execVale3is (rt : BitVec 5) (s : State) : Host.Outcome State Fault Refusal := tlbiWord ⟨.vale3, true⟩ rt s

/-- `TLBI VALE3, <Xt>`. -/
def execVale3 (rt : BitVec 5) (s : State) : Host.Outcome State Fault Refusal := tlbiWord ⟨.vale3, false⟩ rt s

end Sys2Proof.Machine
end

