-- ==== Sys2Proof/Machine/Dispatch.lean ====
section
/-! DEFINITION. One arm for each instruction. -/

namespace Sys2Proof.Machine

def exec (i : Instr) (s : State) : Host.Outcome State Fault Refusal :=
  match i with
  | .tlbi name xt => Sys2Proof.Machine.execTlbi name xt s
  | .vmalle1is rt => Sys2Proof.Machine.execVmalle1is rt s
  | .vmalle1 rt => Sys2Proof.Machine.execVmalle1 rt s
  | .vae1is rt => Sys2Proof.Machine.execVae1is rt s
  | .vae1 rt => Sys2Proof.Machine.execVae1 rt s
  | .aside1is rt => Sys2Proof.Machine.execAside1is rt s
  | .aside1 rt => Sys2Proof.Machine.execAside1 rt s
  | .vaae1is rt => Sys2Proof.Machine.execVaae1is rt s
  | .vaae1 rt => Sys2Proof.Machine.execVaae1 rt s
  | .vale1is rt => Sys2Proof.Machine.execVale1is rt s
  | .vale1 rt => Sys2Proof.Machine.execVale1 rt s
  | .vaale1is rt => Sys2Proof.Machine.execVaale1is rt s
  | .vaale1 rt => Sys2Proof.Machine.execVaale1 rt s
  | .ipas2e1is rt => Sys2Proof.Machine.execIpas2e1is rt s
  | .ipas2e1 rt => Sys2Proof.Machine.execIpas2e1 rt s
  | .ipas2le1is rt => Sys2Proof.Machine.execIpas2le1is rt s
  | .ipas2le1 rt => Sys2Proof.Machine.execIpas2le1 rt s
  | .alle2is rt => Sys2Proof.Machine.execAlle2is rt s
  | .alle2 rt => Sys2Proof.Machine.execAlle2 rt s
  | .vae2is rt => Sys2Proof.Machine.execVae2is rt s
  | .vae2 rt => Sys2Proof.Machine.execVae2 rt s
  | .alle1is rt => Sys2Proof.Machine.execAlle1is rt s
  | .alle1 rt => Sys2Proof.Machine.execAlle1 rt s
  | .vale2is rt => Sys2Proof.Machine.execVale2is rt s
  | .vale2 rt => Sys2Proof.Machine.execVale2 rt s
  | .vmalls12e1is rt => Sys2Proof.Machine.execVmalls12e1is rt s
  | .vmalls12e1 rt => Sys2Proof.Machine.execVmalls12e1 rt s
  | .alle3is rt => Sys2Proof.Machine.execAlle3is rt s
  | .alle3 rt => Sys2Proof.Machine.execAlle3 rt s
  | .vae3is rt => Sys2Proof.Machine.execVae3is rt s
  | .vae3 rt => Sys2Proof.Machine.execVae3 rt s
  | .vale3is rt => Sys2Proof.Machine.execVale3is rt s
  | .vale3 rt => Sys2Proof.Machine.execVale3 rt s

end Sys2Proof.Machine
end

