-- ==== Sys2Proof/Machine/Descriptor.lean ====
section
/-! DEFINITION. Translation table entries (30_encoding.md R44, 42_translation_walk.md R77): kind, permission, attributes,
contiguous mark, under the instance `cfg.entryFormat` names (log 11). -/

namespace Sys2Proof.Machine

/-- `DescKind` above the last level. GK4: bit 0 valid, bits [1:0] 01 a block and 11 a table. -/
def upperKind (cfg : Config) (level : Nat) (d : DWord) : UpperKind :=
  match cfg.entryFormat with
  | .unknown => Config.unknownUpperKind level d
  | .gk4 => if d.getLsbD 0 then (if d.getLsbD 1 then .table else .block) else .invalid

/-- `DescKind` at level 3. GK4: bits [1:0] 11 a page, anything else invalid. -/
def lastKind (cfg : Config) (d : DWord) : LastKind :=
  match cfg.entryFormat with
  | .unknown => Config.unknownLastKind d
  | .gk4 => if d.getLsbD 0 && d.getLsbD 1 then .page else .invalid

/-- What `AttrsOf` keeps of one entry. GK4: bits [63:52] and [11:2] of a block or page, bits [63:59] of a table descriptor. -/
def entryAttrs (cfg : Config) (level : Nat) (isTable : Bool) (d : DWord) : EntryAttrs where
  level := level
  isTable := isTable
  bits :=
    match cfg.entryFormat with
    | .unknown => Config.unknownAttrBits level d
    | .gk4 => if isTable then d &&& 0xF800000000000000#64 else d &&& 0xFFF0000000000FFC#64

/-- The AP and execute-never verdict of a block or page at EL0 and EL1 (95_test_vectors.md section 2, GK4); at EL2 and
EL3, which GK4 leaves out, AP[1] and bit 54 alone decide. PRESUMED (log 11). -/
def gk4Permits (bits : DWord) (acc : AccessKind) : EL → Bool
  | .el0 =>
    match acc with
    | .read => bits.getLsbD 6
    | .write => bits.getLsbD 6 && !bits.getLsbD 7
    | .fetch => bits.getLsbD 6 && !bits.getLsbD 54
  | .el1 =>
    match acc with
    | .read => true
    | .write => !bits.getLsbD 7
    | .fetch => !bits.getLsbD 53
  | .el2 | .el3 =>
    match acc with
    | .read => true
    | .write => !bits.getLsbD 7
    | .fetch => !bits.getLsbD 54

/-- The permission verdict of one entry's attributes; a table descriptor permits under GK4. -/
def entryPermits (cfg : Config) (a : EntryAttrs) (acc : AccessKind) (el : EL) : Bool :=
  match cfg.entryFormat with
  | .unknown => Config.unknownPermits a acc el
  | .gk4 => if a.isTable then true else gk4Permits a.bits acc el

/-- `PermitsAt(level, d, acc, el)` (R77, D13). -/
def permitsAt (cfg : Config) (level : Nat) (isTable : Bool) (d : DWord) (acc : AccessKind) (el : EL) : Bool :=
  entryPermits cfg (entryAttrs cfg level isTable d) acc el

/-- `Permits(attrs, acc, el)` on a TLB hit: the conjunction over the entries walked (R77). -/
def permits (cfg : Config) (attrs : Attrs) (acc : AccessKind) (el : EL) : Bool :=
  attrs.all fun a => entryPermits cfg a acc el

/-- `IsContiguous` (40_tlb_tlbi.md R58). GK4: bit 52. -/
def isContiguous (cfg : Config) (d : DWord) : Bool :=
  match cfg.entryFormat with
  | .unknown => Config.unknownContiguous d
  | .gk4 => d.getLsbD 52

/-- The address field of an entry: bits [47:0], of which a rule takes the upper part (30_encoding.md R44). -/
def addrField (d : DWord) : PAddr := d.extractLsb 47 0

/-- log2 of the number of level 3 entries of a contiguous group (40_tlb_tlbi.md R60): 32 with 64KB; 16 with 4KB,
PRESUMED (GK16); the source gives no group for 16KB (log 21). -/
def groupBits : Granule → Option Nat
  | .kb64 => some 5
  | .kb4 => some 4
  | .kb16 => none

/-- A level 3 page with the contiguous mark. -/
def markedPage (cfg : Config) (d : DWord) : Bool := lastKind cfg d == .page && isContiguous cfg d

/-- The conditions of 40_tlb_tlbi.md R59 on the entries of one group, in table order. -/
def groupConsistent (cfg : Config) (g gb : Nat) (ds : List DWord) : Bool :=
  match ds with
  | [] => true
  | d0 :: _ =>
    sliceZeros d0 (g + gb - 1) g &&
    ds.zipIdx.all fun p =>
      markedPage cfg p.1 &&
      entryAttrs cfg 3 false p.1 == entryAttrs cfg 3 false d0 &&
      clearLow g (addrField p.1) == clearLow g (addrField d0) + BitVec.ofNat 48 (p.2 * 2 ^ g)

/-- The entries of the contiguous group the level 3 entry at physical address `a` belongs to. -/
def groupEntries (cfg : Config) (m : Memory) (gb : Nat) (a : PAddr) : List DWord :=
  (List.range (2 ^ gb)).map fun i => memRead64 cfg m (clearLow (gb + 3) a + BitVec.ofNat 48 (8 * i))

/-- An entry with the contiguous mark belongs to a group that breaks a condition (R59, D27). -/
def groupBroken (cfg : Config) (m : Memory) (granule : Granule) (a : PAddr) : Bool :=
  match groupBits granule with
  | none => false
  | some gb =>
    (groupEntries cfg m gb a).any (markedPage cfg) &&
    !groupConsistent cfg (granuleBits granule) gb (groupEntries cfg m gb a)

end Sys2Proof.Machine
end

