-- ==== Sys2Proof/Machine/Regions.lean ====
section
/-! DEFINITION. Virtual address regions: `SelectRegion` (41_va_regions.md R61 to R72). -/

namespace Sys2Proof.Machine

/-- The region record of R72. -/
structure Region where
  base    : DWord
  n       : Nat
  granule : Granule
  regime  : Regime
  ea      : VAddr
  deriving DecidableEq, Repr

/-- `GranuleOfTG0` and `GranuleOfTG1` (30_encoding.md R41). -/
def granuleOfTG0 (cfg : Config) (tg : BitVec 2) : Option Granule := cfg.granuleOfTG0.get tg.toFin
def granuleOfTG1 (cfg : Config) (tg : BitVec 2) : Option Granule := cfg.granuleOfTG1.get tg.toFin

/-- `OutBitsOfIPS` (30_encoding.md R42). -/
def outBitsOfIPS (cfg : Config) (ips : BitVec 3) : Option Nat := cfg.outBitsOfIPS.get ips.toFin

/-- The highest address bit the region test looks at: 55 with tagging, 63 without (R64, R72). -/
def topBit (tag : Bool) : Nat := if tag then 55 else 63

/-- `inLower` of R72. -/
def inLower (tag : Bool) (n : Nat) (va : VAddr) : Bool := sliceZeros va (topBit tag) (64 - n)

/-- `inUpper` of R72. -/
def inUpper (tag : Bool) (n : Nat) (va : VAddr) : Bool := sliceOnes va (topBit tag) (64 - n)

/-- The effective address of the lower region: the tag byte replaced by zeros when tagging is on. -/
def eaLower (tag : Bool) (va : VAddr) : VAddr := if tag then 0#8 ++ va.extractLsb 55 0 else va

/-- The effective address of the upper region: the tag byte replaced by ones when tagging is on. -/
def eaUpper (tag : Bool) (va : VAddr) : VAddr := if tag then 0xFF#8 ++ va.extractLsb 55 0 else va

/-- A value of T0SZ or T1SZ within the bounds (R49, D22). -/
def txszLegal (cfg : Config) (n : Nat) : Bool := decide (cfg.txszMin ≤ n) && decide (n ≤ cfg.txszMax)

/-- `SelectRegion` at EL0 and EL1. -/
def selectEl1and0 (s : State) (va : VAddr) (acc : AccessKind) : Result Region :=
  if txszLegal s.cfg s.tcrEl1.t0sz.toNat && txszLegal s.cfg s.tcrEl1.t1sz.toNat then
    match inLower s.cfg.tag0 s.tcrEl1.t0sz.toNat va, inUpper s.cfg.tag1 s.tcrEl1.t1sz.toNat va with
    | true, false =>
      match granuleOfTG0 s.cfg s.tcrEl1.tg0 with
      | some g => .ok ⟨s.ttbr0El1, s.tcrEl1.t0sz.toNat, g, .el1and0, eaLower s.cfg.tag0 va⟩
      | none => .refused .granuleNotListed
    | false, true =>
      match granuleOfTG1 s.cfg s.tcrEl1.tg1 with
      | some g => .ok ⟨s.ttbr1El1, s.tcrEl1.t1sz.toNat, g, .el1and0, eaUpper s.cfg.tag1 va⟩
      | none => .refused .granuleNotListed
    | true, true => .refused .regionsOverlap
    | false, false => .fault (.vaRange va acc)
  else .refused .txszOutOfBounds

/-- `SelectRegion` at EL2 and EL3: the lower region of 48 bits only (R66). -/
def selectSingle (base : DWord) (granule : Granule) (regime : Regime) (tag : Bool) (va : VAddr) (acc : AccessKind) :
    Result Region :=
  if inLower tag 16 va then .ok ⟨base, 16, granule, regime, eaLower tag va⟩ else .fault (.vaRange va acc)

/-- `SelectRegion` (R72). -/
def selectRegion (s : State) (va : VAddr) (acc : AccessKind) : EL → Result Region
  | .el0 | .el1 => selectEl1and0 s va acc
  | .el2 => selectSingle s.ttbr0El2 s.cfg.el2Granule .el2 s.cfg.tagEl2 va acc
  | .el3 => selectSingle s.ttbr0El3 s.cfg.el3Granule .el3 s.cfg.tagEl3 va acc

end Sys2Proof.Machine
end

