-- ==== Sys2Proof/Machine/Walk.lean ====
section
/-! DEFINITION. The translation table walk (42_translation_walk.md): `Walk64K42` as R80 writes it, and the general
geometry of R85 (PRESUMED, GK8; log 14). -/

namespace Sys2Proof.Machine

/-- The access a walk is made for: the address as issued, the effective address, the kind, the level, the output size
`w`, and which fault a tie reports (R91 item 3). -/
structure WalkFor where
  va        : VAddr
  ea        : VAddr
  acc       : AccessKind
  el        : EL
  w         : Nat
  sizeFirst : Bool
  deriving DecidableEq, Repr

/-- What a walk that does not fault returns (R80): the address, the attributes, the level and covered size `2^k` of the
entry it ended in, and the size `2^wide` a wide fill may cover (40_tlb_tlbi.md R54). -/
structure WalkEnd where
  pa    : PAddr
  attrs : Attrs
  level : Nat
  k     : Nat
  wide  : Option Nat
  deriving DecidableEq, Repr

/-- `oa[47:w] = 0` (41_va_regions.md R68). -/
def inSize (w : Nat) (a : PAddr) : Bool := sliceZeros a 47 w

/-- The read of one entry; a walk outside the declared plain memory is refused (20_memory.md R34, D7). -/
def readEntry (cfg : Config) (m : Memory) (a : PAddr) : Result DWord :=
  if plain cfg a 8 then .ok (memRead64 cfg m a) else .refused (.walkOutsidePlainMemory a)

/-- `check(p1, Permission ; p2, AddressSize)` at a level (R80): the fault it raises, if any. -/
def checkEntry (q : WalkFor) (level : Nat) (permitted sized : Bool) : Option Fault :=
  match permitted, sized with
  | true, true => none
  | false, true => some (.permission level q.va q.acc)
  | true, false => some (.addressSize (some level) q.va q.acc)
  | false, false => if q.sizeFirst then some (.addressSize (some level) q.va q.acc) else some (.permission level q.va q.acc)

/-- The size a wide fill may cover after a walk that ended in this level 3 entry (40_tlb_tlbi.md R54, R58). -/
def wideSize (cfg : Config) (granule : Granule) (d : DWord) : Option Nat :=
  match groupBits granule with
  | some gb => if isContiguous cfg d then some (granuleBits granule + gb) else none
  | none => none

/-- The second lookup of R79 and R81 and its checks, from the level 2 table entry `d2` on. -/
def walkLevel3 (cfg : Config) (m : Memory) (q : WalkFor) (d2 : DWord) : Result WalkEnd :=
  let base3 : PAddr := d2.extractLsb 47 16 ++ 0#16
  let a3 : PAddr := base3.extractLsb 47 16 ++ q.ea.extractLsb 28 16 ++ 0#3
  match readEntry cfg m a3 with
  | .fault f => .fault f
  | .refused r => .refused r
  | .ok d3 =>
    if groupBroken cfg m .kb64 a3 then .refused .contiguousGroupBroken else
    match lastKind cfg d3 with
    | .invalid => .fault (.translation 3 q.va q.acc)
    | .page =>
      match checkEntry q 3 (permitsAt cfg 3 false d3 q.acc q.el) (inSize q.w (addrField d3)) with
      | some f => .fault f
      | none =>
        .ok ⟨d3.extractLsb 47 16 ++ q.ea.extractLsb 15 0, [entryAttrs cfg 2 true d2, entryAttrs cfg 3 false d3], 3, 16,
          wideSize cfg .kb64 d3⟩

/-- `Walk64K42` (R80): the 64KB granule with a 42-bit region. -/
def walk64K42 (cfg : Config) (m : Memory) (ttbr : DWord) (q : WalkFor) : Result WalkEnd :=
  let base2 : PAddr := ttbr.extractLsb 47 16 ++ 0#16
  if !inSize q.w base2 then .fault (.addressSize none q.va q.acc) else
  match readEntry cfg m (base2.extractLsb 47 16 ++ q.ea.extractLsb 41 29 ++ 0#3) with
  | .fault f => .fault f
  | .refused r => .refused r
  | .ok d2 =>
    match upperKind cfg 2 d2 with
    | .invalid => .fault (.translation 2 q.va q.acc)
    | .block =>
      match checkEntry q 2 (permitsAt cfg 2 false d2 q.acc q.el) (inSize q.w (addrField d2)) with
      | some f => .fault f
      | none =>
        .ok ⟨d2.extractLsb 47 29 ++ q.ea.extractLsb 28 0, [entryAttrs cfg 2 false d2], 2, 29, none⟩
    | .table =>
      match checkEntry q 2 (permitsAt cfg 2 true d2 q.acc q.el) (inSize q.w (addrField d2)) with
      | some f => .fault f
      | none => walkLevel3 cfg m q d2

/-! The general geometry (R85, GK8). `below` counts the levels below the table: it is 3 minus the level number. -/

/-- The lowest address bit that indexes a table: `g + (3-L)(g-3)`; it is also log2 of what one entry maps. -/
def indexLow (granule : Granule) (below : Nat) : Nat := granuleBits granule + below * (granuleBits granule - 3)

/-- The number of index bits of a table: `g - 3`, cut off at bit `63 - n` for the first table. -/
def indexWidth (granule : Granule) (n below : Nat) : Nat :=
  min (granuleBits granule - 3) (64 - n - indexLow granule below)

/-- The number of tables of a walk, `ceil((64 - n - g) / (g - 3))`; the first level is 4 minus it. -/
def tableCount (granule : Granule) (n : Nat) : Nat :=
  (64 - n - granuleBits granule + (granuleBits granule - 4)) / (granuleBits granule - 3)

/-- log2 of the size of a table. -/
def tableBits (granule : Granule) (n below : Nat) : Nat := indexWidth granule n below + 3

/-- The address of the entry `ea` indexes in a table: `base : index : 3'b000`. -/
def entryAddr (granule : Granule) (n below : Nat) (base : PAddr) (ea : VAddr) : PAddr :=
  clearLow (tableBits granule n below) base |||
    ((ea.extractLsb' (indexLow granule below) (indexWidth granule n below)).setWidth 48 <<< 3)

/-- Where block descriptors exist: levels 1 and 2 for 4KB, level 2 for 16KB and 64KB (R85). -/
def blockAllowed (granule : Granule) (level : Nat) : Bool :=
  match granule with
  | .kb4 => level == 1 || level == 2
  | .kb16 | .kb64 => level == 2

/-- Whether the level 3 table of a walk holds whole contiguous groups. A first table of level 3 can be smaller than a group
(size field above 43 with 64KB, above 48 with 4KB): the spec gives no group there. DESIGN CHOICE: the mark is ignored (log 21). -/
def groupFits (granule : Granule) (n : Nat) : Bool :=
  match groupBits granule with
  | some gb => decide (gb ≤ indexWidth granule n 0)
  | none => false

/-- The walk from a table with `below` levels below it on, `path` being the attributes of the table entries above. -/
def walkTables (cfg : Config) (m : Memory) (granule : Granule) (n : Nat) (q : WalkFor) :
    Nat → PAddr → Attrs → Result WalkEnd
  | 0, base, path =>
    match readEntry cfg m (entryAddr granule n 0 base q.ea) with
    | .fault f => .fault f
    | .refused r => .refused r
    | .ok d =>
      if groupFits granule n && groupBroken cfg m granule (entryAddr granule n 0 base q.ea) then
        .refused .contiguousGroupBroken
      else
      match lastKind cfg d with
      | .invalid => .fault (.translation 3 q.va q.acc)
      | .page =>
        match checkEntry q 3 (permitsAt cfg 3 false d q.acc q.el) (inSize q.w (addrField d)) with
        | some f => .fault f
        | none =>
          .ok ⟨joinAt (granuleBits granule) (addrField d) q.ea, path ++ [entryAttrs cfg 3 false d], 3, granuleBits granule,
            if groupFits granule n then wideSize cfg granule d else none⟩
  | below + 1, base, path =>
    match readEntry cfg m (entryAddr granule n (below + 1) base q.ea) with
    | .fault f => .fault f
    | .refused r => .refused r
    | .ok d =>
      match upperKind cfg (2 - below) d with
      | .invalid => .fault (.translation (2 - below) q.va q.acc)
      | .block =>
        if blockAllowed granule (2 - below) then
          match checkEntry q (2 - below) (permitsAt cfg (2 - below) false d q.acc q.el) (inSize q.w (addrField d)) with
          | some f => .fault f
          | none =>
            .ok ⟨joinAt (indexLow granule (below + 1)) (addrField d) q.ea,
              path ++ [entryAttrs cfg (2 - below) false d], 2 - below, indexLow granule (below + 1), none⟩
        else .fault (.translation (2 - below) q.va q.acc)
      | .table =>
        match checkEntry q (2 - below) (permitsAt cfg (2 - below) true d q.acc q.el) (inSize q.w (addrField d)) with
        | some f => .fault f
        | none =>
          walkTables cfg m granule n q below (clearLow (granuleBits granule) (addrField d))
            (path ++ [entryAttrs cfg (2 - below) true d])

/-- The general walk; a region size that puts the first level outside 0 to 3 has no geometry (log 15). -/
def walkGeneral (cfg : Config) (m : Memory) (granule : Granule) (n : Nat) (ttbr : DWord) (q : WalkFor) : Result WalkEnd :=
  match tableCount granule n with
  | 0 => .refused .walkNotGiven
  | below + 1 =>
    if 4 ≤ below then .refused .walkNotGiven else
    if !inSize q.w (clearLow (tableBits granule n below) (addrField ttbr)) then .fault (.addressSize none q.va q.acc) else
    walkTables cfg m granule n q below (clearLow (tableBits granule n below) (addrField ttbr)) []

end Sys2Proof.Machine
end

