-- ==== Sys2Proof/Machine/Tlb.lean ====
section
/-! DEFINITION. The TLB in every access: match, hit, fill (40_tlb_tlbi.md R51 to R54). -/

namespace Sys2Proof.Machine

/-- The number of bytes an entry covers (10_state.md R21). -/
def entrySize (e : TlbEntry) : Nat := 2 ^ e.k

/-- `Match(e, ea, rg)` (R51). -/
def entryMatches (inp : Inputs) (e : TlbEntry) (ea : VAddr) (rg : Regime) : Bool :=
  e.regime == rg &&
  decide (e.vaBase.toNat ≤ ea.toNat) && decide (ea.toNat < e.vaBase.toNat + entrySize e) &&
  (rg != .el1and0 || (e.asid == inp.asid && e.vmid == inp.vmid))

/-- The entries that match an access. -/
def matching (s : State) (r : Region) : List TlbEntry := s.tlb.filter fun e => entryMatches s.inputs e r.ea r.regime

/-- The entry an access uses, if it hits: any matching one, or none because the entry may be dropped at any moment (R52, R55). -/
def usedEntry (c : Choice) (s : State) (r : Region) : Option TlbEntry :=
  match c.hit with
  | none => none
  | some i => (matching s r)[i]?

/-- `paBase[47:k] : ea[k-1:0]` (R52). R21 sets no upper bound on the size: for an entry larger than 2^48, which only the TLB at
reset may hold (R28, R99), the spec gives no result of 48 bits, and the model takes PA[47:0] of the join, `ea[47:0]` (DEDUCED,
unsafe: log 40). -/
def hitAddress (e : TlbEntry) (ea : VAddr) : PAddr := joinAt e.k e.paBase ea

/-- Whether the cached permission allows the access (R52). -/
def hitPermits (cfg : Config) (e : TlbEntry) (acc : AccessKind) (el : EL) : Bool := permits cfg e.attrs acc el

/-- The entry a fill of size `2^k` adds (R54). -/
def filledEntry (inp : Inputs) (r : Region) (wk : WalkEnd) (k : Nat) : TlbEntry where
  vaBase := clearLow k r.ea
  k := k
  paBase := clearLow k wk.pa
  attrs := wk.attrs
  asid := inp.asid
  vmid := inp.vmid
  regime := r.regime
  level := wk.level

/-- The fill after a walk that did not fault (R54): optional, of the entry's own range or, where its mark allows it, of
the whole group; a wide fill that is not allowed is a narrow one. -/
def fill (c : Choice) (inp : Inputs) (r : Region) (wk : WalkEnd) (tlb : List TlbEntry) : List TlbEntry :=
  match c.fill with
  | .none => tlb
  | .narrow => addEntry (filledEntry inp r wk wk.k) tlb
  | .wide => addEntry (filledEntry inp r wk (wk.wide.getD wk.k)) tlb

end Sys2Proof.Machine
end

