-- ==== Sys2Proof/Machine/Translate.lean ====
section
/-! DEFINITION. `Translate` (42_translation_walk.md R80) and the requester's step `Access` (R109). -/

namespace Sys2Proof.Machine

/-- The output size of a regime (R80): from IPS at EL0 and EL1, the arguments of D24 at EL2 and EL3. -/
def outSize (s : State) : Regime → Option Nat
  | .el1and0 => outBitsOfIPS s.cfg s.tcrEl1.ips
  | .el2 => some s.cfg.el2OutBits
  | .el3 => some s.cfg.el3OutBits

/-- Whether the region is the one whose walk the source spells out: the 64KB granule with a 42-bit region. -/
def sourceGeometry (r : Region) : Bool := r.granule == .kb64 && r.n == 22

/-- The TLB miss of R80: `Walk64K42`, or the marked extension of R85 where it is admitted, or a refusal (D26). -/
def missWalk (c : Choice) (s : State) (r : Region) (va : VAddr) (acc : AccessKind) (el : EL) : Result WalkEnd :=
  match outSize s r.regime with
  | none => .refused .ipsNotListed
  | some w =>
    if sourceGeometry r then walk64K42 s.cfg s.mem r.base ⟨va, r.ea, acc, el, w, c.sizeFirst⟩
    else if s.cfg.generalWalk then walkGeneral s.cfg s.mem r.granule r.n r.base ⟨va, r.ea, acc, el, w, c.sizeFirst⟩
    else .refused .walkNotGiven

/-- What `Translate` returns when it does not fault (R82), and the TLB after it. -/
structure Translated where
  pa    : PAddr
  attrs : Attrs
  tlb   : List TlbEntry
  deriving DecidableEq, Repr

/-- `HitResult` (40_tlb_tlbi.md R52): no table is read and nothing is written. -/
def hitResult (s : State) (e : TlbEntry) (ea va : VAddr) (acc : AccessKind) (el : EL) : Result Translated :=
  if hitPermits s.cfg e acc el then .ok ⟨hitAddress e ea, e.attrs, s.tlb⟩ else .fault (.permission e.level va acc)

/-- The miss path with its optional fill (R80). -/
def missResult (c : Choice) (s : State) (r : Region) (va : VAddr) (acc : AccessKind) (el : EL) : Result Translated :=
  match missWalk c s r va acc el with
  | .fault f => .fault f
  | .refused z => .refused z
  | .ok wk => .ok ⟨wk.pa, wk.attrs, fill c s.inputs r wk s.tlb⟩

/-- The regime of an access's exception level (40_tlb_tlbi.md R51). -/
def regimeOf : EL → Regime
  | .el0 | .el1 => .el1and0
  | .el2 => .el2
  | .el3 => .el3

/-- Whether a region has a walk: the source's, or where the extension of R85 is admitted one whose first level is 0 to 3 (30_encoding.md
R49, D26; log 14, log 15). -/
def walkGiven (cfg : Config) (r : Region) : Bool :=
  sourceGeometry r || (cfg.generalWalk && decide (1 ≤ tableCount r.granule r.n ∧ tableCount r.granule r.n ≤ 4))

/-- The region of a translation to which the spec gives a meaning, a hit's as well as a miss's (30_encoding.md R49): an IPS
value not listed refuses every translation at EL0 and EL1, before VARange is looked at, and a granule and size with no walk
refuses every translation in the region. DEDUCED where R80 looks at neither on a hit and R63 raises VARange from the address
alone (log 23). -/
def translationRegion (s : State) (va : VAddr) (acc : AccessKind) (el : EL) : Result Region :=
  match outSize s (regimeOf el) with
  | none => .refused .ipsNotListed
  | some _ =>
    match selectRegion s va acc el with
    | .fault f => .fault f
    | .refused z => .refused z
    | .ok r => if walkGiven s.cfg r then .ok r else .refused .walkNotGiven

/-- `Translate(va, acc, el)` (R80), with the step's free choices. -/
def translate (c : Choice) (s : State) (va : VAddr) (acc : AccessKind) (el : EL) : Result Translated :=
  match translationRegion s va acc el with
  | .fault f => .fault f
  | .refused z => .refused z
  | .ok r =>
    match usedEntry c s r with
    | some e => hitResult s e r.ea va acc el
    | none => missResult c s r va acc el

/-- The premise of R59 and R104 at an access: no walk for it reaches a contiguous group that breaks a condition (U6, D27; log 20). -/
def groupPremise (c : Choice) (s : State) (va : VAddr) (acc : AccessKind) (el : EL) : Bool :=
  match selectRegion s va acc el with
  | .ok r => decide (missWalk c s r va acc el ≠ .refused .contiguousGroupBroken)
  | .fault _ | .refused _ => true

/-- log2 of the page size the requester splits an access by: the region's granule, 64KB where no region is selected (R109, D5; log 25). -/
def splitBits (s : State) (va : VAddr) (acc : AccessKind) (el : EL) : Nat :=
  match selectRegion s va acc el with
  | .ok r => granuleBits r.granule
  | .fault _ | .refused _ => 16

/-- The number of bytes from `va` to the end of its page. -/
def roomInPage (bits : Nat) (va : VAddr) : Nat := 2 ^ bits - va.toNat % 2 ^ bits

/-- The two parts of a value split after its first `k` of `n` bytes in address order (R31, R32). -/
def splitValue (bigEndian : Bool) (n k value : Nat) : Nat × Nat :=
  if bigEndian then (value / 256 ^ (n - k), value % 256 ^ (n - k)) else (value % 256 ^ k, value / 256 ^ k)

/-- The requester's split of an access that leaves its page: one step for the part in the page, one for the rest (20_memory.md
R33, R109). Where the rest begins is the requester's own and the spec does not say it. DESIGN CHOICE: at `va + room` modulo
2^64, so that it carries into the tag byte under tagging and goes on at address 0 past 0xFFFFFFFF_FFFFFFFF. What becomes of
the rest where the first part faults the spec does not say either. DESIGN CHOICE: it stays requested and is performed (log 25). -/
def splitAccess (s : State) (kind : AccessKind) (va : VAddr) (n value room : Nat) : State :=
  respond (setRequests s
    (⟨s.inputs, .access kind va room (splitValue s.cfg.descBigEndian n room value).1⟩ ::
     ⟨s.inputs, .access kind (va + BitVec.ofNat 64 room) (n - room) (splitValue s.cfg.descBigEndian n room value).2⟩ ::
     s.requests)) .split

/-- The memory part of `Access` after a translation (R109): `MemRead` or `MemWrite` on the one total memory, wherever the
address lies (20_memory.md R31). -/
def accessMemory (kind : AccessKind) (n value : Nat) (t : Translated) (s : State) : Host.Outcome State Fault Refusal :=
  match kind with
  | .write => .next (respond (setMem (setTlb s t.tlb) (memWrite s.cfg s.mem t.pa n (BitVec.ofNat (8 * n) value))) (.stored t.pa t.attrs))
  | .fetch | .read => .next (respond (setTlb s t.tlb) (.loaded t.pa t.attrs (memRead s.cfg s.mem t.pa n).toNat))

/-- One access inside one page. -/
def accessInPage (c : Choice) (kind : AccessKind) (va : VAddr) (n value : Nat) (s : State) : Host.Outcome State Fault Refusal :=
  if groupPremise c s va kind s.inputs.el then
    match translate c s va kind s.inputs.el with
    | .fault f => .next (reportFault s f)
    | .refused z => .refused z
    | .ok t => accessMemory kind n value t s
  else .refused .contiguousGroupBroken

/-- `Access(kind, va, el, n, v?)` (R109). -/
def access (c : Choice) (kind : AccessKind) (va : VAddr) (n value : Nat) (s : State) : Host.Outcome State Fault Refusal :=
  if n ≤ roomInPage (splitBits s va kind s.inputs.el) va then accessInPage c kind va n value s
  else .next (splitAccess s kind va n value (roomInPage (splitBits s va kind s.inputs.el) va))

/-- A `MemWrite` step of the requester, at any address (R31, D1). -/
def requesterWrite (pa : PAddr) (n value : Nat) (s : State) : Host.Outcome State Fault Refusal :=
  .next (respond (setMem s (memWrite s.cfg s.mem pa n (BitVec.ofNat (8 * n) value))) .done)

end Sys2Proof.Machine
end

