-- ==== Sys2Proof/Machine/Issue.lean ====
section
/-! DEFINITION. The steps of the requester (92_eei_decisions.md D1): how each action is carried out, and how an
instruction is fetched through the MMU (10_state.md R26, 20_memory.md R39, 42_translation_walk.md R108). -/

namespace Sys2Proof.Machine

/-- The end of an instruction step: a next state reports that it is done. -/
def reportDone : Host.Outcome State Fault Refusal → Host.Outcome State Fault Refusal
  | .next s => .next (respond s .done)
  | .fault f => .fault f
  | .refused z => .refused z

/-- An instruction word issued to the machine: the instruction it decodes to runs; a word that is no `TLBI` is refused (30_encoding.md R49, U10). -/
def runWord (w : IWord) (s : State) : Host.Outcome State Fault Refusal :=
  match decodeWord w with
  | .ok i => reportDone (exec i s)
  | .error e => .refused (.undecoded e)

/-- The four bytes of a fetched instruction word, little-endian (30_encoding.md R47). -/
def fetchedWord (m : Memory) (pa : PAddr) : IWord := BitVec.ofNat 32 (valueLE (readBytes m pa 4))

/-- A fetch of one word in one page, translated with `acc = Fetch` (R26, R108), and its execution; a fault of the
translation is reported and nothing runs. -/
def fetchRun (c : Choice) (va : VAddr) (s : State) : Host.Outcome State Fault Refusal :=
  if groupPremise c s va .fetch s.inputs.el then
    match translate c s va .fetch s.inputs.el with
    | .fault f => .next (reportFault s f)
    | .refused z => .refused z
    | .ok t => runWord (fetchedWord s.mem t.pa) (setTlb s t.tlb)
  else .refused .contiguousGroupBroken

/-- A fetch to be executed; an address that is no multiple of 4 is not given by the source (R26, N24; log 26). -/
def fetchExecute (c : Choice) (va : VAddr) (s : State) : Host.Outcome State Fault Refusal :=
  if va.toNat % 4 = 0 then fetchRun c va s else .refused .fetchMisaligned

/-- One step of the requester, with the free choices of the step. -/
def perform (c : Choice) (a : Action) (s : State) : Host.Outcome State Fault Refusal :=
  match a with
  | .memWrite pa n value => requesterWrite pa n value s
  | .writeSysReg w => .next (respond (writeSysReg s w) .done)
  | .setX t v => .next (respond (writeX s t v) .done)
  | .instr i => reportDone (exec i s)
  | .instrWord w => runWord w s
  | .access kind va n value => access c kind va n value s
  | .fetchExecute va => fetchExecute c va s

/-- With nothing requested the MMU waits; entries may be lost meanwhile (40_tlb_tlbi.md R55). -/
def idleStep (s : State) : State := respond (beginStep s) .idle

/-- The state in which the next request runs: the choice drawn, entries lost, the request taken and its inputs presented. -/
def startRequest (s : State) (inp : Inputs) (rest : List Request) : State := takeRequest (beginStep s) inp rest

/-- The request that issues one instruction word with the inputs as they stand. -/
def wordRequest (s : State) (w : IWord) : Request := ⟨s.inputs, .instrWord w⟩

end Sys2Proof.Machine
end

