-- ==== Sys2Proof/Machine/Step.lean ====
section
/-! DEFINITION. One step of the machine: the next step of the requester (92_eei_decisions.md D1; log 1). -/

namespace Sys2Proof.Machine

/-- The machine takes the request at the head of the queue, or waits. -/
def step (s : State) : Host.Outcome State Fault Refusal :=
  match s.requests with
  | [] => .next (idleStep s)
  | r :: rest => perform (choiceOf s) r.action (startRequest s r.inputs rest)

/-- The state with one instruction, numbered as spec/opcode_table.json numbers it, as the next thing requested (log 2). -/
def State.withFetchWord (s : State) (nbits w : Nat) : State :=
  setRequests s (wordRequest s (wordOfTable nbits w) :: s.requests)

end Sys2Proof.Machine
end

