-- ==== Sys2Proof/Safety.lean ====
section
/-! DEFINITION. What holds of every state of a run that begins in such a state: the canonical form of memory, the form
of TLB entries (10_state.md R21), and the bound on TxSZ that keeps the two regions apart (41_va_regions.md R72). -/

namespace Sys2Proof.Machine

/-- What holds of every entry a fill adds (40_tlb_tlbi.md R54), beyond the form of R21: its size is that of a page, a block or a
contiguous group, its bases are multiples of its size, its level is a table level, and at EL2 and EL3 it lies in 0x0 to
0x0000FFFF_FFFFFFFF (R66). The range of sizes is that of the general walk of R85, from the 4KB page to the 1GB block
of level 1 (GK8, PRESUMED, log 14); R54 itself lists 16, 21 and 29. The TLB after reset may hold others. -/
abbrev FilledWf (e : TlbEntry) : Prop :=
  12 ≤ e.k ∧ e.k ≤ 30 ∧ e.vaBase.toNat % 2 ^ e.k = 0 ∧ e.paBase.toNat % 2 ^ e.k = 0 ∧ e.level ≤ 3 ∧
    (e.regime = .el1and0 ∨ e.vaBase.toNat + 2 ^ e.k ≤ 2 ^ 48)

/-- The TLB is a set of well-formed entries. -/
abbrev TlbWf (tlb : List TlbEntry) : Prop := tlb.Nodup ∧ ∀ e ∈ tlb, EntryWf e

/-- The invariant of a run. -/
abbrev State.Inv (s : State) : Prop := Memory.wf s.mem = true ∧ TlbWf s.tlb ∧ 9 ≤ s.cfg.txszMin

/-- An outcome in which the machine goes on. -/
def isNext : Host.Outcome State Fault Refusal → Bool
  | .next _ => true
  | .fault _ | .refused _ => false

/-- The next state of an outcome, if it has one. -/
def nextState? : Host.Outcome State Fault Refusal → Option State
  | .next s => some s
  | .fault _ | .refused _ => none

/-- The refusal of an outcome, if it is one. -/
def refusal? : Host.Outcome State Fault Refusal → Option Refusal
  | .next _ | .fault _ => none
  | .refused z => some z

end Sys2Proof.Machine
end

