-- ==== Sys2Proof/Certificates/Slice0/Obligations.lean ====
section
/-! DEFINITION. The statements about the machine, for the provers. Each docstring names the rules of spec/ it rests on. -/

open Sys2Proof Sys2Proof.Machine

/-! Encodings. -/

/-- Every row but the source's text form has a word, decoding and encoding are inverse on words, and the bytes of an encoded
instruction, lowest address first, decode to it and leave the bytes after them (30_encoding.md R47, R48; the words are the
spec's general knowledge GK6, log 13). -/
def Obligations.DecodeAndEncodeAgree : Prop :=
  (∀ i : Instr, (∃ name xt, i = .tlbi name xt) ∨ ∃ w, encode i = some w) ∧
  (∀ (i : Instr) (w : IWord), decodeWord w = .ok i ↔ encode i = some w) ∧
  ∀ (i : Instr) (w : IWord) (rest : List Byte), encode i = some w → decode (bytesOfWord w ++ rest) = .ok (i, rest)

/-- The three words R48 writes out decode to the operations it names (the words and the names are the spec's general knowledge
GK6, PRESUMED by the model, log 13). -/
def Obligations.WordsOfTheSpecDecode : Prop :=
  decodeWord 0xD508831F#32 = .ok (.vmalle1is 31) ∧ decodeWord 0xD508871F#32 = .ok (.vmalle1 31) ∧
  decodeWord 0xD5088720#32 = .ok (.vae1 0)

/-- A word that encodes no listed instruction is refused (30_encoding.md R49, U10). -/
def Obligations.UnlistedWordIsRefused : Prop :=
  ∀ (s : State) (inp : Inputs) (w : IWord) (rest : List Request),
    s.requests = ⟨inp, .instrWord w⟩ :: rest → (∀ i, encode i ≠ some w) → ∃ e, step s = .refused (.undecoded e)

/-- The fields of TCR_EL1 and its word determine each other, T0SZ, TG0, T1SZ, TG1 and IPS standing at the positions of
GK1 (10_state.md R19; the positions are the model's PRESUMED layout, log 17). -/
def Obligations.TcrWordAndFieldsAgree : Prop :=
  (∀ t : TcrEl1, TcrEl1.ofWord (TcrEl1.toWord t) = t) ∧ (∀ w : DWord, TcrEl1.toWord (TcrEl1.ofWord w) = w) ∧
  ∀ t : TcrEl1, (TcrEl1.toWord t).extractLsb 5 0 = t.t0sz ∧ (TcrEl1.toWord t).extractLsb 15 14 = t.tg0 ∧
    (TcrEl1.toWord t).extractLsb 21 16 = t.t1sz ∧ (TcrEl1.toWord t).extractLsb 31 30 = t.tg1 ∧
    (TcrEl1.toWord t).extractLsb 34 32 = t.ips

/-! The `TLBI` instruction. -/

/-- `ALLE1`, `ALLE2`, `ALLE3`, with and without `IS`, complete and remove exactly the entries of their
regime (40_tlb_tlbi.md R56, R57; what each operation selects is the spec's general knowledge GK6, log 12). -/
def Obligations.TlbiAllRemovesItsRegime : Prop :=
  ∀ (s : State) (rt : BitVec 5), s.cfg.tlbiTable = .armv8 →
    ((s.cfg.tlbiPrivilege = true → s.inputs.el ≠ .el0) →
      exec (.alle1 rt) s = .next (setTlb s (s.tlb.filter fun e => !decide (e.regime = .el1and0))) ∧
      exec (.alle1is rt) s = .next (setTlb s (s.tlb.filter fun e => !decide (e.regime = .el1and0)))) ∧
    ((s.cfg.tlbiPrivilege = true → s.inputs.el = .el2 ∨ s.inputs.el = .el3) →
      exec (.alle2 rt) s = .next (setTlb s (s.tlb.filter fun e => !decide (e.regime = .el2))) ∧
      exec (.alle2is rt) s = .next (setTlb s (s.tlb.filter fun e => !decide (e.regime = .el2)))) ∧
    ((s.cfg.tlbiPrivilege = true → s.inputs.el = .el3) →
      exec (.alle3 rt) s = .next (setTlb s (s.tlb.filter fun e => !decide (e.regime = .el3))) ∧
      exec (.alle3is rt) s = .next (setTlb s (s.tlb.filter fun e => !decide (e.regime = .el3))))

/-- `VMALLE1` and `VMALLS12E1`, with and without `IS`, complete and remove exactly the EL1 and EL0 entries of the current VMID (R56,
R57; the selection is the spec's general knowledge GK6, log 12). -/
def Obligations.TlbiVmallRemovesTheVmid : Prop :=
  ∀ (s : State) (rt : BitVec 5), s.cfg.tlbiTable = .armv8 → (s.cfg.tlbiPrivilege = true → s.inputs.el ≠ .el0) →
    ∀ i ∈ [Instr.vmalle1 rt, .vmalle1is rt, .vmalls12e1 rt, .vmalls12e1is rt],
      exec i s = .next (setTlb s (s.tlb.filter fun e => !decide (e.regime = .el1and0 ∧ e.vmid = s.inputs.vmid)))

/-- `ASIDE1` and `ASIDE1IS` complete and remove exactly the EL1 and EL0 entries of the current VMID and of the ASID in `Xt[63:48]` (R56,
R57; the selection is the spec's general knowledge GK6, log 12). -/
def Obligations.TlbiAsidRemovesTheAsid : Prop :=
  ∀ (s : State) (rt : BitVec 5), s.cfg.tlbiTable = .armv8 → (s.cfg.tlbiPrivilege = true → s.inputs.el ≠ .el0) →
    ∀ i ∈ [Instr.aside1 rt, .aside1is rt],
      exec i s = .next (setTlb s (s.tlb.filter fun e =>
        !decide (e.regime = .el1and0 ∧ e.vmid = s.inputs.vmid ∧ e.asid = (readX s rt).extractLsb 63 48)))

/-- `VAE1` and `VALE1`, with and without `IS`, complete and remove exactly the EL1 and EL0 entries of the current VMID and
of the ASID in `Xt[63:48]` that hold the whole 4KB page whose address bits [55:12] are `Xt[43:0]` (R56,
R57; the selection is the spec's general knowledge GK6, log 12). -/
def Obligations.TlbiVaRemovesThePageOfTheAsid : Prop :=
  ∀ (s : State) (rt : BitVec 5), s.cfg.tlbiTable = .armv8 → (s.cfg.tlbiPrivilege = true → s.inputs.el ≠ .el0) →
    ∀ i ∈ [Instr.vae1 rt, .vae1is rt, .vale1 rt, .vale1is rt],
      exec i s = .next (setTlb s (s.tlb.filter fun e =>
        !decide (e.regime = .el1and0 ∧ e.vmid = s.inputs.vmid ∧ e.asid = (readX s rt).extractLsb 63 48 ∧
          e.vaBase.toNat ≤ (BitVec.signExtend 64 ((readX s rt).extractLsb 43 0 ++ 0#12)).toNat ∧
          (BitVec.signExtend 64 ((readX s rt).extractLsb 43 0 ++ 0#12)).toNat + 4096 ≤ e.vaBase.toNat + 2 ^ e.k)))

/-- `VAAE1` and `VAALE1`, with and without `IS`, complete and remove exactly the EL1 and EL0 entries of the current VMID
that hold the whole 4KB page, of whatever ASID (R56,
R57; the selection is the spec's general knowledge GK6, log 12). -/
def Obligations.TlbiVaaRemovesThePageOfEveryAsid : Prop :=
  ∀ (s : State) (rt : BitVec 5), s.cfg.tlbiTable = .armv8 → (s.cfg.tlbiPrivilege = true → s.inputs.el ≠ .el0) →
    ∀ i ∈ [Instr.vaae1 rt, .vaae1is rt, .vaale1 rt, .vaale1is rt],
      exec i s = .next (setTlb s (s.tlb.filter fun e =>
        !decide (e.regime = .el1and0 ∧ e.vmid = s.inputs.vmid ∧
          e.vaBase.toNat ≤ (BitVec.signExtend 64 ((readX s rt).extractLsb 43 0 ++ 0#12)).toNat ∧
          (BitVec.signExtend 64 ((readX s rt).extractLsb 43 0 ++ 0#12)).toNat + 4096 ≤ e.vaBase.toNat + 2 ^ e.k)))

/-- `VAE2`, `VALE2`, `VAE3`, `VALE3`, with and without `IS`, complete and remove exactly the entries of their regime that hold the whole 4KB page (R56,
R57; the selection is the spec's general knowledge GK6, log 12). -/
def Obligations.TlbiVaOfEl2AndEl3RemovesThePage : Prop :=
  ∀ (s : State) (rt : BitVec 5), s.cfg.tlbiTable = .armv8 →
    ((s.cfg.tlbiPrivilege = true → s.inputs.el = .el2 ∨ s.inputs.el = .el3) →
      ∀ i ∈ [Instr.vae2 rt, .vae2is rt, .vale2 rt, .vale2is rt],
        exec i s = .next (setTlb s (s.tlb.filter fun e =>
          !decide (e.regime = .el2 ∧
            e.vaBase.toNat ≤ (BitVec.signExtend 64 ((readX s rt).extractLsb 43 0 ++ 0#12)).toNat ∧
            (BitVec.signExtend 64 ((readX s rt).extractLsb 43 0 ++ 0#12)).toNat + 4096 ≤ e.vaBase.toNat + 2 ^ e.k)))) ∧
    ((s.cfg.tlbiPrivilege = true → s.inputs.el = .el3) →
      ∀ i ∈ [Instr.vae3 rt, .vae3is rt, .vale3 rt, .vale3is rt],
        exec i s = .next (setTlb s (s.tlb.filter fun e =>
          !decide (e.regime = .el3 ∧
            e.vaBase.toNat ≤ (BitVec.signExtend 64 ((readX s rt).extractLsb 43 0 ++ 0#12)).toNat ∧
            (BitVec.signExtend 64 ((readX s rt).extractLsb 43 0 ++ 0#12)).toNat + 4096 ≤ e.vaBase.toNat + 2 ^ e.k))))

/-- `IPAS2E1` and `IPAS2LE1`, with and without `IS`, complete and change nothing: they are about stage 2 only
(R57; general knowledge GK6, log 12). -/
def Obligations.TlbiIpas2ChangesNothing : Prop :=
  ∀ (s : State) (rt : BitVec 5), s.cfg.tlbiTable = .armv8 → (s.cfg.tlbiPrivilege = true → s.inputs.el ≠ .el0) →
    ∀ i ∈ [Instr.ipas2e1 rt, .ipas2e1is rt, .ipas2le1 rt, .ipas2le1is rt], exec i s = .next s

/-- The text form completes for every configured name, whatever table of selections is in force: it removes exactly what
that table selects for the operation, with the value of `<Xt>` as the argument of an operation that takes one where `<Xt>`
is present, and no argument otherwise; a name of no configured operation is refused (R46, R49, R56). -/
def Obligations.TextFormRunsTheNamedOperation : Prop :=
  (∀ (s : State) (op : TlbiOp) (xt : Option (BitVec 5)), tlbiAllowed s op.kind = true →
    exec (.tlbi (opName op) xt) s =
      .next (setTlb s (s.tlb.filter fun e =>
        !tlbiSelects s.cfg op (if takesXt op.kind then xt.map (readX s) else none) s.inputs.asid s.inputs.vmid e))) ∧
  ∀ (s : State) (name : String) (xt : Option (BitVec 5)), (∀ op, opName op ≠ name) →
    exec (.tlbi name xt) s = .refused .tlbiNameNotConfigured

/-- Every binary row does what the text form of its operation does (30_encoding.md R48; each row's name as R48 spells it),
and with one processor an operation with `IS` does what the one without it does, whatever table of selections is in force
(60_exceptions.md R97, D25). -/
def Obligations.BinaryRowsActAsTheirNames : Prop :=
  (∀ (s : State) (rt : BitVec 5),
    ∀ p ∈ [(Instr.vmalle1is rt, "VMALLE1IS"), (.vmalle1 rt, "VMALLE1"), (.vae1is rt, "VAE1IS"), (.vae1 rt, "VAE1"),
        (.aside1is rt, "ASIDE1IS"), (.aside1 rt, "ASIDE1"), (.vaae1is rt, "VAAE1IS"), (.vaae1 rt, "VAAE1"),
        (.vale1is rt, "VALE1IS"), (.vale1 rt, "VALE1"), (.vaale1is rt, "VAALE1IS"), (.vaale1 rt, "VAALE1"),
        (.ipas2e1is rt, "IPAS2E1IS"), (.ipas2e1 rt, "IPAS2E1"), (.ipas2le1is rt, "IPAS2LE1IS"), (.ipas2le1 rt, "IPAS2LE1")] ++
       [(Instr.alle2is rt, "ALLE2IS"), (.alle2 rt, "ALLE2"), (.vae2is rt, "VAE2IS"), (.vae2 rt, "VAE2"),
        (.alle1is rt, "ALLE1IS"), (.alle1 rt, "ALLE1"), (.vale2is rt, "VALE2IS"), (.vale2 rt, "VALE2"),
        (.vmalls12e1is rt, "VMALLS12E1IS"), (.vmalls12e1 rt, "VMALLS12E1"), (.alle3is rt, "ALLE3IS"), (.alle3 rt, "ALLE3"),
        (.vae3is rt, "VAE3IS"), (.vae3 rt, "VAE3"), (.vale3is rt, "VALE3IS"), (.vale3 rt, "VALE3")],
      exec p.1 s = exec (.tlbi p.2 (some rt)) s) ∧
  ∀ (s : State) (kind : TlbiKind) (xt : Option (BitVec 5)),
    exec (.tlbi (opName ⟨kind, true⟩) xt) s = exec (.tlbi (opName ⟨kind, false⟩) xt) s

/-- The frame of every instruction, whatever table of selections is in force (R56: only the TLB changes): after it every
system register, general register, input, parameter and byte of memory is as before, the queue, the report and the
choices are as before, and the TLB is what it was less some entries. -/
def Obligations.TlbiChangesOnlyTheTlb : Prop :=
  ∀ (i : Instr) (s t : State), exec i s = .next t →
    t.tlb.Sublist s.tlb ∧
    t.ttbr0El1 = s.ttbr0El1 ∧ t.ttbr1El1 = s.ttbr1El1 ∧ t.ttbr0El2 = s.ttbr0El2 ∧ t.ttbr0El3 = s.ttbr0El3 ∧
    t.tcrEl1 = s.tcrEl1 ∧ (∀ r, readX t r = readX s r) ∧ t.inputs = s.inputs ∧ t.cfg = s.cfg ∧
    (∀ a, Memory.read t.mem a = Memory.read s.mem a) ∧
    t.requests = s.requests ∧ t.response = s.response ∧ t.choices = s.choices ∧ t.tick = s.tick

/-- Executing the same instruction a second time changes nothing more (R56 corner (a)). -/
def Obligations.TlbiTwiceIsTlbiOnce : Prop :=
  ∀ (i : Instr) (s t : State), exec i s = .next t → exec i t = .next t

/-- Where the privilege check of GK6 is on (the model's option, log 16), an operation of `E1` is refused at EL0, one of
`E2` at EL0 and EL1, one of `E3` below EL3: under every name form, and in every binary row. -/
def Obligations.TlbiBelowItsLevelIsRefused : Prop :=
  ∀ s : State, s.cfg.tlbiPrivilege = true →
    (∀ (op : TlbiOp) (xt : Option (BitVec 5)),
      (s.inputs.el = .el0 ∨ (opLevel op.kind = .el2 ∧ s.inputs.el = .el1) ∨ (opLevel op.kind = .el3 ∧ s.inputs.el ≠ .el3)) →
      exec (.tlbi (opName op) xt) s = .refused .tlbiUndefinedAtLevel) ∧
    ∀ rt : BitVec 5,
      (s.inputs.el = .el0 →
        ∀ i ∈ [Instr.vmalle1 rt, .vmalle1is rt, .vae1 rt, .vae1is rt, .aside1 rt, .aside1is rt, .vaae1 rt, .vaae1is rt,
            .vale1 rt, .vale1is rt] ++
          [.vaale1 rt, .vaale1is rt, .ipas2e1 rt, .ipas2e1is rt, .ipas2le1 rt, .ipas2le1is rt, .alle1 rt, .alle1is rt,
            .vmalls12e1 rt, .vmalls12e1is rt],
          exec i s = .refused .tlbiUndefinedAtLevel) ∧
      (s.inputs.el = .el0 ∨ s.inputs.el = .el1 →
        ∀ i ∈ [Instr.alle2 rt, .alle2is rt, .vae2 rt, .vae2is rt, .vale2 rt, .vale2is rt],
          exec i s = .refused .tlbiUndefinedAtLevel) ∧
      (s.inputs.el ≠ .el3 →
        ∀ i ∈ [Instr.alle3 rt, .alle3is rt, .vae3 rt, .vae3is rt, .vale3 rt, .vale3is rt],
          exec i s = .refused .tlbiUndefinedAtLevel)

/-- After `VMALLE1` every access at EL0 or EL1 with the same inputs misses: whatever the free choices, its translation is
the walk's (40_tlb_tlbi.md R53, R56; 20_memory.md R40; selection by GK6, log 12). -/
def Obligations.AfterVmalle1EveryAccessWalks : Prop :=
  ∀ (s t : State) (rt : BitVec 5) (c : Choice) (va : VAddr) (acc : AccessKind) (el : EL) (r : Region),
    s.cfg.tlbiTable = .armv8 → (el = .el0 ∨ el = .el1) → exec (.vmalle1 rt) s = .next t →
    selectRegion t va acc el = .ok r → Machine.translate c t va acc el = missResult c t r va acc el

/-- After `VAE1` with the current ASID and the page of an address in `Xt`, where the TLB holds no entry smaller than a 4KB page,
an access at EL0 or EL1 whose effective address lies in that page misses (70_reset_and_hazards.md R103; selection by GK6, log 12). -/
def Obligations.AfterVae1ThePageWalks : Prop :=
  ∀ (s t : State) (rt : BitVec 5) (c : Choice) (va : VAddr) (acc : AccessKind) (el : EL) (r : Region),
    s.cfg.tlbiTable = .armv8 → s.Inv → (∀ e ∈ s.tlb, 12 ≤ e.k) → (el = .el0 ∨ el = .el1) → exec (.vae1 rt) s = .next t →
    selectRegion t va acc el = .ok r → (readX s rt).extractLsb 63 48 = s.inputs.asid →
    clearLow 12 r.ea = BitVec.signExtend 64 ((readX s rt).extractLsb 43 0 ++ 0#12) →
    Machine.translate c t va acc el = missResult c t r va acc el

/-! The step. -/

/-- A step runs the requested instruction: when the request at the head of the queue is a word that decodes to an
instruction, or the instruction itself as a term (the only way the source's text form is issued, D30), the step is `exec`
of it, in the state where the step's choice is drawn, the TLB has lost what it loses, the request has left the queue and
its inputs are presented, and a next state reports that it is done (92_eei_decisions.md D1; the queue is the model's, log 1). -/
def Obligations.StepRunsTheDecodedInstruction : Prop :=
  ∀ (s : State) (inp : Inputs) (a : Action) (rest : List Request) (i : Instr),
    s.requests = ⟨inp, a⟩ :: rest → (a = .instr i ∨ ∃ w, a = .instrWord w ∧ decodeWord w = .ok i) →
    (∀ t, exec i (startRequest s inp rest) = .next t → step s = .next (respond t .done)) ∧
    (∀ z, exec i (startRequest s inp rest) = .refused z → step s = .refused z)

/-- What a step does before its request runs: the queue loses its head, the inputs are the request's, one choice is drawn,
the TLB may lose entries (40_tlb_tlbi.md R55; that it happens here is the model's choice, log 35), and everything else is as before. -/
def Obligations.StartOfARequestKeepsTheRest : Prop :=
  ∀ (s : State) (inp : Inputs) (rest : List Request),
    (startRequest s inp rest).tlb.Sublist s.tlb ∧
    startRequest s inp rest =
      { s with tlb := (startRequest s inp rest).tlb, requests := rest, inputs := inp, choices := s.choices.tail, tick := s.tick + 1 }

/-- An instruction numbered as the opcode table numbers it and placed as the next request is what the next step runs (the
placing is the model's, log 2). -/
def Obligations.PlacedInstructionRunsNext : Prop :=
  ∀ (s : State) (nbits w : Nat) (i : Instr), decodeTableWord nbits w = some i →
    ∀ t, exec i (startRequest (s.withFetchWord nbits w) s.inputs s.requests) = .next t →
      step (s.withFetchWord nbits w) = .next (respond t .done)

/-- An instruction in memory runs through the MMU: the fetch at a multiple of 4 is translated with kind Fetch; where it
faults the fault is reported and nothing runs, where it is refused the step is, and where it succeeds the word at the
physical address is what runs, with the TLB the translation leaves, or is refused if it decodes to no instruction; a fetch
at any other address is refused (10_state.md R26, 20_memory.md R39, 42_translation_walk.md R108). Running what was fetched,
and the refusal of a misaligned fetch, are the model's composition (log 26); that the word is little-endian whatever
`DESC_BIG_ENDIAN` says is R47's general knowledge (GK6; DEDUCED, log 27). -/
def Obligations.FetchedInstructionRuns : Prop :=
  ∀ (s : State) (inp : Inputs) (va : VAddr) (rest : List Request) (u : State),
    s.requests = ⟨inp, .fetchExecute va⟩ :: rest → u = startRequest s inp rest →
    (va.toNat % 4 ≠ 0 → step s = .refused .fetchMisaligned) ∧
    (va.toNat % 4 = 0 →
      (∀ r, selectRegion u va .fetch inp.el = .ok r → missWalk (choiceOf s) u r va .fetch inp.el ≠ .refused .contiguousGroupBroken) →
      (∀ f, Machine.translate (choiceOf s) u va .fetch inp.el = .fault f → step s = .next (reportFault u f)) ∧
      (∀ z, Machine.translate (choiceOf s) u va .fetch inp.el = .refused z → step s = .refused z) ∧
      ∀ tr w, Machine.translate (choiceOf s) u va .fetch inp.el = .ok tr →
        w = BitVec.ofNat 32 (valueLE (readBytes s.mem tr.pa 4)) →
        (∀ e, decodeWord w = .error e → step s = .refused (.undecoded e)) ∧
        ∀ i t, decodeWord w = .ok i → exec i (setTlb u tr.tlb) = .next t → step s = .next (respond t .done))

/-- No step stops with a fault: a fault of the MMU is a reported value (60_exceptions.md R93, D17). -/
def Obligations.NoStepStopsWithAFault : Prop := ∀ (s : State) (f : Fault), step s ≠ .fault f

/-- A step that reports a fault of a translation changes nothing else: no register, no byte of memory, and the TLB gains no entry (60_exceptions.md R98). -/
def Obligations.FaultChangesNothing : Prop :=
  ∀ (s t : State) (f : Fault), step s = .next t → t.response = .fault f →
    t.ttbr0El1 = s.ttbr0El1 ∧ t.ttbr1El1 = s.ttbr1El1 ∧ t.ttbr0El2 = s.ttbr0El2 ∧ t.ttbr0El3 = s.ttbr0El3 ∧
    t.tcrEl1 = s.tcrEl1 ∧ (∀ r, readX t r = readX s r) ∧ t.cfg = s.cfg ∧
    (∀ a, Memory.read t.mem a = Memory.read s.mem a) ∧ t.tlb.Sublist s.tlb

/-- The configuration is not state a step changes (10_state.md R27). -/
def Obligations.StepKeepsTheConfiguration : Prop := ∀ s t : State, step s = .next t → t.cfg = s.cfg

/-- Only a `WriteSysReg` step changes a system register (42_translation_walk.md R110, 10_state.md R29). -/
def Obligations.OnlyWriteSysRegChangesSystemRegisters : Prop :=
  ∀ s t : State, step s = .next t → (∀ inp w rest, s.requests ≠ ⟨inp, .writeSysReg w⟩ :: rest) →
    t.ttbr0El1 = s.ttbr0El1 ∧ t.ttbr1El1 = s.ttbr1El1 ∧ t.ttbr0El2 = s.ttbr0El2 ∧ t.ttbr0El3 = s.ttbr0El3 ∧
    t.tcrEl1 = s.tcrEl1

/-- The MMU never writes memory: only a `MemWrite` step and a write access of the requester change a byte (20_memory.md R35, 42_translation_walk.md R109). -/
def Obligations.OnlyTheRequesterWritesMemory : Prop :=
  ∀ s t : State, step s = .next t → (∀ inp pa n v rest, s.requests ≠ ⟨inp, .memWrite pa n v⟩ :: rest) →
    (∀ inp va n v rest, s.requests ≠ ⟨inp, .access .write va n v⟩ :: rest) → t.mem = s.mem

/-- A step adds at most one entry to the TLB (40_tlb_tlbi.md R54; only the final translation is cached, D19, log 30). -/
def Obligations.StepAddsAtMostOneEntry : Prop :=
  ∀ s t : State, step s = .next t → ∃ e : TlbEntry, ∀ x ∈ t.tlb, x ∈ s.tlb ∨ x = e

/-- The invariant holds at reset (the reset values are the model's, logs 5 and 7 to 10; the TLB at reset is a set of entries of
which nothing else is known, log 6). -/
def Obligations.ResetMeetsTheInvariant : Prop := State.reset.Inv

/-- Every step keeps the invariant: memory in its canonical form below 2^48, the TLB a set of entries of the form R21
gives, and the bound of R72 on TxSZ. And every entry a step adds to the TLB is of a page, a block or a contiguous group:
12 to 30 bits of size, both bases multiples of it, of a table level, and at EL2 and EL3 in the range of R66. The source's own
walk fills 16, 21 and 29 bits alone (40_tlb_tlbi.md R54); the ends of the range, the 4KB page and the 1GB block of level 1, and
every fill at EL2 and EL3 come from the general walk of 42_translation_walk.md R85 (GK8, PRESUMED, log 14), not from R54. -/
def Obligations.StepKeepsTheInvariant : Prop :=
  ∀ s t : State, step s = .next t → (s.Inv → t.Inv) ∧ ∀ e ∈ t.tlb, e ∈ s.tlb ∨ FilledWf e

/-- With nothing requested the machine waits: it reports nothing, draws a choice, and may lose entries (R55; the waiting step is the model's, log 1). -/
def Obligations.EmptyQueueWaits : Prop :=
  ∀ s : State, s.requests = [] → ∃ t, step s = .next t ∧ t.tlb.Sublist s.tlb ∧
    t = { s with tlb := t.tlb, response := .idle, choices := s.choices.tail, tick := s.tick + 1 }

/-- Any subset of the TLB may be lost at a step, whatever else is free there (40_tlb_tlbi.md R55): for every sublist of the
TLB some choice of what is lost, scripted as the step's choice, makes a waiting step leave exactly that TLB, and makes a
step with a request perform it in a state with exactly that TLB. -/
def Obligations.EverySubsetMayBeLost : Prop :=
  ∀ (s : State) (l : List TlbEntry) (c : Choice), l.Sublist s.tlb →
    ∃ (n : Nat) (u : State), u = { s with choices := { c with lost := n } :: s.choices } ∧
      (s.requests = [] → ∃ t, step u = .next t ∧ t.tlb = l) ∧
      ∀ (inp : Inputs) (a : Action) (rest : List Request), s.requests = ⟨inp, a⟩ :: rest →
        step u = perform { c with lost := n } a (startRequest u inp rest) ∧ (startRequest u inp rest).tlb = l

/-- `WriteSysReg` gives the named register the value and changes nothing else (R29, R110). That no level is checked is read
from D1 (log 39); the write of TCR_EL1 as one word rests on the PRESUMED positions of GK1 (log 17), and the spec gives the
write by fields only. -/
def Obligations.WriteSysRegWritesTheNamedRegister : Prop :=
  ∀ (s : State) (inp : Inputs) (w : SysRegWrite) (rest : List Request),
    s.requests = ⟨inp, .writeSysReg w⟩ :: rest →
    step s = .next (respond
      (match w with
       | .ttbr0El1 v => { startRequest s inp rest with ttbr0El1 := v }
       | .ttbr1El1 v => { startRequest s inp rest with ttbr1El1 := v }
       | .ttbr0El2 v => { startRequest s inp rest with ttbr0El2 := v }
       | .ttbr0El3 v => { startRequest s inp rest with ttbr0El3 := v }
       | .tcrEl1 t => { startRequest s inp rest with tcrEl1 := t }
       | .tcrEl1Word v => { startRequest s inp rest with tcrEl1 := TcrEl1.ofWord v }) .done)

/-- The requester's register `Xt`: a step that gives it a value makes it read as that value and leaves the others;
register 31 reads as zero and discards the value (10_state.md R25, GK10; log 8). -/
def Obligations.SettingXt : Prop :=
  ∀ (s : State) (inp : Inputs) (t : BitVec 5) (v : DWord) (rest : List Request),
    s.requests = ⟨inp, .setX t v⟩ :: rest →
    ∃ u, step s = .next u ∧ (∀ r, readX u r = if r = 31 then 0 else if r = t then v else readX s r) ∧
      u = { startRequest s inp rest with x := u.x, response := .done }

/-! Regions. -/

/-- The lower region (41_va_regions.md R61, R62, R64, R69, R72): an address whose bits from 64 - T0SZ up to 63, or to 55 where
tagging is on, are all 0 is translated through TTBR0_EL1 with the granule of TG0, its tag byte replaced by zeros. -/
def Obligations.LowerRegionUsesTtbr0 : Prop :=
  ∀ (s : State) (va : VAddr) (acc : AccessKind) (el : EL) (g : Granule), (el = .el0 ∨ el = .el1) → 9 ≤ s.cfg.txszMin →
    s.cfg.txszMin ≤ s.tcrEl1.t0sz.toNat → s.tcrEl1.t0sz.toNat ≤ s.cfg.txszMax →
    s.cfg.txszMin ≤ s.tcrEl1.t1sz.toNat → s.tcrEl1.t1sz.toNat ≤ s.cfg.txszMax →
    (∀ i, 64 - s.tcrEl1.t0sz.toNat ≤ i → i ≤ (if s.cfg.tag0 then 55 else 63) → va.getLsbD i = false) →
    s.cfg.granuleOfTG0.get s.tcrEl1.tg0.toFin = some g →
    selectRegion s va acc el =
      .ok ⟨s.ttbr0El1, s.tcrEl1.t0sz.toNat, g, .el1and0, if s.cfg.tag0 then 0#8 ++ va.extractLsb 55 0 else va⟩

/-- The upper region (R61, R62, R64, R69, R72): an address whose bits from 64 - T1SZ up to 63, or to 55 where tagging is on,
are all 1 is translated through TTBR1_EL1 with the granule of TG1, its tag byte replaced by ones. -/
def Obligations.UpperRegionUsesTtbr1 : Prop :=
  ∀ (s : State) (va : VAddr) (acc : AccessKind) (el : EL) (g : Granule), (el = .el0 ∨ el = .el1) → 9 ≤ s.cfg.txszMin →
    s.cfg.txszMin ≤ s.tcrEl1.t0sz.toNat → s.tcrEl1.t0sz.toNat ≤ s.cfg.txszMax →
    s.cfg.txszMin ≤ s.tcrEl1.t1sz.toNat → s.tcrEl1.t1sz.toNat ≤ s.cfg.txszMax →
    (∀ i, 64 - s.tcrEl1.t1sz.toNat ≤ i → i ≤ (if s.cfg.tag1 then 55 else 63) → va.getLsbD i = true) →
    s.cfg.granuleOfTG1.get s.tcrEl1.tg1.toFin = some g →
    selectRegion s va acc el =
      .ok ⟨s.ttbr1El1, s.tcrEl1.t1sz.toNat, g, .el1and0, if s.cfg.tag1 then 0xFF#8 ++ va.extractLsb 55 0 else va⟩

/-- `VARange` (60_exceptions.md R87): at EL0 and EL1 an address in neither region, one that has a 1 among the bits the lower
region needs 0 and a 0 among those the upper region needs 1, and at EL2 and EL3 an address above the single region, faults,
whatever the access kind and whatever memory, the TLB and the free choices hold, where TxSZ and, at EL0 and EL1, the IPS
value are listed. The premise on IPS is the model's reading, not R87's words: 30_encoding.md R49 refuses every translation at
EL0 and EL1 otherwise, which the model follows before R87 (DEDUCED, log 23). -/
def Obligations.AddressInNoRegionFaults : Prop :=
  ∀ (s : State) (c : Choice) (va : VAddr) (acc : AccessKind),
    (∀ el, (el = .el0 ∨ el = .el1) → s.cfg.outBitsOfIPS.get s.tcrEl1.ips.toFin ≠ none →
      s.cfg.txszMin ≤ s.tcrEl1.t0sz.toNat → s.tcrEl1.t0sz.toNat ≤ s.cfg.txszMax →
      s.cfg.txszMin ≤ s.tcrEl1.t1sz.toNat → s.tcrEl1.t1sz.toNat ≤ s.cfg.txszMax →
      (∃ i, 64 - s.tcrEl1.t0sz.toNat ≤ i ∧ i ≤ (if s.cfg.tag0 then 55 else 63) ∧ va.getLsbD i = true) →
      (∃ i, 64 - s.tcrEl1.t1sz.toNat ≤ i ∧ i ≤ (if s.cfg.tag1 then 55 else 63) ∧ va.getLsbD i = false) →
      Machine.translate c s va acc el = .fault (.vaRange va acc)) ∧
    ((∃ i, 48 ≤ i ∧ i ≤ (if s.cfg.tagEl2 then 55 else 63) ∧ va.getLsbD i = true) →
      Machine.translate c s va acc .el2 = .fault (.vaRange va acc)) ∧
    ((∃ i, 48 ≤ i ∧ i ≤ (if s.cfg.tagEl3 then 55 else 63) ∧ va.getLsbD i = true) →
      Machine.translate c s va acc .el3 = .fault (.vaRange va acc))

/-- EL2 and EL3 (41_va_regions.md R66): an address whose bits from 48 up to 63, or to 55 where tagging is on, are all 0 is
translated through the level's own TTBR0, with a size field of 16 and the granule the configuration gives it. -/
def Obligations.El2AndEl3UseOneRegion : Prop :=
  ∀ (s : State) (va : VAddr) (acc : AccessKind),
    ((∀ i, 48 ≤ i → i ≤ (if s.cfg.tagEl2 then 55 else 63) → va.getLsbD i = false) →
      selectRegion s va acc .el2 =
        .ok ⟨s.ttbr0El2, 16, s.cfg.el2Granule, .el2, if s.cfg.tagEl2 then 0#8 ++ va.extractLsb 55 0 else va⟩) ∧
    ((∀ i, 48 ≤ i → i ≤ (if s.cfg.tagEl3 then 55 else 63) → va.getLsbD i = false) →
      selectRegion s va acc .el3 =
        .ok ⟨s.ttbr0El3, 16, s.cfg.el3Granule, .el3, if s.cfg.tagEl3 then 0#8 ++ va.extractLsb 55 0 else va⟩)

/-- Two addresses that differ in the top byte only translate alike (R64, 42_translation_walk.md R80 corner (g)) wherever
tagging is on for the region they lie in: for both regions; for one of them, bit 55 then saying which (with the bound of
R72 on TxSZ); at EL2 or EL3 for the level's own. The region, the address, the attributes and the TLB are the same, a fault
has the same kind and level with each access's own address, and a refusal is the same. -/
def Obligations.TagByteIsIgnored : Prop :=
  ∀ (s : State) (c : Choice) (va va' : VAddr) (acc : AccessKind) (el : EL),
    va.extractLsb 55 0 = va'.extractLsb 55 0 →
    (match el with
      | .el2 => s.cfg.tagEl2 = true
      | .el3 => s.cfg.tagEl3 = true
      | .el0 | .el1 =>
        s.cfg.tag0 = true ∧ s.cfg.tag1 = true ∨
        9 ≤ s.cfg.txszMin ∧ (s.cfg.tag0 = true ∧ va.getLsbD 55 = false ∨ s.cfg.tag1 = true ∧ va.getLsbD 55 = true)) →
    (∀ r, selectRegion s va acc el = .ok r → selectRegion s va' acc el = .ok r) ∧
    (∀ t, Machine.translate c s va acc el = .ok t → Machine.translate c s va' acc el = .ok t) ∧
    (∀ z, Machine.translate c s va acc el = .refused z → Machine.translate c s va' acc el = .refused z) ∧
    (∀ f, Machine.translate c s va acc el = .fault f →
      (f = .vaRange va acc ∧ Machine.translate c s va' acc el = .fault (.vaRange va' acc)) ∨
      (∃ l, f = .translation l va acc ∧ Machine.translate c s va' acc el = .fault (.translation l va' acc)) ∨
      (∃ l, f = .permission l va acc ∧ Machine.translate c s va' acc el = .fault (.permission l va' acc)) ∨
      (∃ l, f = .addressSize l va acc ∧ Machine.translate c s va' acc el = .fault (.addressSize l va' acc)))

/-- With the bound the spec asks for, no address lies in both regions (41_va_regions.md R72 corner (a), D22). -/
def Obligations.RegionsNeverOverlap : Prop :=
  ∀ (s : State) (va : VAddr) (acc : AccessKind) (el : EL), 9 ≤ s.cfg.txszMin →
    selectRegion s va acc el ≠ .refused .regionsOverlap

/-- The unlisted values of 30_encoding.md R49 are refused: at EL0 and EL1 an IPS value not listed refuses every translation,
whatever its address, on a hit as on a walk (read by its words where R80 and R63 do not look at IPS, log 23); with a listed
one, a TxSZ out of bounds, then a granule value not listed for the region the address lies in; and at every level a
translation in a region without a walk, on a hit too: one that is not the source's (64KB, 42 bits) where the marked
extension of R85 is not admitted (D26), and where it is, one whose first level is not 0 to 3 (the model's choice, log 15). -/
def Obligations.UnlistedFieldsAreRefused : Prop :=
  (∀ (s : State) (c : Choice) (va : VAddr) (acc : AccessKind) (el : EL), (el = .el0 ∨ el = .el1) →
    s.cfg.outBitsOfIPS.get s.tcrEl1.ips.toFin = none → Machine.translate c s va acc el = .refused .ipsNotListed) ∧
  (∀ (s : State) (c : Choice) (va : VAddr) (acc : AccessKind) (el : EL), (el = .el0 ∨ el = .el1) →
    s.cfg.outBitsOfIPS.get s.tcrEl1.ips.toFin ≠ none →
    (s.tcrEl1.t0sz.toNat < s.cfg.txszMin ∨ s.cfg.txszMax < s.tcrEl1.t0sz.toNat ∨
      s.tcrEl1.t1sz.toNat < s.cfg.txszMin ∨ s.cfg.txszMax < s.tcrEl1.t1sz.toNat) →
    Machine.translate c s va acc el = .refused .txszOutOfBounds) ∧
  (∀ (s : State) (c : Choice) (va : VAddr) (acc : AccessKind) (el : EL), (el = .el0 ∨ el = .el1) →
    s.cfg.outBitsOfIPS.get s.tcrEl1.ips.toFin ≠ none →
    txszLegal s.cfg s.tcrEl1.t0sz.toNat = true → txszLegal s.cfg s.tcrEl1.t1sz.toNat = true →
    (inLower s.cfg.tag0 s.tcrEl1.t0sz.toNat va = true ∧ inUpper s.cfg.tag1 s.tcrEl1.t1sz.toNat va = false ∧
        s.cfg.granuleOfTG0.get s.tcrEl1.tg0.toFin = none ∨
      inLower s.cfg.tag0 s.tcrEl1.t0sz.toNat va = false ∧ inUpper s.cfg.tag1 s.tcrEl1.t1sz.toNat va = true ∧
        s.cfg.granuleOfTG1.get s.tcrEl1.tg1.toFin = none) →
    Machine.translate c s va acc el = .refused .granuleNotListed) ∧
  (∀ (s : State) (c : Choice) (va : VAddr) (acc : AccessKind) (el : EL) (r : Region),
    (el = .el0 ∨ el = .el1 → s.cfg.outBitsOfIPS.get s.tcrEl1.ips.toFin ≠ none) → selectRegion s va acc el = .ok r →
    ¬ (r.granule = .kb64 ∧ r.n = 22) →
    (s.cfg.generalWalk = false ∨ tableCount r.granule r.n = 0 ∨ 4 < tableCount r.granule r.n) →
    Machine.translate c s va acc el = .refused .walkNotGiven)

/-! The walk. -/

/-- One lookup: a level 2 block ends the walk with PA[47:29] from the entry and PA[28:0] from the address (42_translation_walk.md
R76, R78, R82, R84; the attribute list is the model's, log 19). -/
def Obligations.BlockEndsTheWalkAtLevelTwo : Prop :=
  ∀ (cfg : Config) (m : Memory) (ttbr : DWord) (q : WalkFor) (a2 : PAddr) (d2 : DWord),
    a2 = (ttbr.extractLsb 47 16 ++ q.ea.extractLsb 41 29 ++ 0#3 : BitVec 48) → d2 = memRead64 cfg m a2 →
    inSize q.w (ttbr.extractLsb 47 16 ++ 0#16 : BitVec 48) = true → plain cfg a2 8 = true →
    upperKind cfg 2 d2 = .block → permitsAt cfg 2 false d2 q.acc q.el = true → inSize q.w (d2.extractLsb 47 0) = true →
    ∃ wk, walk64K42 cfg m ttbr q = .ok wk ∧
      wk.pa.extractLsb 47 29 = d2.extractLsb 47 29 ∧ wk.pa.extractLsb 28 0 = q.ea.extractLsb 28 0 ∧
      wk.attrs = [entryAttrs cfg 2 false d2] ∧ wk.level = 2 ∧ wk.k = 29 ∧ wk.wide = none

/-- Two lookups (42_translation_walk.md R81): when the level 3 entry is valid it is a page, and the translation ends with
PA[47:16] from the level 3 entry and PA[15:0] from the address. -/
def Obligations.PageEndsTheWalkAtLevelThree : Prop :=
  ∀ (cfg : Config) (m : Memory) (ttbr : DWord) (q : WalkFor) (a2 a3 : PAddr) (d2 d3 : DWord),
    a2 = (ttbr.extractLsb 47 16 ++ q.ea.extractLsb 41 29 ++ 0#3 : BitVec 48) → d2 = memRead64 cfg m a2 →
    a3 = (d2.extractLsb 47 16 ++ q.ea.extractLsb 28 16 ++ 0#3 : BitVec 48) → d3 = memRead64 cfg m a3 →
    inSize q.w (ttbr.extractLsb 47 16 ++ 0#16 : BitVec 48) = true → plain cfg a2 8 = true → plain cfg a3 8 = true →
    upperKind cfg 2 d2 = .table → permitsAt cfg 2 true d2 q.acc q.el = true → inSize q.w (d2.extractLsb 47 0) = true →
    groupBroken cfg m .kb64 a3 = false →
    lastKind cfg d3 ≠ .invalid → permitsAt cfg 3 false d3 q.acc q.el = true → inSize q.w (d3.extractLsb 47 0) = true →
    ∃ wk, walk64K42 cfg m ttbr q = .ok wk ∧
      wk.pa.extractLsb 47 16 = d3.extractLsb 47 16 ∧ wk.pa.extractLsb 15 0 = q.ea.extractLsb 15 0

/-- What a walk of two lookups returns beside the address (40_tlb_tlbi.md R54, R58; 42_translation_walk.md R80, R82): the
attributes of both entries, level 3, a size of 64KB, and 2MB where the page has the contiguous mark. How the attributes are
kept is the model's (log 19). -/
def Obligations.PageWalkRecordsItsEntries : Prop :=
  ∀ (cfg : Config) (m : Memory) (ttbr : DWord) (q : WalkFor) (a2 a3 : PAddr) (d2 d3 : DWord),
    a2 = (ttbr.extractLsb 47 16 ++ q.ea.extractLsb 41 29 ++ 0#3 : BitVec 48) → d2 = memRead64 cfg m a2 →
    a3 = (d2.extractLsb 47 16 ++ q.ea.extractLsb 28 16 ++ 0#3 : BitVec 48) → d3 = memRead64 cfg m a3 →
    inSize q.w (ttbr.extractLsb 47 16 ++ 0#16 : BitVec 48) = true → plain cfg a2 8 = true → plain cfg a3 8 = true →
    upperKind cfg 2 d2 = .table → permitsAt cfg 2 true d2 q.acc q.el = true → inSize q.w (d2.extractLsb 47 0) = true →
    groupBroken cfg m .kb64 a3 = false →
    lastKind cfg d3 = .page → permitsAt cfg 3 false d3 q.acc q.el = true → inSize q.w (d3.extractLsb 47 0) = true →
    ∀ wk, walk64K42 cfg m ttbr q = .ok wk →
      wk.attrs = [entryAttrs cfg 2 true d2, entryAttrs cfg 3 false d3] ∧ wk.level = 3 ∧ wk.k = 16 ∧
      wk.wide = if isContiguous cfg d3 then some 21 else none

/-- The first fault on the way of a walk is the one reported (60_exceptions.md R88 to R91): AddressSize of the base
register before any read; then at level 2 Translation before Permission and AddressSize; where Permission and AddressSize
both apply, either, as the free choice says (D18). -/
def Obligations.FaultsOfTheFirstLookup : Prop :=
  ∀ (cfg : Config) (m : Memory) (ttbr : DWord) (q : WalkFor) (a2 : PAddr) (d2 : DWord),
    a2 = (ttbr.extractLsb 47 16 ++ q.ea.extractLsb 41 29 ++ 0#3 : BitVec 48) → d2 = memRead64 cfg m a2 →
    (inSize q.w (ttbr.extractLsb 47 16 ++ 0#16 : BitVec 48) = false →
      walk64K42 cfg m ttbr q = .fault (.addressSize none q.va q.acc)) ∧
    (inSize q.w (ttbr.extractLsb 47 16 ++ 0#16 : BitVec 48) = true → plain cfg a2 8 = true →
      (upperKind cfg 2 d2 = .invalid → walk64K42 cfg m ttbr q = .fault (.translation 2 q.va q.acc)) ∧
      ∀ isTable, upperKind cfg 2 d2 = (if isTable then .table else .block) →
        (permitsAt cfg 2 isTable d2 q.acc q.el = false → inSize q.w (d2.extractLsb 47 0) = true →
          walk64K42 cfg m ttbr q = .fault (.permission 2 q.va q.acc)) ∧
        (permitsAt cfg 2 isTable d2 q.acc q.el = true → inSize q.w (d2.extractLsb 47 0) = false →
          walk64K42 cfg m ttbr q = .fault (.addressSize (some 2) q.va q.acc)) ∧
        (permitsAt cfg 2 isTable d2 q.acc q.el = false → inSize q.w (d2.extractLsb 47 0) = false →
          walk64K42 cfg m ttbr q =
            .fault (if q.sizeFirst then .addressSize (some 2) q.va q.acc else .permission 2 q.va q.acc)))

/-- The faults of the second lookup, in the same order (60_exceptions.md R88 to R91; D18). -/
def Obligations.FaultsOfTheSecondLookup : Prop :=
  ∀ (cfg : Config) (m : Memory) (ttbr : DWord) (q : WalkFor) (a2 a3 : PAddr) (d2 d3 : DWord),
    a2 = (ttbr.extractLsb 47 16 ++ q.ea.extractLsb 41 29 ++ 0#3 : BitVec 48) → d2 = memRead64 cfg m a2 →
    a3 = (d2.extractLsb 47 16 ++ q.ea.extractLsb 28 16 ++ 0#3 : BitVec 48) → d3 = memRead64 cfg m a3 →
    inSize q.w (ttbr.extractLsb 47 16 ++ 0#16 : BitVec 48) = true → plain cfg a2 8 = true → plain cfg a3 8 = true →
    upperKind cfg 2 d2 = .table → permitsAt cfg 2 true d2 q.acc q.el = true → inSize q.w (d2.extractLsb 47 0) = true →
    groupBroken cfg m .kb64 a3 = false →
    (lastKind cfg d3 = .invalid → walk64K42 cfg m ttbr q = .fault (.translation 3 q.va q.acc)) ∧
    (lastKind cfg d3 = .page →
      (permitsAt cfg 3 false d3 q.acc q.el = false → inSize q.w (d3.extractLsb 47 0) = true →
        walk64K42 cfg m ttbr q = .fault (.permission 3 q.va q.acc)) ∧
      (permitsAt cfg 3 false d3 q.acc q.el = true → inSize q.w (d3.extractLsb 47 0) = false →
        walk64K42 cfg m ttbr q = .fault (.addressSize (some 3) q.va q.acc)) ∧
      (permitsAt cfg 3 false d3 q.acc q.el = false → inSize q.w (d3.extractLsb 47 0) = false →
        walk64K42 cfg m ttbr q =
          .fault (if q.sizeFirst then .addressSize (some 3) q.va q.acc else .permission 3 q.va q.acc)))

/-- The general geometry of R85 (GK8, PRESUMED, log 14), `g` being 12, 14 or 16 for the 4KB, 16KB or 64KB granule and `below` 3
minus the level. At 64KB and 42 bits it is the walk the source spells out (R80). Where the extension is admitted a miss in
any other region is that walk from the region's own base register, with the output size of TCR_EL1.IPS, or of EL2 or EL3
(D24). The walk starts from `ceil((64 - n - g) / (g - 3))` tables, the first aligned to its size. An entry's address is the
table's base, the bits `ea[g + (4-L)(g-3) - 1 : g + (3-L)(g-3)]` cut off at bit `63 - n`, and three zeros. A page gives PA[47:g],
a block PA[47 : g + (3-L)(g-3)] at levels 1 and 2 for 4KB and level 2 otherwise (at another level it is a Translation fault,
log 37), a table bits [47:g] of the next table. -/
def Obligations.GeneralWalkIsTheSourceWalk : Prop :=
  (∀ (cfg : Config) (m : Memory) (ttbr : DWord) (q : WalkFor), walkGeneral cfg m .kb64 22 ttbr q = walk64K42 cfg m ttbr q) ∧
  (∀ (s : State) (c : Choice) (va : VAddr) (acc : AccessKind) (el : EL) (r : Region) (w : Nat),
    selectRegion s va acc el = .ok r → ¬ (r.granule = .kb64 ∧ r.n = 22) → s.cfg.generalWalk = true →
    (match el with
      | .el0 | .el1 => s.cfg.outBitsOfIPS.get s.tcrEl1.ips.toFin = some w
      | .el2 => s.cfg.el2OutBits = w
      | .el3 => s.cfg.el3OutBits = w) →
    missWalk c s r va acc el = walkGeneral s.cfg s.mem r.granule r.n r.base ⟨va, r.ea, acc, el, w, c.sizeFirst⟩) ∧
  ∀ (granule : Granule) (g n : Nat), g = (match granule with | .kb4 => 12 | .kb16 => 14 | .kb64 => 16) →
    (∀ (cfg : Config) (m : Memory) (ttbr : DWord) (q : WalkFor) (below : Nat) (base : PAddr),
      below * (g - 3) < 64 - n - g → 64 - n - g ≤ (below + 1) * (g - 3) → below ≤ 3 →
      (∀ i, i < 48 →
        base.getLsbD i = (decide (3 + min (g - 3) (64 - n - (g + below * (g - 3))) ≤ i) && ttbr.getLsbD i)) →
      walkGeneral cfg m granule n ttbr q =
        if inSize q.w base then walkTables cfg m granule n q below base [] else .fault (.addressSize none q.va q.acc)) ∧
    (∀ (below : Nat) (base : PAddr) (ea : VAddr) (i : Nat), i < 48 →
      (entryAddr granule n below base ea).getLsbD i =
        if i < 3 then false
        else if i < 3 + min (g - 3) (64 - n - (g + below * (g - 3))) then ea.getLsbD (g + below * (g - 3) + (i - 3))
        else base.getLsbD i) ∧
    ∀ (cfg : Config) (m : Memory) (q : WalkFor) (below : Nat) (base : PAddr) (path : Attrs) (a : PAddr) (d : DWord),
      a = entryAddr granule n below base q.ea → plain cfg a 8 = true → d = memRead64 cfg m a →
      (below = 0 → groupBroken cfg m granule a = false → lastKind cfg d = .page →
        permitsAt cfg 3 false d q.acc q.el = true → inSize q.w (d.extractLsb 47 0) = true →
        ∃ wk, walkTables cfg m granule n q below base path = .ok wk ∧
          (∀ i, i < 48 → wk.pa.getLsbD i = if i < g then q.ea.getLsbD i else d.getLsbD i) ∧
          wk.attrs = path ++ [entryAttrs cfg 3 false d] ∧ wk.level = 3 ∧ wk.k = g) ∧
      (∀ level, level + below = 3 → 1 ≤ below → upperKind cfg level d = .block →
        (level = 2 ∨ granule = .kb4 ∧ level = 1 →
          permitsAt cfg level false d q.acc q.el = true → inSize q.w (d.extractLsb 47 0) = true →
          ∃ wk, walkTables cfg m granule n q below base path = .ok wk ∧
            (∀ i, i < 48 → wk.pa.getLsbD i = if i < g + below * (g - 3) then q.ea.getLsbD i else d.getLsbD i) ∧
            wk.attrs = path ++ [entryAttrs cfg level false d] ∧ wk.level = level ∧ wk.k = g + below * (g - 3) ∧ wk.wide = none) ∧
        (¬ (level = 2 ∨ granule = .kb4 ∧ level = 1) →
          walkTables cfg m granule n q below base path = .fault (.translation level q.va q.acc))) ∧
      ∀ level, level + below = 3 → 1 ≤ below → upperKind cfg level d = .table →
        permitsAt cfg level true d q.acc q.el = true → inSize q.w (d.extractLsb 47 0) = true →
        ∃ next : PAddr, (∀ i, i < 48 → next.getLsbD i = (decide (g ≤ i) && d.getLsbD i)) ∧
          walkTables cfg m granule n q below base path =
            walkTables cfg m granule n q (below - 1) next (path ++ [entryAttrs cfg level true d])

/-! The TLB. -/

/-- A hit (40_tlb_tlbi.md R51, R52): the entry used is in the TLB and matches, which means the same regime, the address in
its range and, at EL0 and EL1, the current ASID and VMID; the translation is `paBase[47:k] : ea[k-1:0]` with the cached
attributes, or a Permission fault of the cached level; the TLB is not written, and no table is read: with any other memory
and any other listed IPS the translation is the same. An IPS that is not listed and a region without a walk refuse a hit
too (R49, log 23). For an entry larger than 2^48 the address is `ea[47:0]`, the model's reading (DEDUCED, log 40). -/
def Obligations.HitUsesTheEntryAlone : Prop :=
  ∀ (s : State) (c : Choice) (va : VAddr) (acc : AccessKind) (el : EL) (r : Region) (e : TlbEntry),
    selectRegion s va acc el = .ok r → usedEntry c s r = some e →
    (r.regime = .el1and0 → s.cfg.outBitsOfIPS.get s.tcrEl1.ips.toFin ≠ none) →
    (r.granule = .kb64 ∧ r.n = 22 ∨
      s.cfg.generalWalk = true ∧ 1 ≤ tableCount r.granule r.n ∧ tableCount r.granule r.n ≤ 4) →
    (e ∈ s.tlb ∧ e.regime = r.regime ∧ e.vaBase.toNat ≤ r.ea.toNat ∧ r.ea.toNat < e.vaBase.toNat + 2 ^ e.k ∧
      (r.regime = .el1and0 → e.asid = s.inputs.asid ∧ e.vmid = s.inputs.vmid)) ∧
    (permits s.cfg e.attrs acc el = true →
      ∃ t, Machine.translate c s va acc el = .ok t ∧ t.attrs = e.attrs ∧ t.tlb = s.tlb ∧
        (∀ i, i < 48 → t.pa.getLsbD i = if i < e.k then r.ea.getLsbD i else e.paBase.getLsbD i)) ∧
    (permits s.cfg e.attrs acc el = false → Machine.translate c s va acc el = .fault (.permission e.level va acc)) ∧
    (∀ m ips, s.cfg.outBitsOfIPS.get ips.toFin ≠ none →
      Machine.translate c { s with mem := m, tcrEl1 := { s.tcrEl1 with ips := ips } } va acc el = Machine.translate c s va acc el)

/-- A miss (R53): when no entry of the TLB matches, the outcome is the walk's against the tables as they stand, whatever the
free choices; and in a region of the source's geometry (64KB, 42 bits) that walk is `Walk64K42` of R80 from the region's own
base register, with the effective address, the access, the level and the output size TCR_EL1.IPS gives (such a region is one
of EL0 and EL1). -/
def Obligations.MissWalksTheTables : Prop :=
  ∀ (s : State) (c : Choice) (va : VAddr) (acc : AccessKind) (el : EL) (r : Region),
    selectRegion s va acc el = .ok r →
    (∀ e ∈ s.tlb, ¬ (e.regime = r.regime ∧ e.vaBase.toNat ≤ r.ea.toNat ∧ r.ea.toNat < e.vaBase.toNat + 2 ^ e.k ∧
      (r.regime = .el1and0 → e.asid = s.inputs.asid ∧ e.vmid = s.inputs.vmid))) →
    (∀ f, missWalk c s r va acc el = .fault f → Machine.translate c s va acc el = .fault f) ∧
    (∀ z, missWalk c s r va acc el = .refused z → Machine.translate c s va acc el = .refused z) ∧
    (∀ wk, missWalk c s r va acc el = .ok wk → ∃ t, Machine.translate c s va acc el = .ok t ∧ t.pa = wk.pa ∧ t.attrs = wk.attrs) ∧
    ∀ w, r.granule = .kb64 → r.n = 22 → s.cfg.outBitsOfIPS.get s.tcrEl1.ips.toFin = some w →
      missWalk c s r va acc el = walk64K42 s.cfg s.mem r.base ⟨va, r.ea, acc, el, w, c.sizeFirst⟩

/-- The TLB after a miss (R54): where the walk does not fault, the translation leaves the TLB as it was, or with one more
entry, of the walk's own range or, where the walk allows it, of the whole contiguous group, recorded with the current ASID,
VMID, the regime and the level; and each of the three is what some choice of the fill gives, whatever else is chosen (D19;
the TLB is a list without repeats, log 22). -/
def Obligations.FillIsOptional : Prop :=
  ∀ (s : State) (c : Choice) (va : VAddr) (acc : AccessKind) (el : EL) (r : Region) (wk : WalkEnd),
    selectRegion s va acc el = .ok r → usedEntry c s r = none → missWalk c s r va acc el = .ok wk →
    (∃ t, Machine.translate c s va acc el = .ok t ∧ (t.tlb = s.tlb ∨
      ∃ k, (k = wk.k ∨ wk.wide = some k) ∧
        t.tlb = (⟨clearLow k r.ea, k, clearLow k wk.pa, wk.attrs, s.inputs.asid, s.inputs.vmid, r.regime, wk.level⟩ : TlbEntry) :: s.tlb)) ∧
    (∃ f t, Machine.translate { c with fill := f } s va acc el = .ok t ∧ t.tlb = s.tlb) ∧
    ∀ k, (k = wk.k ∨ wk.wide = some k) →
      ∃ f t, Machine.translate { c with fill := f } s va acc el = .ok t ∧
        (⟨clearLow k r.ea, k, clearLow k wk.pa, wk.attrs, s.inputs.asid, s.inputs.vmid, r.regime, wk.level⟩ : TlbEntry) ∈ t.tlb

/-- A hit and a walk give the same verdict on the same tables (42_translation_walk.md R77): the entry a walk of the
source's geometry may have cached gives, for every access it matches in the unchanged state, the address and attributes
the walk of that access gives, and refuses permission exactly where that walk does. -/
def Obligations.HitAgreesWithTheWalk : Prop :=
  ∀ (s : State) (c c' : Choice) (r r' : Region) (va va' : VAddr) (acc acc' : AccessKind) (el el' : EL) (wk : WalkEnd),
    sourceGeometry r = true → missWalk c s r va acc el = .ok wk →
    r'.base = r.base → r'.n = r.n → r'.granule = r.granule →
    entryMatches s.inputs (filledEntry s.inputs r wk wk.k) r'.ea r'.regime = true →
    (permits s.cfg wk.attrs acc' el' = true →
      ∃ wk', missWalk c' s r' va' acc' el' = .ok wk' ∧
        wk'.pa = hitAddress (filledEntry s.inputs r wk wk.k) r'.ea ∧ wk'.attrs = wk.attrs) ∧
    (permits s.cfg wk.attrs acc' el' = false → ∃ level, missWalk c' s r' va' acc' el' = .fault (.permission level va' acc'))

/-- The wide entry of a contiguous group never changes the address an access gets (40_tlb_tlbi.md R58 to R60): where a walk of
the source's geometry ended in a marked level 3 page, the 2MB entry gives every access it matches the address and
attributes of that access's own walk, and refuses permission exactly where that walk does. The output size is at least 21
bits, and the access's own walk reads plain memory only. -/
def Obligations.WideEntryAgreesWithTheWalk : Prop :=
  ∀ (s : State) (c c' : Choice) (r r' : Region) (va va' : VAddr) (acc acc' : AccessKind) (el el' : EL) (wk : WalkEnd) (w : Nat),
    sourceGeometry r = true → missWalk c s r va acc el = .ok wk → wk.wide = some 21 →
    outSize s r.regime = some w → 21 ≤ w → (∀ a, missWalk c' s r' va' acc' el' ≠ .refused (.walkOutsidePlainMemory a)) →
    r'.base = r.base → r'.n = r.n → r'.granule = r.granule →
    entryMatches s.inputs (filledEntry s.inputs r wk 21) r'.ea r'.regime = true →
    (permits s.cfg wk.attrs acc' el' = true →
      ∃ wk', missWalk c' s r' va' acc' el' = .ok wk' ∧
        wk'.pa = hitAddress (filledEntry s.inputs r wk 21) r'.ea ∧ wk'.attrs = wk.attrs) ∧
    (permits s.cfg wk.attrs acc' el' = false → ∃ level, missWalk c' s r' va' acc' el' = .fault (.permission level va' acc'))

/-- EL2 and EL3 cannot influence translation at EL0 and EL1: two states that agree on TCR_EL1, TTBR0_EL1, TTBR1_EL1,
memory, inputs, configuration and the EL1 and EL0 entries of the TLB give the same address and attributes, the same fault or
the same refusal (R51, R62, R92). -/
def Obligations.El2AndEl3CannotInfluenceEl1 : Prop :=
  ∀ (s s' : State) (c : Choice) (va : VAddr) (acc : AccessKind) (el : EL), (el = .el0 ∨ el = .el1) →
    s'.tcrEl1 = s.tcrEl1 → s'.ttbr0El1 = s.ttbr0El1 → s'.ttbr1El1 = s.ttbr1El1 → s'.mem = s.mem →
    s'.inputs = s.inputs → s'.cfg = s.cfg →
    s'.tlb.filter (fun e => decide (e.regime = .el1and0)) = s.tlb.filter (fun e => decide (e.regime = .el1and0)) →
    (∀ t, Machine.translate c s va acc el = .ok t → ∃ t', Machine.translate c s' va acc el = .ok t' ∧ t'.pa = t.pa ∧ t'.attrs = t.attrs) ∧
    (∀ f, Machine.translate c s va acc el = .fault f → Machine.translate c s' va acc el = .fault f) ∧
    (∀ z, Machine.translate c s va acc el = .refused z → Machine.translate c s' va acc el = .refused z)

/-! Accesses and memory. -/

/-- A read or fetch inside one page whose translation succeeds returns the bytes at the physical address, with the
attributes, wherever that address lies; only the TLB and the report change beyond the start of the request
(42_translation_walk.md R109, 20_memory.md R31, D7). -/
def Obligations.ReadAccessReturnsMemory : Prop :=
  ∀ (s : State) (inp : Inputs) (kind : AccessKind) (va : VAddr) (n v : Nat) (rest : List Request) (u : State) (t : Translated),
    s.requests = ⟨inp, .access kind va n v⟩ :: rest → kind ≠ .write → u = startRequest s inp rest →
    n ≤ 2 ^ splitBits u va kind inp.el - va.toNat % 2 ^ splitBits u va kind inp.el →
    (∀ r, selectRegion u va kind inp.el = .ok r → missWalk (choiceOf s) u r va kind inp.el ≠ .refused .contiguousGroupBroken) →
    Machine.translate (choiceOf s) u va kind inp.el = .ok t →
    step s = .next { u with tlb := t.tlb, response := .loaded t.pa t.attrs (memRead s.cfg s.mem t.pa n).toNat }

/-- A write inside one page whose translation succeeds stores the value at the physical address: reading the bytes back
gives it, every other byte is as before, and otherwise only the TLB and the report change (R109, R31, D7). -/
def Obligations.WriteAccessStoresTheValue : Prop :=
  ∀ (s : State) (inp : Inputs) (va : VAddr) (n v : Nat) (rest : List Request) (u : State) (t : Translated),
    s.requests = ⟨inp, .access .write va n v⟩ :: rest → u = startRequest s inp rest →
    n ≤ 2 ^ splitBits u va .write inp.el - va.toNat % 2 ^ splitBits u va .write inp.el →
    (∀ r, selectRegion u va .write inp.el = .ok r → missWalk (choiceOf s) u r va .write inp.el ≠ .refused .contiguousGroupBroken) →
    Machine.translate (choiceOf s) u va .write inp.el = .ok t →
    ∃ s', step s = .next s' ∧ s' = { u with tlb := t.tlb, response := .stored t.pa t.attrs, mem := s'.mem } ∧
      (n ≤ 2 ^ 48 → memRead s.cfg s'.mem t.pa n = BitVec.ofNat (8 * n) v) ∧
      ∀ a, (∀ i, i < n → a ≠ (t.pa + BitVec.ofNat 48 i).toNat) → Memory.read s'.mem a = Memory.read s.mem a

/-- An access whose translation faults is reported and not performed (R109, 60_exceptions.md R93). -/
def Obligations.FaultingAccessIsReported : Prop :=
  ∀ (s : State) (inp : Inputs) (kind : AccessKind) (va : VAddr) (n v : Nat) (rest : List Request) (u : State) (f : Fault),
    s.requests = ⟨inp, .access kind va n v⟩ :: rest → u = startRequest s inp rest →
    n ≤ 2 ^ splitBits u va kind inp.el - va.toNat % 2 ^ splitBits u va kind inp.el →
    Machine.translate (choiceOf s) u va kind inp.el = .fault f →
    (∀ r, selectRegion u va kind inp.el = .ok r → missWalk (choiceOf s) u r va kind inp.el ≠ .refused .contiguousGroupBroken) →
    step s = .next { u with response := .fault f }

/-- An access whose walk, of the source's geometry, reads a level 3 entry of a group of 32 that holds a page with the
contiguous mark and breaks a condition of R59 is refused, on a hit as on a walk (D27): some entry is no page, or has no
mark, or has other attributes than the first, or its [47:16] is not the first one's plus its index, or the first one's
[20:16] is not 0. Where the refusal falls is the model's choice (log 20). -/
def Obligations.BrokenContiguousGroupIsRefused : Prop :=
  ∀ (s : State) (inp : Inputs) (kind : AccessKind) (va : VAddr) (n v : Nat) (rest : List Request) (u : State) (r : Region)
    (w : Nat) (d2 : DWord) (d : Nat → DWord),
    s.requests = ⟨inp, .access kind va n v⟩ :: rest → u = startRequest s inp rest →
    n ≤ 2 ^ splitBits u va kind inp.el - va.toNat % 2 ^ splitBits u va kind inp.el →
    selectRegion u va kind inp.el = .ok r → r.granule = .kb64 → r.n = 22 → outSize u r.regime = some w →
    inSize w (r.base.extractLsb 47 16 ++ 0#16 : BitVec 48) = true →
    plain s.cfg (r.base.extractLsb 47 16 ++ r.ea.extractLsb 41 29 ++ 0#3 : BitVec 48) 8 = true →
    d2 = memRead64 s.cfg s.mem (r.base.extractLsb 47 16 ++ r.ea.extractLsb 41 29 ++ 0#3 : BitVec 48) →
    upperKind s.cfg 2 d2 = .table → permitsAt s.cfg 2 true d2 kind inp.el = true → inSize w (d2.extractLsb 47 0) = true →
    plain s.cfg (d2.extractLsb 47 16 ++ r.ea.extractLsb 28 16 ++ 0#3 : BitVec 48) 8 = true →
    (∀ i, d i = memRead64 s.cfg s.mem (d2.extractLsb 47 16 ++ r.ea.extractLsb 28 21 ++ BitVec.ofNat 5 i ++ 0#3 : BitVec 48)) →
    (∃ i, i < 32 ∧ lastKind s.cfg (d i) = .page ∧ isContiguous s.cfg (d i) = true) →
    (∃ i, i < 32 ∧
      (lastKind s.cfg (d i) ≠ .page ∨ isContiguous s.cfg (d i) = false ∨
        entryAttrs s.cfg 3 false (d i) ≠ entryAttrs s.cfg 3 false (d 0) ∨
        (d i).extractLsb 47 16 ≠ (d 0).extractLsb 47 16 + BitVec.ofNat 32 i ∨ (d 0).extractLsb 20 16 ≠ 0)) →
    step s = .refused .contiguousGroupBroken

/-- The page an access is split by is the granule of the region its address lies in, 64KB for the source's geometry (20_memory.md
R33, R109), and 64KB where no region is selected (D5's size; the reading is DEDUCED, log 25). An access that leaves its page
is split by the requester into the part in the page and the rest, in that order; that both are queued, and that the rest
begins at `va + room` modulo 2^64, on at 0 past the top and carrying into the tag byte, are the model's (DESIGN CHOICE, log 25). -/
def Obligations.AccessAcrossPagesIsSplit : Prop :=
  (∀ (s : State) (va : VAddr) (kind : AccessKind) (el : EL),
    (∀ r, selectRegion s va kind el = .ok r →
      splitBits s va kind el = match r.granule with | .kb4 => 12 | .kb16 => 14 | .kb64 => 16) ∧
    ((∀ r, selectRegion s va kind el ≠ .ok r) → splitBits s va kind el = 16)) ∧
  ∀ (s : State) (inp : Inputs) (kind : AccessKind) (va : VAddr) (n v room : Nat) (rest : List Request) (u : State),
    s.requests = ⟨inp, .access kind va n v⟩ :: rest → u = startRequest s inp rest →
    room = 2 ^ splitBits u va kind inp.el - va.toNat % 2 ^ splitBits u va kind inp.el → room < n →
    ∃ v1 v2, step s = .next { u with
      response := .split
      requests := ⟨inp, .access kind va room v1⟩ :: ⟨inp, .access kind (va + BitVec.ofNat 64 room) (n - room) v2⟩ :: rest } ∧
      (s.cfg.descBigEndian = false → v = v1 + 256 ^ room * v2 ∧ v1 < 256 ^ room) ∧
      (s.cfg.descBigEndian = true → v = 256 ^ (n - room) * v1 + v2 ∧ v2 < 256 ^ (n - room))

/-- An entry read little-endian has the byte at its address as bits [7:0] and each following byte as the next eight bits; with `DESC_BIG_ENDIAN` the order is the opposite (R32, D4). -/
def Obligations.ByteOrderOfAnEntry : Prop :=
  ∀ (cfg : Config) (m : Memory) (pa : PAddr) (i : Nat), i < 8 →
    (cfg.descBigEndian = false →
      (memRead64 cfg m pa).extractLsb' (8 * i) 8 = Memory.read m (pa + BitVec.ofNat 48 i).toNat) ∧
    (cfg.descBigEndian = true →
      (memRead64 cfg m pa).extractLsb' (8 * (7 - i)) 8 = Memory.read m (pa + BitVec.ofNat 48 i).toNat)

/-- A `MemWrite` step of the requester stores the value and changes nothing else beyond the start of the request (D1, R31). -/
def Obligations.RequesterWriteStoresTheValue : Prop :=
  ∀ (s : State) (inp : Inputs) (pa : PAddr) (n v : Nat) (rest : List Request),
    s.requests = ⟨inp, .memWrite pa n v⟩ :: rest →
    ∃ s', step s = .next s' ∧ s' = { startRequest s inp rest with response := .done, mem := s'.mem } ∧
      (n ≤ 2 ^ 48 → memRead s.cfg s'.mem pa n = BitVec.ofNat (8 * n) v) ∧
      ∀ a, (∀ i, i < n → a ≠ (pa + BitVec.ofNat 48 i).toNat) → Memory.read s'.mem a = Memory.read s.mem a
end

