-- ==== Sys2Proof/Laws/Bits.lean ====
section
/-! SUPPORT. The slices, joins and cleared low bits, bit by bit and as numbers. -/

namespace Sys2Proof.Machine

/-- A bit of a value with its low bits cleared. -/
theorem getLsbD_clearLow {w : Nat} (k : Nat) (v : BitVec w) (i : Nat) :
    (clearLow k v).getLsbD i = (decide (k ≤ i) && v.getLsbD i) := by
  by_cases hw : i < w
  · by_cases hk : i < k
    · simp [clearLow, hk, Nat.not_le.mpr hk]
    · have hk' : k ≤ i := Nat.not_lt.mp hk
      simp [clearLow, hk', hk, hw, Nat.add_sub_cancel' hk']
  · simp [BitVec.getLsbD_of_ge _ i (Nat.not_lt.mp hw)]

/-- Clearing low bits, as a number. -/
theorem toNat_clearLow {w : Nat} (k : Nat) (v : BitVec w) : (clearLow k v).toNat = v.toNat / 2 ^ k * 2 ^ k := by
  have h : v.toNat / 2 ^ k * 2 ^ k ≤ v.toNat := Nat.div_mul_le_self _ _
  simp only [clearLow, BitVec.toNat_shiftLeft, BitVec.toNat_ushiftRight, Nat.shiftRight_eq_div_pow, Nat.shiftLeft_eq]
  exact Nat.mod_eq_of_lt (Nat.lt_of_le_of_lt h v.isLt)

/-- A cleared value is a multiple. -/
theorem clearLow_mod {w : Nat} (k : Nat) (v : BitVec w) : (clearLow k v).toNat % 2 ^ k = 0 := by
  rw [toNat_clearLow]; exact Nat.mul_mod_left _ _

/-- A bit of the join of an address field with the low bits of a virtual address (R74). -/
theorem getLsbD_joinAt (k : Nat) (hi : PAddr) (lo : VAddr) (i : Nat) (h : i < 48) :
    (joinAt k hi lo).getLsbD i = if i < k then lo.getLsbD i else hi.getLsbD i := by
  have hc := getLsbD_clearLow k hi i
  by_cases hk : i < k
  · simp only [joinAt, BitVec.getLsbD_or, hc, BitVec.getLsbD_setWidth, h, hk, if_true, Nat.not_le.mpr hk, decide_false,
      decide_true, Bool.false_and, Bool.true_and, Bool.false_or]
  · simp only [joinAt, BitVec.getLsbD_or, hc, BitVec.getLsbD_setWidth, h, hk, if_false, Nat.not_lt.mp hk, decide_false,
      decide_true, Bool.false_and, Bool.true_and, Bool.and_false, Bool.or_false]

/-- A concatenation as a number. -/
theorem toNat_joined {a b : Nat} (x : BitVec a) (y : BitVec b) : (x ++ y).toNat = x.toNat * 2 ^ b + y.toNat := by
  rw [BitVec.toNat_append, ← Nat.shiftLeft_add_eq_or_of_lt y.isLt, Nat.shiftLeft_eq]

/-- A field as a number. -/
theorem toNat_field {w : Nat} (v : BitVec w) (hi lo : Nat) :
    (v.extractLsb hi lo).toNat = v.toNat / 2 ^ lo % 2 ^ (hi - lo + 1) := by
  rw [BitVec.extractLsb_toNat, Nat.shiftRight_eq_div_pow]

/-- The slice as a number. -/
theorem toNat_slice {w : Nat} (v : BitVec w) (hi lo : Nat) :
    (slice v hi lo).toNat = v.toNat / 2 ^ lo % 2 ^ (hi + 1 - lo) := by
  simp [slice, BitVec.extractLsb'_toNat, Nat.shiftRight_eq_div_pow]

/-- A slice is all zeros when every bit of it is (R8). -/
theorem sliceZeros_iff_bits {w : Nat} (v : BitVec w) (hi lo : Nat) :
    sliceZeros v hi lo = true ↔ ∀ i, lo ≤ i → i ≤ hi → v.getLsbD i = false := by
  simp only [sliceZeros, slice, beq_iff_eq]
  constructor
  · intro h i h1 h2
    have := congrArg (fun x => x.getLsbD (i - lo)) h
    simpa [BitVec.getLsbD_extractLsb', show i - lo < hi + 1 - lo by omega, Nat.add_sub_cancel' h1] using this
  · intro h
    apply BitVec.eq_of_getLsbD_eq; intro i hi'
    simpa [BitVec.getLsbD_extractLsb', hi'] using h (lo + i) (by omega) (by omega)

/-- A slice is all ones when every bit of it is (R8). -/
theorem sliceOnes_iff_bits {w : Nat} (v : BitVec w) (hi lo : Nat) :
    sliceOnes v hi lo = true ↔ ∀ i, lo ≤ i → i ≤ hi → v.getLsbD i = true := by
  simp only [sliceOnes, slice, beq_iff_eq]
  constructor
  · intro h i h1 h2
    have := congrArg (fun x => x.getLsbD (i - lo)) h
    simpa [BitVec.getLsbD_extractLsb', show i - lo < hi + 1 - lo by omega, Nat.add_sub_cancel' h1] using this
  · intro h
    apply BitVec.eq_of_getLsbD_eq; intro i hi'
    simpa [BitVec.getLsbD_extractLsb', hi'] using h (lo + i) (by omega) (by omega)

/-- A slice is all zeros (R8). -/
theorem sliceZeros_iff {w : Nat} (v : BitVec w) (hi lo : Nat) :
    sliceZeros v hi lo = true ↔ v.toNat / 2 ^ lo % 2 ^ (hi + 1 - lo) = 0 := by
  rw [← toNat_slice]
  simp only [sliceZeros, beq_iff_eq]
  constructor
  · intro h; rw [h]; rfl
  · intro h; exact BitVec.eq_of_toNat_eq (by simpa using h)

/-- A slice is all ones (R8). -/
theorem sliceOnes_iff {w : Nat} (v : BitVec w) (hi lo : Nat) :
    sliceOnes v hi lo = true ↔ v.toNat / 2 ^ lo % 2 ^ (hi + 1 - lo) = 2 ^ (hi + 1 - lo) - 1 := by
  rw [← toNat_slice]
  simp only [sliceOnes, beq_iff_eq]
  constructor
  · intro h; rw [h]; exact BitVec.toNat_allOnes
  · intro h; exact BitVec.eq_of_toNat_eq (by rw [h]; exact BitVec.toNat_allOnes.symm)

end Sys2Proof.Machine
end

