-- ==== Sys2Proof/Laws/Decode.lean ====
section
/-! SUPPORT. The fields of a `TLBI` word (30_encoding.md R47), and the bytes of a word. -/

namespace Sys2Proof

/-- A `TLBI` word, bit by bit. -/
theorem getLsbD_sysWord (op1 : BitVec 3) (crm : BitVec 4) (op2 : BitVec 3) (rt : BitVec 5) (i : Nat) :
    (sysWord op1 crm op2 rt).getLsbD i =
      if i < 5 then rt.getLsbD i else if i < 8 then op2.getLsbD (i - 5) else if i < 12 then crm.getLsbD (i - 8)
      else if i < 16 then (8#4).getLsbD (i - 12) else if i < 19 then op1.getLsbD (i - 16) else sysPrefix.getLsbD (i - 19) := by
  unfold sysWord
  simp only [BitVec.getLsbD_append]
  repeat' split
  all_goals first | rfl | omega

theorem sysWord_prefix (op1 : BitVec 3) (crm : BitVec 4) (op2 : BitVec 3) (rt : BitVec 5) :
    (sysWord op1 crm op2 rt).extractLsb 31 19 = sysPrefix := by
  apply BitVec.eq_of_getLsbD_eq; intro i hi
  simp (disch := omega) only [BitVec.getLsbD_extractLsb, getLsbD_sysWord, if_neg, Nat.add_sub_cancel_left]
  simp; omega

theorem sysWord_op1 (op1 : BitVec 3) (crm : BitVec 4) (op2 : BitVec 3) (rt : BitVec 5) :
    (sysWord op1 crm op2 rt).extractLsb 18 16 = op1 := by
  apply BitVec.eq_of_getLsbD_eq; intro i hi
  simp (disch := omega) only [BitVec.getLsbD_extractLsb, getLsbD_sysWord, if_neg, if_pos, Nat.add_sub_cancel_left]
  simp; omega

theorem sysWord_crn (op1 : BitVec 3) (crm : BitVec 4) (op2 : BitVec 3) (rt : BitVec 5) :
    (sysWord op1 crm op2 rt).extractLsb 15 12 = 8#4 := by
  apply BitVec.eq_of_getLsbD_eq; intro i hi
  simp (disch := omega) only [BitVec.getLsbD_extractLsb, getLsbD_sysWord, if_neg, if_pos, Nat.add_sub_cancel_left]
  simp; omega

theorem sysWord_crm (op1 : BitVec 3) (crm : BitVec 4) (op2 : BitVec 3) (rt : BitVec 5) :
    (sysWord op1 crm op2 rt).extractLsb 11 8 = crm := by
  apply BitVec.eq_of_getLsbD_eq; intro i hi
  simp (disch := omega) only [BitVec.getLsbD_extractLsb, getLsbD_sysWord, if_neg, if_pos, Nat.add_sub_cancel_left]
  simp; omega

theorem sysWord_op2 (op1 : BitVec 3) (crm : BitVec 4) (op2 : BitVec 3) (rt : BitVec 5) :
    (sysWord op1 crm op2 rt).extractLsb 7 5 = op2 := by
  apply BitVec.eq_of_getLsbD_eq; intro i hi
  simp (disch := omega) only [BitVec.getLsbD_extractLsb, getLsbD_sysWord, if_neg, if_pos, Nat.add_sub_cancel_left]
  simp; omega

theorem sysWord_rt (op1 : BitVec 3) (crm : BitVec 4) (op2 : BitVec 3) (rt : BitVec 5) :
    (sysWord op1 crm op2 rt).extractLsb 4 0 = rt := by
  apply BitVec.eq_of_getLsbD_eq; intro i hi
  simp (disch := omega) only [BitVec.getLsbD_extractLsb, getLsbD_sysWord, if_pos, Nat.zero_add]
  simp; omega

/-- A bit of a field is a bit of the word. -/
theorem field_bit {n : Nat} (w : BitVec n) (lo j len i : Nat) (hj : j < len) (h : lo + j = i) :
    (decide (j < len) && w.getLsbD (lo + j)) = w.getLsbD i := by
  subst h; simp [hj]

/-- A word with the fixed bits of `TLBI` is made of its fields. -/
theorem sysWord_of_fields (w : IWord) (hp : w.extractLsb 31 19 = sysPrefix) (hc : w.extractLsb 15 12 = 8#4) :
    sysWord (w.extractLsb 18 16) (w.extractLsb 11 8) (w.extractLsb 7 5) (w.extractLsb 4 0) = w := by
  apply BitVec.eq_of_getLsbD_eq; intro i hi
  rw [getLsbD_sysWord, ← hp, ← hc]
  simp only [BitVec.getLsbD_extractLsb]
  repeat' split
  all_goals exact field_bit _ _ _ _ _ (by omega) (by omega)

/-- The bytes of a word, lowest address first, give the word back. -/
theorem wordOfBytes_bytesOfWord (w : IWord) :
    wordOfBytes (w.extractLsb 7 0) (w.extractLsb 15 8) (w.extractLsb 23 16) (w.extractLsb 31 24) = w := by
  apply BitVec.eq_of_getLsbD_eq; intro i hi
  simp only [wordOfBytes, BitVec.getLsbD_append, BitVec.getLsbD_extractLsb]
  repeat' split
  all_goals exact field_bit _ _ _ _ _ (by omega) (by omega)
end Sys2Proof
end

