-- ==== Sys2Proof/Laws/Memory.lean ====
section
/-! SUPPORT. Memory: a read after a write, what a write leaves alone, the canonical form, the byte order. -/

namespace Sys2Proof.Machine

/-- No cell at an address: it reads as an unlisted byte. -/
theorem Memory.read_of_not_mem (m : Memory) (a : Nat) (h : ∀ c ∈ m, c.1 ≠ a) : Memory.read m a = unlistedByte := by
  induction m with
  | nil => rfl
  | cons c m ih =>
    simp only [List.mem_cons, forall_eq_or_imp] at h
    simp [Memory.read, h.1, ih h.2]

/-- Removing the cells of one address leaves what other addresses read. -/
theorem Memory.read_filter (m : Memory) (a a' : Nat) (h : a' ≠ a) :
    Memory.read (m.filter fun c => decide (c.1 ≠ a)) a' = Memory.read m a' := by
  induction m with
  | nil => rfl
  | cons c m ih =>
    by_cases hc : c.1 = a
    · have : c.1 ≠ a' := by omega
      simp only [List.filter_cons, hc, ne_eq, not_true_eq_false, decide_false, Bool.false_eq_true, if_false]
      rw [ih]; obtain ⟨k, b⟩ := c; simp only [Memory.read]; rw [if_neg (by simpa using this)]
    · obtain ⟨k, b⟩ := c
      rw [List.filter_cons_of_pos (by simpa using hc)]
      simp only [Memory.read]
      rw [ih]

theorem Memory.read_insert_same (m : Memory) (a : Nat) (b : Byte) (h : ∀ c ∈ m, c.1 ≠ a) :
    Memory.read (Memory.insert a b m) a = b := by
  induction m with
  | nil => simp [Memory.insert, Memory.read]
  | cons c m ih =>
    obtain ⟨k, d⟩ := c
    simp only [List.mem_cons, forall_eq_or_imp] at h
    simp only [Memory.insert]
    split
    · simp [Memory.read]
    · simp [Memory.read, h.1, ih h.2]

theorem Memory.read_insert_other (m : Memory) (a a' : Nat) (b : Byte) (h : a' ≠ a) :
    Memory.read (Memory.insert a b m) a' = Memory.read m a' := by
  induction m with
  | nil => simp [Memory.insert, Memory.read, Ne.symm h]
  | cons c m ih =>
    obtain ⟨k, d⟩ := c
    simp only [Memory.insert]
    split
    · simp [Memory.read, Ne.symm h]
    · simp [Memory.read, ih]

/-- A read after a write to the same address gives the byte written. -/
@[simp] theorem Memory.read_write_same (m : Memory) (a : Nat) (b : Byte) : Memory.read (Memory.write m a b) a = b := by
  have hf : ∀ c ∈ m.filter (fun c => decide (c.1 ≠ a)), c.1 ≠ a := by
    intro c hc; simpa using (List.mem_filter.mp hc).2
  unfold Memory.write
  split
  · next h => rw [Memory.read_of_not_mem _ _ hf, h]
  · exact Memory.read_insert_same _ _ _ hf

/-- A write leaves every other address alone. -/
theorem Memory.read_write_other (m : Memory) (a a' : Nat) (b : Byte) (h : a' ≠ a) :
    Memory.read (Memory.write m a b) a' = Memory.read m a' := by
  unfold Memory.write
  split
  · exact Memory.read_filter m a a' h
  · rw [Memory.read_insert_other _ _ _ _ h, Memory.read_filter m a a' h]

/-! The canonical form. -/

theorem Memory.wfFrom_mono (m : Memory) (lo lo' : Nat) (h : lo' ≤ lo) (hm : Memory.wfFrom lo m = true) :
    Memory.wfFrom lo' m = true := by
  cases m with
  | nil => rfl
  | cons c m =>
    simp only [Memory.wfFrom, Bool.and_eq_true, decide_eq_true_eq] at hm ⊢
    exact ⟨⟨⟨Nat.le_trans h hm.1.1.1, hm.1.1.2⟩, hm.1.2⟩, hm.2⟩

theorem Memory.wfFrom_filter (m : Memory) (p : Host.Cell → Bool) (lo : Nat) (hm : Memory.wfFrom lo m = true) :
    Memory.wfFrom lo (m.filter p) = true := by
  induction m generalizing lo with
  | nil => rfl
  | cons c m ih =>
    simp only [Memory.wfFrom, Bool.and_eq_true, decide_eq_true_eq] at hm
    simp only [List.filter_cons]
    split
    · simp only [Memory.wfFrom, Bool.and_eq_true, decide_eq_true_eq]
      exact ⟨hm.1, ih _ hm.2⟩
    · exact ih _ (Memory.wfFrom_mono _ _ _ (by omega) hm.2)

theorem Memory.wfFrom_insert (m : Memory) (a : Nat) (b : Byte) (lo : Nat) (ha : lo ≤ a) (hlt : a < 2 ^ 48)
    (hb : b ≠ unlistedByte) (hn : ∀ c ∈ m, c.1 ≠ a) (hm : Memory.wfFrom lo m = true) :
    Memory.wfFrom lo (Memory.insert a b m) = true := by
  induction m generalizing lo with
  | nil =>
    simp only [Memory.insert, Memory.wfFrom, Bool.and_eq_true, decide_eq_true_eq]
    exact ⟨⟨⟨ha, hlt⟩, hb⟩, trivial⟩
  | cons c m ih =>
    obtain ⟨k, d⟩ := c
    simp only [List.mem_cons, forall_eq_or_imp] at hn
    simp only [Memory.wfFrom, Bool.and_eq_true, decide_eq_true_eq] at hm
    simp only [Memory.insert]
    split
    · next h =>
      simp only [Memory.wfFrom, Bool.and_eq_true, decide_eq_true_eq]
      exact ⟨⟨⟨ha, hlt⟩, hb⟩, ⟨⟨⟨h, hm.1.1.2⟩, hm.1.2⟩, hm.2⟩⟩
    · next h =>
      simp only [Memory.wfFrom, Bool.and_eq_true, decide_eq_true_eq]
      exact ⟨hm.1, ih (k + 1) (by have := hn.1; omega) hn.2 hm.2⟩

/-- A write of one byte keeps the canonical form. -/
theorem Memory.wf_write (m : Memory) (a : Nat) (b : Byte) (ha : a < 2 ^ 48) (h : Memory.wf m = true) :
    Memory.wf (Memory.write m a b) = true := by
  unfold Memory.write
  split
  · exact Memory.wfFrom_filter _ _ _ h
  · next hb =>
    exact Memory.wfFrom_insert _ _ _ _ (Nat.zero_le _) ha hb
      (by intro c hc; simpa using (List.mem_filter.mp hc).2) (Memory.wfFrom_filter _ _ _ h)

/-- Storing bytes keeps the canonical form. -/
theorem Memory.wf_writeBytes (bs : List Byte) (m : Memory) (pa : PAddr) (h : Memory.wf m = true) :
    Memory.wf (writeBytes m pa bs) = true := by
  induction bs generalizing m pa with
  | nil => exact h
  | cons b bs ih => exact ih _ _ (Memory.wf_write _ _ _ pa.isLt h)

/-- `MemWrite` keeps the canonical form. -/
theorem Memory.wf_memWrite (cfg : Config) (m : Memory) (pa : PAddr) (n : Nat) (v : BitVec (8 * n)) (h : Memory.wf m = true) :
    Memory.wf (memWrite cfg m pa n v) = true := Memory.wf_writeBytes _ _ _ h

/-! Bytes at successive addresses. -/

theorem toNat_add_ofNat (pa : PAddr) (i : Nat) : (pa + BitVec.ofNat 48 i).toNat = (pa.toNat + i) % 2 ^ 48 := by
  simp [BitVec.toNat_add]

theorem add_succ_eq (pa : PAddr) (i : Nat) : pa + 1 + BitVec.ofNat 48 i = pa + BitVec.ofNat 48 (i + 1) := by
  apply BitVec.eq_of_toNat_eq; simp [BitVec.toNat_add]; omega

/-- Storing bytes leaves every address outside them alone. -/
theorem read_writeBytes_other (bs : List Byte) (m : Memory) (pa : PAddr) (a : Nat)
    (h : ∀ i, i < bs.length → a ≠ (pa + BitVec.ofNat 48 i).toNat) : Memory.read (writeBytes m pa bs) a = Memory.read m a := by
  induction bs generalizing m pa with
  | nil => rfl
  | cons b bs ih =>
    have h0 : a ≠ pa.toNat := by simpa using h 0 (by simp)
    rw [writeBytes, ih _ _ (fun i hi => by rw [add_succ_eq]; exact h (i + 1) (by simpa using hi)),
      Memory.read_write_other _ _ _ _ h0]

/-- What is read depends on the bytes read alone. -/
theorem readBytes_congr (m m' : Memory) (n : Nat) (pa : PAddr)
    (h : ∀ i, i < n → Memory.read m' (pa + BitVec.ofNat 48 i).toNat = Memory.read m (pa + BitVec.ofNat 48 i).toNat) :
    readBytes m' pa n = readBytes m pa n := by
  induction n generalizing pa with
  | zero => rfl
  | succ n ih =>
    simp only [readBytes]
    rw [ih (pa + 1) (fun i hi => by rw [add_succ_eq]; exact h (i + 1) (by omega))]
    have h0 := h 0 (by omega)
    simp only [BitVec.add_zero] at h0
    rw [h0]

/-- Bytes stored at distinct addresses are read back. -/
theorem readBytes_writeBytes (bs : List Byte) (m : Memory) (pa : PAddr) (h : bs.length ≤ 2 ^ 48) :
    readBytes (writeBytes m pa bs) pa bs.length = bs := by
  induction bs generalizing m pa with
  | nil => rfl
  | cons b bs ih =>
    simp only [List.length_cons] at h
    simp only [writeBytes, List.length_cons, readBytes, ih (Memory.write m pa.toNat b) (pa + 1) (by omega)]
    rw [read_writeBytes_other]
    · simp
    · intro i hi
      rw [add_succ_eq, toNat_add_ofNat]
      have := pa.isLt
      omega

/-! Numbers and bytes. -/

@[simp] theorem length_bytesLE (n v : Nat) : (bytesLE n v).length = n := by
  induction n generalizing v with
  | zero => rfl
  | succ n ih => simp [bytesLE, ih]

@[simp] theorem length_readBytes (m : Memory) (pa : PAddr) (n : Nat) : (readBytes m pa n).length = n := by
  induction n generalizing pa with
  | zero => rfl
  | succ n ih => simp [readBytes, ih]

@[simp] theorem length_inOrder (be : Bool) (bs : List Byte) : (inOrder be bs).length = bs.length := by
  unfold inOrder; split <;> simp

@[simp] theorem inOrder_inOrder (be : Bool) (bs : List Byte) : inOrder be (inOrder be bs) = bs := by
  unfold inOrder; split <;> simp

/-- The value of the `n` bytes of a number is the number modulo `256^n`. -/
theorem valueLE_bytesLE (n v : Nat) : valueLE (bytesLE n v) = v % 256 ^ n := by
  induction n generalizing v with
  | zero => simp [bytesLE, valueLE, Nat.mod_one]
  | succ n ih =>
    have h := Nat.mod_mul (x := v) (a := 256) (b := 256 ^ n)
    rw [Nat.pow_succ', h]
    simp only [bytesLE, valueLE, ih, BitVec.toNat_ofNat]

/-- `MemRead` after `MemWrite` of the same bytes gives the value written. -/
theorem memRead_memWrite (cfg : Config) (m : Memory) (pa : PAddr) (n : Nat) (v : BitVec (8 * n)) (h : n ≤ 2 ^ 48) :
    memRead cfg (memWrite cfg m pa n v) pa n = v := by
  have hl : (inOrder cfg.descBigEndian (bytesLE n v.toNat)).length = n := by simp
  have hr := readBytes_writeBytes (inOrder cfg.descBigEndian (bytesLE n v.toNat)) m pa (by rw [hl]; exact h)
  rw [hl] at hr
  unfold memRead memWrite
  rw [hr, inOrder_inOrder, valueLE_bytesLE]
  apply BitVec.eq_of_toNat_eq
  have h256 : (256 : Nat) ^ n = 2 ^ (8 * n) := by rw [Nat.pow_mul]
  rw [h256, BitVec.toNat_ofNat, Nat.mod_mod, Nat.mod_eq_of_lt v.isLt]

/-- `MemWrite` leaves every byte outside the stored ones alone. -/
theorem read_memWrite_other (cfg : Config) (m : Memory) (pa : PAddr) (n : Nat) (v : BitVec (8 * n)) (a : Nat)
    (h : ∀ i, i < n → a ≠ (pa + BitVec.ofNat 48 i).toNat) : Memory.read (memWrite cfg m pa n v) a = Memory.read m a :=
  read_writeBytes_other _ _ _ _ (by simpa using h)

end Sys2Proof.Machine
end

