-- ==== Sys2Proof/Laws/PerInstr.lean ====
section
/-! SUPPORT. Statements about every instruction as syntax, one lemma for each constructor. -/

namespace Sys2Proof.Laws

/-- The word of an instruction, if it has one, is a `SYS` word with op0 = 01, L = 0 and CRn = 8 (30_encoding.md R47). -/
def WordIsSys.Statement (i : Instr) : Prop :=
  ∀ w, encode i = some w → w.extractLsb 31 19 = sysPrefix ∧ w.extractLsb 15 12 = 8#4

/-- A word made of its fields is one. -/
theorem sysWord_isSys {op1 : BitVec 3} {crm : BitVec 4} {op2 : BitVec 3} {rt : BitVec 5} {w : IWord}
    (h : some (sysWord op1 crm op2 rt) = some w) : w.extractLsb 31 19 = sysPrefix ∧ w.extractLsb 15 12 = 8#4 := by
  injection h with h
  subst h
  exact ⟨sysWord_prefix op1 crm op2 rt, sysWord_crn op1 crm op2 rt⟩

theorem WordIsSys.tlbi (name : String) (xt : Option (BitVec 5)) : WordIsSys.Statement (.tlbi name xt) :=
  fun _ h => nomatch h
theorem WordIsSys.vmalle1is (rt : BitVec 5) : WordIsSys.Statement (.vmalle1is rt) := fun _ h => sysWord_isSys h
theorem WordIsSys.vmalle1 (rt : BitVec 5) : WordIsSys.Statement (.vmalle1 rt) := fun _ h => sysWord_isSys h
theorem WordIsSys.vae1is (rt : BitVec 5) : WordIsSys.Statement (.vae1is rt) := fun _ h => sysWord_isSys h
theorem WordIsSys.vae1 (rt : BitVec 5) : WordIsSys.Statement (.vae1 rt) := fun _ h => sysWord_isSys h
theorem WordIsSys.aside1is (rt : BitVec 5) : WordIsSys.Statement (.aside1is rt) := fun _ h => sysWord_isSys h
theorem WordIsSys.aside1 (rt : BitVec 5) : WordIsSys.Statement (.aside1 rt) := fun _ h => sysWord_isSys h
theorem WordIsSys.vaae1is (rt : BitVec 5) : WordIsSys.Statement (.vaae1is rt) := fun _ h => sysWord_isSys h
theorem WordIsSys.vaae1 (rt : BitVec 5) : WordIsSys.Statement (.vaae1 rt) := fun _ h => sysWord_isSys h
theorem WordIsSys.vale1is (rt : BitVec 5) : WordIsSys.Statement (.vale1is rt) := fun _ h => sysWord_isSys h
theorem WordIsSys.vale1 (rt : BitVec 5) : WordIsSys.Statement (.vale1 rt) := fun _ h => sysWord_isSys h
theorem WordIsSys.vaale1is (rt : BitVec 5) : WordIsSys.Statement (.vaale1is rt) := fun _ h => sysWord_isSys h
theorem WordIsSys.vaale1 (rt : BitVec 5) : WordIsSys.Statement (.vaale1 rt) := fun _ h => sysWord_isSys h
theorem WordIsSys.ipas2e1is (rt : BitVec 5) : WordIsSys.Statement (.ipas2e1is rt) := fun _ h => sysWord_isSys h
theorem WordIsSys.ipas2e1 (rt : BitVec 5) : WordIsSys.Statement (.ipas2e1 rt) := fun _ h => sysWord_isSys h
theorem WordIsSys.ipas2le1is (rt : BitVec 5) : WordIsSys.Statement (.ipas2le1is rt) := fun _ h => sysWord_isSys h
theorem WordIsSys.ipas2le1 (rt : BitVec 5) : WordIsSys.Statement (.ipas2le1 rt) := fun _ h => sysWord_isSys h
theorem WordIsSys.alle2is (rt : BitVec 5) : WordIsSys.Statement (.alle2is rt) := fun _ h => sysWord_isSys h
theorem WordIsSys.alle2 (rt : BitVec 5) : WordIsSys.Statement (.alle2 rt) := fun _ h => sysWord_isSys h
theorem WordIsSys.vae2is (rt : BitVec 5) : WordIsSys.Statement (.vae2is rt) := fun _ h => sysWord_isSys h
theorem WordIsSys.vae2 (rt : BitVec 5) : WordIsSys.Statement (.vae2 rt) := fun _ h => sysWord_isSys h
theorem WordIsSys.alle1is (rt : BitVec 5) : WordIsSys.Statement (.alle1is rt) := fun _ h => sysWord_isSys h
theorem WordIsSys.alle1 (rt : BitVec 5) : WordIsSys.Statement (.alle1 rt) := fun _ h => sysWord_isSys h
theorem WordIsSys.vale2is (rt : BitVec 5) : WordIsSys.Statement (.vale2is rt) := fun _ h => sysWord_isSys h
theorem WordIsSys.vale2 (rt : BitVec 5) : WordIsSys.Statement (.vale2 rt) := fun _ h => sysWord_isSys h
theorem WordIsSys.vmalls12e1is (rt : BitVec 5) : WordIsSys.Statement (.vmalls12e1is rt) := fun _ h => sysWord_isSys h
theorem WordIsSys.vmalls12e1 (rt : BitVec 5) : WordIsSys.Statement (.vmalls12e1 rt) := fun _ h => sysWord_isSys h
theorem WordIsSys.alle3is (rt : BitVec 5) : WordIsSys.Statement (.alle3is rt) := fun _ h => sysWord_isSys h
theorem WordIsSys.alle3 (rt : BitVec 5) : WordIsSys.Statement (.alle3 rt) := fun _ h => sysWord_isSys h
theorem WordIsSys.vae3is (rt : BitVec 5) : WordIsSys.Statement (.vae3is rt) := fun _ h => sysWord_isSys h
theorem WordIsSys.vae3 (rt : BitVec 5) : WordIsSys.Statement (.vae3 rt) := fun _ h => sysWord_isSys h
theorem WordIsSys.vale3is (rt : BitVec 5) : WordIsSys.Statement (.vale3is rt) := fun _ h => sysWord_isSys h
theorem WordIsSys.vale3 (rt : BitVec 5) : WordIsSys.Statement (.vale3 rt) := fun _ h => sysWord_isSys h

end Sys2Proof.Laws
end

