-- ==== Sys2Proof/Laws/State.lean ====
section
/-! SUPPORT. One lemma for each field and each named update of State. -/

namespace Sys2Proof.Machine

@[simp] theorem setTlb_ttbr0El1 (s : State) (tlb : List TlbEntry) : (setTlb s tlb).ttbr0El1 = s.ttbr0El1 := rfl
@[simp] theorem setTlb_ttbr1El1 (s : State) (tlb : List TlbEntry) : (setTlb s tlb).ttbr1El1 = s.ttbr1El1 := rfl
@[simp] theorem setTlb_ttbr0El2 (s : State) (tlb : List TlbEntry) : (setTlb s tlb).ttbr0El2 = s.ttbr0El2 := rfl
@[simp] theorem setTlb_ttbr0El3 (s : State) (tlb : List TlbEntry) : (setTlb s tlb).ttbr0El3 = s.ttbr0El3 := rfl
@[simp] theorem setTlb_tcrEl1 (s : State) (tlb : List TlbEntry) : (setTlb s tlb).tcrEl1 = s.tcrEl1 := rfl
@[simp] theorem setTlb_tlb (s : State) (tlb : List TlbEntry) : (setTlb s tlb).tlb = tlb := rfl
@[simp] theorem setTlb_mem (s : State) (tlb : List TlbEntry) : (setTlb s tlb).mem = s.mem := rfl
@[simp] theorem setTlb_x (s : State) (tlb : List TlbEntry) : (setTlb s tlb).x = s.x := rfl
@[simp] theorem setTlb_inputs (s : State) (tlb : List TlbEntry) : (setTlb s tlb).inputs = s.inputs := rfl
@[simp] theorem setTlb_cfg (s : State) (tlb : List TlbEntry) : (setTlb s tlb).cfg = s.cfg := rfl
@[simp] theorem setTlb_requests (s : State) (tlb : List TlbEntry) : (setTlb s tlb).requests = s.requests := rfl
@[simp] theorem setTlb_response (s : State) (tlb : List TlbEntry) : (setTlb s tlb).response = s.response := rfl
@[simp] theorem setTlb_choices (s : State) (tlb : List TlbEntry) : (setTlb s tlb).choices = s.choices := rfl
@[simp] theorem setTlb_tick (s : State) (tlb : List TlbEntry) : (setTlb s tlb).tick = s.tick := rfl

@[simp] theorem setMem_ttbr0El1 (s : State) (m : Memory) : (setMem s m).ttbr0El1 = s.ttbr0El1 := rfl
@[simp] theorem setMem_ttbr1El1 (s : State) (m : Memory) : (setMem s m).ttbr1El1 = s.ttbr1El1 := rfl
@[simp] theorem setMem_ttbr0El2 (s : State) (m : Memory) : (setMem s m).ttbr0El2 = s.ttbr0El2 := rfl
@[simp] theorem setMem_ttbr0El3 (s : State) (m : Memory) : (setMem s m).ttbr0El3 = s.ttbr0El3 := rfl
@[simp] theorem setMem_tcrEl1 (s : State) (m : Memory) : (setMem s m).tcrEl1 = s.tcrEl1 := rfl
@[simp] theorem setMem_tlb (s : State) (m : Memory) : (setMem s m).tlb = s.tlb := rfl
@[simp] theorem setMem_mem (s : State) (m : Memory) : (setMem s m).mem = m := rfl
@[simp] theorem setMem_x (s : State) (m : Memory) : (setMem s m).x = s.x := rfl
@[simp] theorem setMem_inputs (s : State) (m : Memory) : (setMem s m).inputs = s.inputs := rfl
@[simp] theorem setMem_cfg (s : State) (m : Memory) : (setMem s m).cfg = s.cfg := rfl
@[simp] theorem setMem_requests (s : State) (m : Memory) : (setMem s m).requests = s.requests := rfl
@[simp] theorem setMem_response (s : State) (m : Memory) : (setMem s m).response = s.response := rfl
@[simp] theorem setMem_choices (s : State) (m : Memory) : (setMem s m).choices = s.choices := rfl
@[simp] theorem setMem_tick (s : State) (m : Memory) : (setMem s m).tick = s.tick := rfl

@[simp] theorem setRequests_ttbr0El1 (s : State) (rs : List Request) : (setRequests s rs).ttbr0El1 = s.ttbr0El1 := rfl
@[simp] theorem setRequests_ttbr1El1 (s : State) (rs : List Request) : (setRequests s rs).ttbr1El1 = s.ttbr1El1 := rfl
@[simp] theorem setRequests_ttbr0El2 (s : State) (rs : List Request) : (setRequests s rs).ttbr0El2 = s.ttbr0El2 := rfl
@[simp] theorem setRequests_ttbr0El3 (s : State) (rs : List Request) : (setRequests s rs).ttbr0El3 = s.ttbr0El3 := rfl
@[simp] theorem setRequests_tcrEl1 (s : State) (rs : List Request) : (setRequests s rs).tcrEl1 = s.tcrEl1 := rfl
@[simp] theorem setRequests_tlb (s : State) (rs : List Request) : (setRequests s rs).tlb = s.tlb := rfl
@[simp] theorem setRequests_mem (s : State) (rs : List Request) : (setRequests s rs).mem = s.mem := rfl
@[simp] theorem setRequests_x (s : State) (rs : List Request) : (setRequests s rs).x = s.x := rfl
@[simp] theorem setRequests_inputs (s : State) (rs : List Request) : (setRequests s rs).inputs = s.inputs := rfl
@[simp] theorem setRequests_cfg (s : State) (rs : List Request) : (setRequests s rs).cfg = s.cfg := rfl
@[simp] theorem setRequests_requests (s : State) (rs : List Request) : (setRequests s rs).requests = rs := rfl
@[simp] theorem setRequests_response (s : State) (rs : List Request) : (setRequests s rs).response = s.response := rfl
@[simp] theorem setRequests_choices (s : State) (rs : List Request) : (setRequests s rs).choices = s.choices := rfl
@[simp] theorem setRequests_tick (s : State) (rs : List Request) : (setRequests s rs).tick = s.tick := rfl

@[simp] theorem respond_ttbr0El1 (s : State) (r : Response) : (respond s r).ttbr0El1 = s.ttbr0El1 := rfl
@[simp] theorem respond_ttbr1El1 (s : State) (r : Response) : (respond s r).ttbr1El1 = s.ttbr1El1 := rfl
@[simp] theorem respond_ttbr0El2 (s : State) (r : Response) : (respond s r).ttbr0El2 = s.ttbr0El2 := rfl
@[simp] theorem respond_ttbr0El3 (s : State) (r : Response) : (respond s r).ttbr0El3 = s.ttbr0El3 := rfl
@[simp] theorem respond_tcrEl1 (s : State) (r : Response) : (respond s r).tcrEl1 = s.tcrEl1 := rfl
@[simp] theorem respond_tlb (s : State) (r : Response) : (respond s r).tlb = s.tlb := rfl
@[simp] theorem respond_mem (s : State) (r : Response) : (respond s r).mem = s.mem := rfl
@[simp] theorem respond_x (s : State) (r : Response) : (respond s r).x = s.x := rfl
@[simp] theorem respond_inputs (s : State) (r : Response) : (respond s r).inputs = s.inputs := rfl
@[simp] theorem respond_cfg (s : State) (r : Response) : (respond s r).cfg = s.cfg := rfl
@[simp] theorem respond_requests (s : State) (r : Response) : (respond s r).requests = s.requests := rfl
@[simp] theorem respond_response (s : State) (r : Response) : (respond s r).response = r := rfl
@[simp] theorem respond_choices (s : State) (r : Response) : (respond s r).choices = s.choices := rfl
@[simp] theorem respond_tick (s : State) (r : Response) : (respond s r).tick = s.tick := rfl

@[simp] theorem reportFault_ttbr0El1 (s : State) (f : Fault) : (reportFault s f).ttbr0El1 = s.ttbr0El1 := rfl
@[simp] theorem reportFault_ttbr1El1 (s : State) (f : Fault) : (reportFault s f).ttbr1El1 = s.ttbr1El1 := rfl
@[simp] theorem reportFault_ttbr0El2 (s : State) (f : Fault) : (reportFault s f).ttbr0El2 = s.ttbr0El2 := rfl
@[simp] theorem reportFault_ttbr0El3 (s : State) (f : Fault) : (reportFault s f).ttbr0El3 = s.ttbr0El3 := rfl
@[simp] theorem reportFault_tcrEl1 (s : State) (f : Fault) : (reportFault s f).tcrEl1 = s.tcrEl1 := rfl
@[simp] theorem reportFault_tlb (s : State) (f : Fault) : (reportFault s f).tlb = s.tlb := rfl
@[simp] theorem reportFault_mem (s : State) (f : Fault) : (reportFault s f).mem = s.mem := rfl
@[simp] theorem reportFault_x (s : State) (f : Fault) : (reportFault s f).x = s.x := rfl
@[simp] theorem reportFault_inputs (s : State) (f : Fault) : (reportFault s f).inputs = s.inputs := rfl
@[simp] theorem reportFault_cfg (s : State) (f : Fault) : (reportFault s f).cfg = s.cfg := rfl
@[simp] theorem reportFault_requests (s : State) (f : Fault) : (reportFault s f).requests = s.requests := rfl
@[simp] theorem reportFault_response (s : State) (f : Fault) : (reportFault s f).response = .fault f := rfl
@[simp] theorem reportFault_choices (s : State) (f : Fault) : (reportFault s f).choices = s.choices := rfl
@[simp] theorem reportFault_tick (s : State) (f : Fault) : (reportFault s f).tick = s.tick := rfl

@[simp] theorem takeRequest_ttbr0El1 (s : State) (inp : Inputs) (rest : List Request) : (takeRequest s inp rest).ttbr0El1 = s.ttbr0El1 := rfl
@[simp] theorem takeRequest_ttbr1El1 (s : State) (inp : Inputs) (rest : List Request) : (takeRequest s inp rest).ttbr1El1 = s.ttbr1El1 := rfl
@[simp] theorem takeRequest_ttbr0El2 (s : State) (inp : Inputs) (rest : List Request) : (takeRequest s inp rest).ttbr0El2 = s.ttbr0El2 := rfl
@[simp] theorem takeRequest_ttbr0El3 (s : State) (inp : Inputs) (rest : List Request) : (takeRequest s inp rest).ttbr0El3 = s.ttbr0El3 := rfl
@[simp] theorem takeRequest_tcrEl1 (s : State) (inp : Inputs) (rest : List Request) : (takeRequest s inp rest).tcrEl1 = s.tcrEl1 := rfl
@[simp] theorem takeRequest_tlb (s : State) (inp : Inputs) (rest : List Request) : (takeRequest s inp rest).tlb = s.tlb := rfl
@[simp] theorem takeRequest_mem (s : State) (inp : Inputs) (rest : List Request) : (takeRequest s inp rest).mem = s.mem := rfl
@[simp] theorem takeRequest_x (s : State) (inp : Inputs) (rest : List Request) : (takeRequest s inp rest).x = s.x := rfl
@[simp] theorem takeRequest_inputs (s : State) (inp : Inputs) (rest : List Request) : (takeRequest s inp rest).inputs = inp := rfl
@[simp] theorem takeRequest_cfg (s : State) (inp : Inputs) (rest : List Request) : (takeRequest s inp rest).cfg = s.cfg := rfl
@[simp] theorem takeRequest_requests (s : State) (inp : Inputs) (rest : List Request) : (takeRequest s inp rest).requests = rest := rfl
@[simp] theorem takeRequest_response (s : State) (inp : Inputs) (rest : List Request) : (takeRequest s inp rest).response = s.response := rfl
@[simp] theorem takeRequest_choices (s : State) (inp : Inputs) (rest : List Request) : (takeRequest s inp rest).choices = s.choices := rfl
@[simp] theorem takeRequest_tick (s : State) (inp : Inputs) (rest : List Request) : (takeRequest s inp rest).tick = s.tick := rfl

@[simp] theorem beginStep_ttbr0El1 (s : State) : (beginStep s).ttbr0El1 = s.ttbr0El1 := rfl
@[simp] theorem beginStep_ttbr1El1 (s : State) : (beginStep s).ttbr1El1 = s.ttbr1El1 := rfl
@[simp] theorem beginStep_ttbr0El2 (s : State) : (beginStep s).ttbr0El2 = s.ttbr0El2 := rfl
@[simp] theorem beginStep_ttbr0El3 (s : State) : (beginStep s).ttbr0El3 = s.ttbr0El3 := rfl
@[simp] theorem beginStep_tcrEl1 (s : State) : (beginStep s).tcrEl1 = s.tcrEl1 := rfl
@[simp] theorem beginStep_tlb (s : State) : (beginStep s).tlb = loseEntries (choiceOf s).lost s.tlb := rfl
@[simp] theorem beginStep_mem (s : State) : (beginStep s).mem = s.mem := rfl
@[simp] theorem beginStep_x (s : State) : (beginStep s).x = s.x := rfl
@[simp] theorem beginStep_inputs (s : State) : (beginStep s).inputs = s.inputs := rfl
@[simp] theorem beginStep_cfg (s : State) : (beginStep s).cfg = s.cfg := rfl
@[simp] theorem beginStep_requests (s : State) : (beginStep s).requests = s.requests := rfl
@[simp] theorem beginStep_response (s : State) : (beginStep s).response = s.response := rfl
@[simp] theorem beginStep_choices (s : State) : (beginStep s).choices = s.choices.tail := rfl
@[simp] theorem beginStep_tick (s : State) : (beginStep s).tick = s.tick + 1 := rfl

@[simp] theorem startRequest_ttbr0El1 (s : State) (inp : Inputs) (rest : List Request) : (startRequest s inp rest).ttbr0El1 = s.ttbr0El1 := rfl
@[simp] theorem startRequest_ttbr1El1 (s : State) (inp : Inputs) (rest : List Request) : (startRequest s inp rest).ttbr1El1 = s.ttbr1El1 := rfl
@[simp] theorem startRequest_ttbr0El2 (s : State) (inp : Inputs) (rest : List Request) : (startRequest s inp rest).ttbr0El2 = s.ttbr0El2 := rfl
@[simp] theorem startRequest_ttbr0El3 (s : State) (inp : Inputs) (rest : List Request) : (startRequest s inp rest).ttbr0El3 = s.ttbr0El3 := rfl
@[simp] theorem startRequest_tcrEl1 (s : State) (inp : Inputs) (rest : List Request) : (startRequest s inp rest).tcrEl1 = s.tcrEl1 := rfl
@[simp] theorem startRequest_tlb (s : State) (inp : Inputs) (rest : List Request) : (startRequest s inp rest).tlb = loseEntries (choiceOf s).lost s.tlb := rfl
@[simp] theorem startRequest_mem (s : State) (inp : Inputs) (rest : List Request) : (startRequest s inp rest).mem = s.mem := rfl
@[simp] theorem startRequest_x (s : State) (inp : Inputs) (rest : List Request) : (startRequest s inp rest).x = s.x := rfl
@[simp] theorem startRequest_inputs (s : State) (inp : Inputs) (rest : List Request) : (startRequest s inp rest).inputs = inp := rfl
@[simp] theorem startRequest_cfg (s : State) (inp : Inputs) (rest : List Request) : (startRequest s inp rest).cfg = s.cfg := rfl
@[simp] theorem startRequest_requests (s : State) (inp : Inputs) (rest : List Request) : (startRequest s inp rest).requests = rest := rfl
@[simp] theorem startRequest_response (s : State) (inp : Inputs) (rest : List Request) : (startRequest s inp rest).response = s.response := rfl
@[simp] theorem startRequest_choices (s : State) (inp : Inputs) (rest : List Request) : (startRequest s inp rest).choices = s.choices.tail := rfl
@[simp] theorem startRequest_tick (s : State) (inp : Inputs) (rest : List Request) : (startRequest s inp rest).tick = s.tick + 1 := rfl

@[simp] theorem idleStep_ttbr0El1 (s : State) : (idleStep s).ttbr0El1 = s.ttbr0El1 := rfl
@[simp] theorem idleStep_ttbr1El1 (s : State) : (idleStep s).ttbr1El1 = s.ttbr1El1 := rfl
@[simp] theorem idleStep_ttbr0El2 (s : State) : (idleStep s).ttbr0El2 = s.ttbr0El2 := rfl
@[simp] theorem idleStep_ttbr0El3 (s : State) : (idleStep s).ttbr0El3 = s.ttbr0El3 := rfl
@[simp] theorem idleStep_tcrEl1 (s : State) : (idleStep s).tcrEl1 = s.tcrEl1 := rfl
@[simp] theorem idleStep_tlb (s : State) : (idleStep s).tlb = loseEntries (choiceOf s).lost s.tlb := rfl
@[simp] theorem idleStep_mem (s : State) : (idleStep s).mem = s.mem := rfl
@[simp] theorem idleStep_x (s : State) : (idleStep s).x = s.x := rfl
@[simp] theorem idleStep_inputs (s : State) : (idleStep s).inputs = s.inputs := rfl
@[simp] theorem idleStep_cfg (s : State) : (idleStep s).cfg = s.cfg := rfl
@[simp] theorem idleStep_requests (s : State) : (idleStep s).requests = s.requests := rfl
@[simp] theorem idleStep_response (s : State) : (idleStep s).response = .idle := rfl
@[simp] theorem idleStep_choices (s : State) : (idleStep s).choices = s.choices.tail := rfl
@[simp] theorem idleStep_tick (s : State) : (idleStep s).tick = s.tick + 1 := rfl

@[simp] theorem writeX_ttbr0El1 (s : State) (t : BitVec 5) (v : DWord) : (writeX s t v).ttbr0El1 = s.ttbr0El1 := by
  unfold writeX; split <;> rfl
@[simp] theorem writeX_ttbr1El1 (s : State) (t : BitVec 5) (v : DWord) : (writeX s t v).ttbr1El1 = s.ttbr1El1 := by
  unfold writeX; split <;> rfl
@[simp] theorem writeX_ttbr0El2 (s : State) (t : BitVec 5) (v : DWord) : (writeX s t v).ttbr0El2 = s.ttbr0El2 := by
  unfold writeX; split <;> rfl
@[simp] theorem writeX_ttbr0El3 (s : State) (t : BitVec 5) (v : DWord) : (writeX s t v).ttbr0El3 = s.ttbr0El3 := by
  unfold writeX; split <;> rfl
@[simp] theorem writeX_tcrEl1 (s : State) (t : BitVec 5) (v : DWord) : (writeX s t v).tcrEl1 = s.tcrEl1 := by
  unfold writeX; split <;> rfl
@[simp] theorem writeX_tlb (s : State) (t : BitVec 5) (v : DWord) : (writeX s t v).tlb = s.tlb := by
  unfold writeX; split <;> rfl
@[simp] theorem writeX_mem (s : State) (t : BitVec 5) (v : DWord) : (writeX s t v).mem = s.mem := by
  unfold writeX; split <;> rfl
@[simp] theorem writeX_inputs (s : State) (t : BitVec 5) (v : DWord) : (writeX s t v).inputs = s.inputs := by
  unfold writeX; split <;> rfl
@[simp] theorem writeX_cfg (s : State) (t : BitVec 5) (v : DWord) : (writeX s t v).cfg = s.cfg := by
  unfold writeX; split <;> rfl
@[simp] theorem writeX_requests (s : State) (t : BitVec 5) (v : DWord) : (writeX s t v).requests = s.requests := by
  unfold writeX; split <;> rfl
@[simp] theorem writeX_response (s : State) (t : BitVec 5) (v : DWord) : (writeX s t v).response = s.response := by
  unfold writeX; split <;> rfl
@[simp] theorem writeX_choices (s : State) (t : BitVec 5) (v : DWord) : (writeX s t v).choices = s.choices := by
  unfold writeX; split <;> rfl
@[simp] theorem writeX_tick (s : State) (t : BitVec 5) (v : DWord) : (writeX s t v).tick = s.tick := by
  unfold writeX; split <;> rfl

@[simp] theorem writeSysReg_tlb (s : State) (w : SysRegWrite) : (writeSysReg s w).tlb = s.tlb := by cases w <;> rfl
@[simp] theorem writeSysReg_mem (s : State) (w : SysRegWrite) : (writeSysReg s w).mem = s.mem := by cases w <;> rfl
@[simp] theorem writeSysReg_x (s : State) (w : SysRegWrite) : (writeSysReg s w).x = s.x := by cases w <;> rfl
@[simp] theorem writeSysReg_inputs (s : State) (w : SysRegWrite) : (writeSysReg s w).inputs = s.inputs := by cases w <;> rfl
@[simp] theorem writeSysReg_cfg (s : State) (w : SysRegWrite) : (writeSysReg s w).cfg = s.cfg := by cases w <;> rfl
@[simp] theorem writeSysReg_requests (s : State) (w : SysRegWrite) : (writeSysReg s w).requests = s.requests := by cases w <;> rfl
@[simp] theorem writeSysReg_response (s : State) (w : SysRegWrite) : (writeSysReg s w).response = s.response := by cases w <;> rfl
@[simp] theorem writeSysReg_choices (s : State) (w : SysRegWrite) : (writeSysReg s w).choices = s.choices := by cases w <;> rfl
@[simp] theorem writeSysReg_tick (s : State) (w : SysRegWrite) : (writeSysReg s w).tick = s.tick := by cases w <;> rfl

/-- Register 31 reads as zero, every other number as its register. -/
theorem readX_eq (s : State) (t : BitVec 5) : readX s t = if h : t.toNat < 31 then s.x[t.toNat]'h else 0 := rfl

/-- What a register reads as depends on the registers alone. -/
theorem readX_congr {s t : State} (h : t.x = s.x) (r : BitVec 5) : readX t r = readX s r := by
  simp only [readX_eq, h]

/-- What is lost leaves a sublist. -/
theorem loseEntries_sublist (n : Nat) (tlb : List TlbEntry) : (loseEntries n tlb).Sublist tlb := by
  induction tlb generalizing n with
  | nil => exact .slnil
  | cons e es ih =>
    simp only [loseEntries]
    split
    · exact (ih _).cons _
    · exact (ih _).cons_cons _

end Sys2Proof.Machine
end

