-- ==== Sys2Proof/Laws/Tlbi.lean ====
section
/-! SUPPORT. The `TLBI` instruction: what every arm of `exec` does, its frame, and what its selection means. -/

namespace Sys2Proof.Machine

/-- The operation an instruction stands for; none for a text form whose name is not configured. -/
def instrOp : Instr → Option TlbiOp
  | .tlbi name _ => opOfName? name
  | .vmalle1is _ => some ⟨.vmalle1, true⟩
  | .vmalle1 _ => some ⟨.vmalle1, false⟩
  | .vae1is _ => some ⟨.vae1, true⟩
  | .vae1 _ => some ⟨.vae1, false⟩
  | .aside1is _ => some ⟨.aside1, true⟩
  | .aside1 _ => some ⟨.aside1, false⟩
  | .vaae1is _ => some ⟨.vaae1, true⟩
  | .vaae1 _ => some ⟨.vaae1, false⟩
  | .vale1is _ => some ⟨.vale1, true⟩
  | .vale1 _ => some ⟨.vale1, false⟩
  | .vaale1is _ => some ⟨.vaale1, true⟩
  | .vaale1 _ => some ⟨.vaale1, false⟩
  | .ipas2e1is _ => some ⟨.ipas2e1, true⟩
  | .ipas2e1 _ => some ⟨.ipas2e1, false⟩
  | .ipas2le1is _ => some ⟨.ipas2le1, true⟩
  | .ipas2le1 _ => some ⟨.ipas2le1, false⟩
  | .alle2is _ => some ⟨.alle2, true⟩
  | .alle2 _ => some ⟨.alle2, false⟩
  | .vae2is _ => some ⟨.vae2, true⟩
  | .vae2 _ => some ⟨.vae2, false⟩
  | .alle1is _ => some ⟨.alle1, true⟩
  | .alle1 _ => some ⟨.alle1, false⟩
  | .vale2is _ => some ⟨.vale2, true⟩
  | .vale2 _ => some ⟨.vale2, false⟩
  | .vmalls12e1is _ => some ⟨.vmalls12e1, true⟩
  | .vmalls12e1 _ => some ⟨.vmalls12e1, false⟩
  | .alle3is _ => some ⟨.alle3, true⟩
  | .alle3 _ => some ⟨.alle3, false⟩
  | .vae3is _ => some ⟨.vae3, true⟩
  | .vae3 _ => some ⟨.vae3, false⟩
  | .vale3is _ => some ⟨.vale3, true⟩
  | .vale3 _ => some ⟨.vale3, false⟩

/-- The register number an instruction carries; none for a text form without `<Xt>`. -/
def instrReg : Instr → Option (BitVec 5)
  | .tlbi _ xt => xt
  | .vmalle1is rt | .vmalle1 rt | .vae1is rt | .vae1 rt | .aside1is rt | .aside1 rt | .vaae1is rt | .vaae1 rt
  | .vale1is rt | .vale1 rt | .vaale1is rt | .vaale1 rt | .ipas2e1is rt | .ipas2e1 rt | .ipas2le1is rt | .ipas2le1 rt
  | .alle2is rt | .alle2 rt | .vae2is rt | .vae2 rt | .alle1is rt | .alle1 rt | .vale2is rt | .vale2 rt
  | .vmalls12e1is rt | .vmalls12e1 rt | .alle3is rt | .alle3 rt | .vae3is rt | .vae3 rt | .vale3is rt | .vale3 rt => some rt

/-- Every arm of `exec` is one `tlbi` of the instruction's operation and register, or the refusal of its name. -/
theorem exec_eq (i : Instr) (s : State) :
    exec i s =
      match instrOp i with
      | some op => tlbi op (textArg op (instrReg i) s) s
      | none => .refused .tlbiNameNotConfigured := by
  cases i <;> rfl

/-- Everything an instruction that completes does: it removes the selected entries from the TLB and nothing else. -/
theorem exec_next_iff (i : Instr) (s t : State) :
    exec i s = .next t ↔
      ∃ op, instrOp i = some op ∧ tlbiAllowed s op.kind = true ∧ t = invalidate op (textArg op (instrReg i) s) s := by
  rw [exec_eq]
  cases instrOp i with
  | none => exact ⟨fun h => (by injection h), fun ⟨op, h, _⟩ => (by injection h)⟩
  | some op =>
    by_cases ha : tlbiAllowed s op.kind = true
    · simp only [tlbi, if_pos ha]
      constructor
      · intro h; injection h with h; exact ⟨op, rfl, ha, h.symm⟩
      · rintro ⟨op', h1, -, h2⟩; injection h1 with h1; subst h1; rw [h2]
    · simp only [tlbi, if_neg ha]
      constructor
      · intro h; injection h
      · rintro ⟨op', h1, h2, -⟩; injection h1 with h1; subst h1; exact absurd h2 ha

/-- No instruction faults (40_tlb_tlbi.md R56). -/
theorem exec_ne_fault (i : Instr) (s : State) (f : Fault) : exec i s ≠ .fault f := by
  rw [exec_eq]
  cases instrOp i with
  | none => simp
  | some op => simp only [tlbi]; split <;> simp

/-- The `IS` form of an operation selects as the other does, under either table (60_exceptions.md R97). -/
theorem tlbiSelects_is (cfg : Config) (kind : TlbiKind) (is is' : Bool) (arg : Option DWord) (asid : Asid) (vmid : Vmid)
    (e : TlbEntry) : tlbiSelects cfg ⟨kind, is⟩ arg asid vmid e = tlbiSelects cfg ⟨kind, is'⟩ arg asid vmid e := rfl

/-- The entries left by an invalidation. -/
theorem invalidate_tlb (op : TlbiOp) (arg : Option DWord) (s : State) :
    (invalidate op arg s).tlb = s.tlb.filter fun e => !tlbiSelects s.cfg op arg s.inputs.asid s.inputs.vmid e := rfl

/-- An instruction that completes leaves a state that differs in the TLB only, which lost entries and kept the rest in order. -/
theorem exec_frame {i : Instr} {s t : State} (h : exec i s = .next t) : t = setTlb s t.tlb ∧ t.tlb.Sublist s.tlb := by
  obtain ⟨op, -, -, rfl⟩ := (exec_next_iff i s t).mp h
  exact ⟨rfl, List.filter_sublist⟩

/-- Where the privilege check is off every operation is allowed. -/
theorem tlbiAllowed_of_off (s : State) (k : TlbiKind) (h : s.cfg.tlbiPrivilege = false) : tlbiAllowed s k = true := by
  simp [tlbiAllowed, h]

/-- An operation of `E1` is allowed above EL0, one of `E2` at EL2 and EL3, one of `E3` at EL3 (GK6). -/
theorem tlbiAllowed_iff (s : State) (k : TlbiKind) :
    tlbiAllowed s k = true ↔
      (s.cfg.tlbiPrivilege = true → s.inputs.el ≠ .el0 ∧ (opLevel k = .el2 → s.inputs.el ≠ .el1) ∧ (opLevel k = .el3 → s.inputs.el = .el3)) := by
  unfold tlbiAllowed levelAllows
  cases s.cfg.tlbiPrivilege <;> cases s.inputs.el <;> cases k <;> simp [opLevel]

/-- `Covers` in numbers (R57). -/
theorem covers_iff (e : TlbEntry) (arg : DWord) :
    covers e arg = true ↔
      e.vaBase.toNat ≤ (argPage arg).toNat ∧ (argPage arg).toNat + 4096 ≤ e.vaBase.toNat + 2 ^ e.k := by
  simp [covers]

/-- Every operation name stands for its operation. -/
theorem opOfName?_opName (op : TlbiOp) : opOfName? (opName op) = some op := by
  obtain ⟨k, b⟩ := op
  cases k <;> cases b <;> decide

/-- Every operation is in the configured list. -/
theorem mem_allOps (op : TlbiOp) : op ∈ allOps := by
  obtain ⟨k, b⟩ := op
  cases k <;> cases b <;> decide

/-- A text that is no operation's name stands for none. -/
theorem opOfName?_eq_none (name : String) (h : ∀ op, opName op ≠ name) : opOfName? name = none := by
  simp only [opOfName?, List.find?_eq_none, decide_eq_true_eq]
  exact fun op _ => h op

end Sys2Proof.Machine
end

