-- ==== Sys2Proof/Laws/Translate.lean ====
section
/-! SUPPORT. What `Translate` and its parts can do, said once: the region, the entry used, the walk, the fill. -/

namespace Sys2Proof.Machine

/-- An entry matches exactly when R51 says so. -/
theorem entryMatches_iff (inp : Inputs) (e : TlbEntry) (ea : VAddr) (rg : Regime) :
    entryMatches inp e ea rg = true ↔
      e.regime = rg ∧ e.vaBase.toNat ≤ ea.toNat ∧ ea.toNat < e.vaBase.toNat + 2 ^ e.k ∧
      (rg = .el1and0 → e.asid = inp.asid ∧ e.vmid = inp.vmid) := by
  unfold entryMatches entrySize
  cases rg <;> simp [and_assoc]

/-- The entry used is in the TLB and matches. -/
theorem usedEntry_mem {c : Choice} {s : State} {r : Region} {e : TlbEntry} (h : usedEntry c s r = some e) :
    e ∈ s.tlb ∧ entryMatches s.inputs e r.ea r.regime = true := by
  unfold usedEntry at h
  split at h
  · cases h
  · have hm := List.mem_of_getElem? h
    simpa [matching, List.mem_filter] using hm

/-- With no matching entry none is used. -/
theorem usedEntry_none {c : Choice} {s : State} {r : Region}
    (h : ∀ e ∈ s.tlb, entryMatches s.inputs e r.ea r.regime = false) : usedEntry c s r = none := by
  cases hu : usedEntry c s r with
  | none => rfl
  | some e =>
    obtain ⟨h1, h2⟩ := usedEntry_mem hu
    rw [h e h1] at h2
    cases h2

/-! Regions. -/

/-- At EL2 and EL3 the effective address lies below 2^48 (41_va_regions.md R66). -/
theorem selectSingle_ea_lt {base : DWord} {g : Granule} {rg : Regime} {tag : Bool} {va : VAddr} {acc : AccessKind} {r : Region}
    (h : selectSingle base g rg tag va acc = .ok r) : r.ea.toNat < 2 ^ 48 ∧ r.regime = rg := by
  unfold selectSingle at h
  split at h
  · next hl =>
    injection h with h
    subst h
    refine ⟨?_, rfl⟩
    have hv := va.isLt
    unfold inLower at hl
    rw [sliceZeros_iff] at hl
    cases tag
    · simp only [topBit, eaLower, Bool.false_eq_true, if_false] at hl ⊢
      omega
    · simp only [topBit, eaLower, if_true] at hl ⊢
      rw [toNat_joined, toNat_field, BitVec.toNat_ofNat]
      omega
  · cases h

/-- The region of an access at EL0 or EL1 belongs to their regime. -/
theorem selectEl1and0_regime {s : State} {va : VAddr} {acc : AccessKind} {r : Region} (h : selectEl1and0 s va acc = .ok r) :
    r.regime = .el1and0 := by
  unfold selectEl1and0 at h
  split at h
  · split at h
    · split at h
      · injection h with h; subst h; rfl
      · cases h
    · split at h
      · injection h with h; subst h; rfl
      · cases h
    · cases h
    · cases h
  · cases h

/-- A region's regime is that of the access's level. -/
theorem selectRegion_regime {s : State} {va : VAddr} {acc : AccessKind} {el : EL} {r : Region}
    (h : selectRegion s va acc el = .ok r) : r.regime = regimeOf el := by
  cases el <;> simp only [selectRegion] at h
  · exact selectEl1and0_regime h
  · exact selectEl1and0_regime h
  · exact (selectSingle_ea_lt h).2
  · exact (selectSingle_ea_lt h).2

/-- A region's regime, and the range of its addresses. -/
theorem selectRegion_ok {s : State} {va : VAddr} {acc : AccessKind} {el : EL} {r : Region} (h : selectRegion s va acc el = .ok r) :
    (r.regime = .el1and0 ↔ el = .el0 ∨ el = .el1) ∧ (r.regime = .el1and0 ∨ r.ea.toNat < 2 ^ 48) := by
  cases el <;> simp only [selectRegion] at h
  · have := selectEl1and0_regime h; simp [this]
  · have := selectEl1and0_regime h; simp [this]
  · obtain ⟨h1, h2⟩ := selectSingle_ea_lt h; exact ⟨by simp [h2], .inr h1⟩
  · obtain ⟨h1, h2⟩ := selectSingle_ea_lt h; exact ⟨by simp [h2], .inr h1⟩

/-- The region of a translation with a meaning is the region selected, where the output size and the walk are given. -/
theorem translationRegion_ok_iff {s : State} {va : VAddr} {acc : AccessKind} {el : EL} {r : Region} :
    translationRegion s va acc el = .ok r ↔
      outSize s (regimeOf el) ≠ none ∧ selectRegion s va acc el = .ok r ∧ walkGiven s.cfg r = true := by
  unfold translationRegion
  cases outSize s (regimeOf el) with
  | none => exact ⟨fun h => (by cases h), fun h => absurd rfl h.1⟩
  | some w =>
    cases selectRegion s va acc el with
    | fault f => exact ⟨fun h => (by cases h), fun h => (by cases h.2.1)⟩
    | refused z => exact ⟨fun h => (by cases h), fun h => (by cases h.2.1)⟩
    | ok r' =>
      dsimp only
      split
      · next hw =>
        constructor
        · intro h; injection h with h; subst h; exact ⟨fun h => (by cases h), rfl, hw⟩
        · rintro ⟨-, h, -⟩; exact h
      · next hw =>
        constructor
        · intro h; cases h
        · rintro ⟨-, h, h3⟩; injection h with h; subst h; exact absurd h3 hw

/-- A region without a walk has no walk. -/
theorem missWalk_not_given {c : Choice} {s : State} {r : Region} {va : VAddr} {acc : AccessKind} {el : EL}
    (hs : outSize s r.regime ≠ none) (h : walkGiven s.cfg r = false) : missWalk c s r va acc el = .refused .walkNotGiven := by
  obtain ⟨hg, hn⟩ : sourceGeometry r = false ∧ (s.cfg.generalWalk = true → ¬ (1 ≤ tableCount r.granule r.n ∧ tableCount r.granule r.n ≤ 4)) := by
    simpa [walkGiven] using h
  unfold missWalk
  cases hw : outSize s r.regime with
  | none => exact absurd hw hs
  | some w =>
    simp only [hg, Bool.false_eq_true, if_false]
    split
    · next hgen =>
      have hn := hn hgen
      unfold walkGeneral
      split
      · rfl
      · next below hb => rw [if_pos (by omega)]
    · rfl

/-- Where the region selected has no meaning, the translation and the walk are refused alike. -/
theorem translationRegion_cases {s : State} {va : VAddr} {acc : AccessKind} {el : EL} {r : Region}
    (h : selectRegion s va acc el = .ok r) :
    translationRegion s va acc el = .ok r ∨
      ∃ z, translationRegion s va acc el = .refused z ∧ ∀ c, missWalk c s r va acc el = .refused z := by
  have hr := selectRegion_regime h
  unfold translationRegion
  cases hw : outSize s (regimeOf el) with
  | none => exact .inr ⟨_, rfl, fun c => by unfold missWalk; rw [hr, hw]⟩
  | some w =>
    rw [h]
    dsimp only
    cases hg : walkGiven s.cfg r with
    | true => exact .inl rfl
    | false => exact .inr ⟨_, rfl, fun c => missWalk_not_given (by rw [hr, hw]; exact fun h => nomatch h) hg⟩

/-! The translation. -/

/-- Everything `Translate` does once it has a region. -/
theorem translate_of_region {c : Choice} {s : State} {va : VAddr} {acc : AccessKind} {el : EL} {r : Region}
    (h : translationRegion s va acc el = .ok r) :
    translate c s va acc el =
      match usedEntry c s r with
      | some e => hitResult s e r.ea va acc el
      | none => missResult c s r va acc el := by
  unfold translate; rw [h]; try rfl

/-- A miss: the walk's outcome, refusals among them. -/
theorem translate_miss {c : Choice} {s : State} {va : VAddr} {acc : AccessKind} {el : EL} {r : Region}
    (h : selectRegion s va acc el = .ok r) (hu : usedEntry c s r = none) :
    translate c s va acc el = missResult c s r va acc el := by
  obtain ht | ⟨z, hz, hm⟩ := translationRegion_cases h
  · rw [translate_of_region ht, hu]
  · unfold translate missResult; rw [hz, hm c]

/-- A hit: the entry's outcome. -/
theorem translate_hit {c : Choice} {s : State} {va : VAddr} {acc : AccessKind} {el : EL} {r : Region} {e : TlbEntry}
    (h : translationRegion s va acc el = .ok r) (hu : usedEntry c s r = some e) :
    translate c s va acc el = hitResult s e r.ea va acc el := by
  rw [translate_of_region h, hu]

/-- A translation that does not fault was a hit on a permitting entry or a walk that did not fault. -/
theorem translate_ok {c : Choice} {s : State} {va : VAddr} {acc : AccessKind} {el : EL} {t : Translated}
    (h : translate c s va acc el = .ok t) :
    ∃ r, translationRegion s va acc el = .ok r ∧
      ((∃ e, usedEntry c s r = some e ∧ permits s.cfg e.attrs acc el = true ∧ t = ⟨hitAddress e r.ea, e.attrs, s.tlb⟩) ∨
       (usedEntry c s r = none ∧ ∃ wk, missWalk c s r va acc el = .ok wk ∧ t = ⟨wk.pa, wk.attrs, fill c s.inputs r wk s.tlb⟩)) := by
  unfold translate at h
  split at h
  · cases h
  · cases h
  · next r hr =>
    refine ⟨r, hr, ?_⟩
    split at h
    · next e he =>
      refine .inl ⟨e, he, ?_⟩
      unfold hitResult hitPermits at h
      split at h
      · next hp => injection h with h; exact ⟨hp, h.symm⟩
      · cases h
    · next he =>
      refine .inr ⟨he, ?_⟩
      unfold missResult at h
      split at h
      · cases h
      · cases h
      · next wk hw => injection h with h; exact ⟨wk, hw, h.symm⟩

/-- Adding an entry that is there changes nothing. -/
theorem addEntry_cases (e : TlbEntry) (tlb : List TlbEntry) :
    addEntry e tlb = tlb ∨ (e ∉ tlb ∧ addEntry e tlb = e :: tlb) := by
  unfold addEntry
  split
  · exact .inl rfl
  · next h => exact .inr ⟨h, rfl⟩

/-- An added entry is there. -/
theorem mem_addEntry (e : TlbEntry) (tlb : List TlbEntry) : e ∈ addEntry e tlb := by
  unfold addEntry
  split
  · assumption
  · simp

/-- A set made of a list holds no repeats, and exactly the entries of the list that have the form R21. -/
theorem entrySet_spec (es : List TlbEntry) :
    (entrySet es).Nodup ∧ ∀ e, e ∈ entrySet es ↔ e ∈ es ∧ EntryWf e := by
  have h : ∀ l : List TlbEntry, (l.foldr addEntry []).Nodup ∧ ∀ e, e ∈ l.foldr addEntry [] ↔ e ∈ l := by
    intro l
    induction l with
    | nil => simp
    | cons a l ih =>
      rw [List.foldr_cons]
      obtain h | ⟨hn, h⟩ := addEntry_cases a (l.foldr addEntry []) <;> rw [h]
      · refine ⟨ih.1, fun e => ?_⟩
        have ha := h ▸ mem_addEntry a (l.foldr addEntry [])
        rw [List.mem_cons, ih.2]
        exact ⟨.inr, fun he => he.elim (fun he => he ▸ (ih.2 a).mp ha) id⟩
      · exact ⟨List.nodup_cons.mpr ⟨hn, ih.1⟩, fun e => by rw [List.mem_cons, List.mem_cons, ih.2]⟩
  refine ⟨(h _).1, fun e => ?_⟩
  rw [entrySet, (h _).2, List.mem_filter, decide_eq_true_eq]

/-- Every well-formed TLB is the set made of some list: itself. -/
theorem entrySet_of_wf {tlb : List TlbEntry} (h : TlbWf tlb) : entrySet tlb = tlb := by
  have hf : tlb.filter (fun e => decide (EntryWf e)) = tlb := List.filter_eq_self.mpr fun e he => decide_eq_true (h.2 e he)
  rw [entrySet, hf]
  have hn := h.1
  clear h hf
  induction tlb with
  | nil => rfl
  | cons a l ih =>
    obtain ⟨h1, h2⟩ := List.nodup_cons.mp hn
    rw [List.foldr_cons, ih h2]
    exact if_neg h1

/-- The TLB after reset is well-formed, whatever it holds. -/
theorem resetTlb_wf : TlbWf resetTlb :=
  ⟨(entrySet_spec _).1, fun e he => (((entrySet_spec _).2 e).mp he).2⟩

/-- The TLB after a walk is the TLB before it, or that with one entry of the walk's. -/
theorem fill_cases (c : Choice) (inp : Inputs) (r : Region) (wk : WalkEnd) (tlb : List TlbEntry) :
    fill c inp r wk tlb = tlb ∨
      ∃ k, (k = wk.k ∨ wk.wide = some k) ∧ filledEntry inp r wk k ∉ tlb ∧ fill c inp r wk tlb = filledEntry inp r wk k :: tlb := by
  have hw : wk.wide.getD wk.k = wk.k ∨ wk.wide = some (wk.wide.getD wk.k) := by cases wk.wide <;> simp
  unfold fill
  cases c.fill with
  | none => exact .inl rfl
  | narrow => exact (addEntry_cases _ tlb).imp_right fun h => ⟨wk.k, .inl rfl, h⟩
  | wide => exact (addEntry_cases _ tlb).imp_right fun h => ⟨wk.wide.getD wk.k, hw, h⟩

/-! What a walk can return. -/

/-- The read of an entry does not fault. -/
theorem readEntry_cases (cfg : Config) (m : Memory) (a : PAddr) :
    (plain cfg a 8 = true ∧ readEntry cfg m a = .ok (memRead64 cfg m a)) ∨
    (plain cfg a 8 = false ∧ readEntry cfg m a = .refused (.walkOutsidePlainMemory a)) := by
  unfold readEntry
  cases plain cfg a 8 <;> simp

/-- The checks on an entry pass exactly when both hold. -/
theorem checkEntry_eq_none (q : WalkFor) (level : Nat) (p z : Bool) : checkEntry q level p z = none ↔ p = true ∧ z = true := by
  unfold checkEntry
  cases p <;> cases z <;> simp
  split <;> simp

/-- Entry `i` of the group the level 3 entry at `a` belongs to. -/
def groupEntry (cfg : Config) (m : Memory) (gb : Nat) (a : PAddr) (i : Nat) : DWord :=
  memRead64 cfg m (clearLow (gb + 3) a + BitVec.ofNat 48 (8 * i))

/-- A group is broken exactly when one of its entries is a marked page and one of them breaks a condition of R59. -/
theorem groupBroken_iff {cfg : Config} {m : Memory} {granule : Granule} {a : PAddr} {gb : Nat} (h : groupBits granule = some gb) :
    groupBroken cfg m granule a = true ↔
      (∃ i, i < 2 ^ gb ∧ markedPage cfg (groupEntry cfg m gb a i) = true) ∧
      ¬ (sliceZeros (groupEntry cfg m gb a 0) (granuleBits granule + gb - 1) (granuleBits granule) = true ∧
        ∀ i, i < 2 ^ gb → markedPage cfg (groupEntry cfg m gb a i) = true ∧
          entryAttrs cfg 3 false (groupEntry cfg m gb a i) = entryAttrs cfg 3 false (groupEntry cfg m gb a 0) ∧
          clearLow (granuleBits granule) (addrField (groupEntry cfg m gb a i)) =
            clearLow (granuleBits granule) (addrField (groupEntry cfg m gb a 0)) + BitVec.ofNat 48 (i * 2 ^ granuleBits granule)) := by
  have he : groupEntries cfg m gb a = (List.range (2 ^ gb)).map (groupEntry cfg m gb a) := rfl
  have hpos : 0 < 2 ^ gb := Nat.two_pow_pos gb
  have hc : ∀ g, groupConsistent cfg g gb ((List.range (2 ^ gb)).map (groupEntry cfg m gb a)) = true ↔
      sliceZeros (groupEntry cfg m gb a 0) (g + gb - 1) g = true ∧
        ∀ i, i < 2 ^ gb → markedPage cfg (groupEntry cfg m gb a i) = true ∧
          entryAttrs cfg 3 false (groupEntry cfg m gb a i) = entryAttrs cfg 3 false (groupEntry cfg m gb a 0) ∧
          clearLow g (addrField (groupEntry cfg m gb a i)) =
            clearLow g (addrField (groupEntry cfg m gb a 0)) + BitVec.ofNat 48 (i * 2 ^ g) := by
    intro g
    obtain ⟨n, hn⟩ : ∃ n, 2 ^ gb = n + 1 := ⟨2 ^ gb - 1, by omega⟩
    have hl : (List.range (2 ^ gb)).map (groupEntry cfg m gb a) =
        groupEntry cfg m gb a 0 :: ((List.range n).map fun i => groupEntry cfg m gb a (i + 1)) := by
      rw [hn, List.range_succ_eq_map, List.map_cons, List.map_map]; rfl
    unfold groupConsistent
    rw [hl]
    dsimp only
    rw [← hl, Bool.and_eq_true, List.all_eq_true]
    refine and_congr_right fun _ => ?_
    constructor
    · intro hh i hi
      have := hh (groupEntry cfg m gb a i, i) (by
        rw [List.mem_zipIdx_iff_getElem?]; simp [hi])
      simpa [and_assoc] using this
    · rintro hh ⟨d, i⟩ hm
      rw [List.mem_zipIdx_iff_getElem?] at hm
      simp only [List.getElem?_map, Option.map_eq_some_iff] at hm
      obtain ⟨j, hj, rfl⟩ := hm
      have hi := (List.getElem?_eq_some_iff.mp hj)
      obtain ⟨h1, h2⟩ := hi
      simp at h1 h2
      subst h2
      have := hh i h1
      simpa [and_assoc] using this
  unfold groupBroken
  rw [h]
  dsimp only
  rw [he, Bool.and_eq_true, Bool.not_eq_true', ← Bool.not_eq_true, hc, List.any_eq_true]
  simp only [List.mem_map, List.mem_range]
  refine and_congr_left fun _ => ?_
  constructor
  · rintro ⟨_, ⟨i, hi, rfl⟩, hp⟩; exact ⟨i, hi, hp⟩
  · rintro ⟨i, hi, hp⟩; exact ⟨_, ⟨i, hi, rfl⟩, hp⟩

/-- The end of a walk has a level of a table and a size between a page and the physical space. -/
def WalkEnd.Wf (wk : WalkEnd) : Prop :=
  wk.level ≤ 3 ∧ 12 ≤ wk.k ∧ wk.k ≤ 30 ∧ ∀ k, wk.wide = some k → 12 ≤ k ∧ k ≤ 21

theorem wideSize_le {cfg : Config} {g : Granule} {d : DWord} {k : Nat} (h : wideSize cfg g d = some k) : 12 ≤ k ∧ k ≤ 21 := by
  unfold wideSize at h
  cases g <;> simp only [groupBits] at h
  · split at h
    · injection h with h; subst h; decide
    · cases h
  · cases h
  · split at h
    · injection h with h; subst h; decide
    · cases h

theorem granuleBits_bounds (g : Granule) : 12 ≤ granuleBits g ∧ granuleBits g ≤ 16 := by cases g <;> decide

theorem walkLevel3_wf {cfg : Config} {m : Memory} {q : WalkFor} {d2 : DWord} {wk : WalkEnd}
    (h : walkLevel3 cfg m q d2 = .ok wk) : wk.Wf := by
  unfold walkLevel3 at h
  dsimp only at h
  split at h
  · cases h
  · cases h
  · split at h
    · cases h
    · split at h
      · cases h
      · split at h
        · cases h
        · injection h with h
          subst h
          exact ⟨Nat.le_of_ble_eq_true rfl, Nat.le_of_ble_eq_true rfl, Nat.le_of_ble_eq_true rfl, fun k hk => by dsimp only at hk; exact wideSize_le hk⟩

theorem walk64K42_wf {cfg : Config} {m : Memory} {ttbr : DWord} {q : WalkFor} {wk : WalkEnd}
    (h : walk64K42 cfg m ttbr q = .ok wk) : wk.Wf := by
  unfold walk64K42 at h
  dsimp only at h
  split at h
  · cases h
  · split at h
    · cases h
    · cases h
    · split at h
      · cases h
      · split at h
        · cases h
        · injection h with h
          subst h
          exact ⟨Nat.le_of_ble_eq_true rfl, Nat.le_of_ble_eq_true rfl, Nat.le_of_ble_eq_true rfl, fun k hk => nomatch hk⟩
      · split at h
        · cases h
        · exact walkLevel3_wf h

theorem walkTables_wf {cfg : Config} {m : Memory} {g : Granule} {n : Nat} {q : WalkFor} {below : Nat} {base : PAddr}
    {path : Attrs} {wk : WalkEnd} (h : walkTables cfg m g n q below base path = .ok wk) : wk.Wf := by
  induction below generalizing base path with
  | zero =>
    unfold walkTables at h
    split at h
    · cases h
    · cases h
    · split at h
      · cases h
      · split at h
        · cases h
        · split at h
          · cases h
          · injection h with h
            subst h
            have := granuleBits_bounds g
            refine ⟨Nat.le_refl 3, by dsimp only; omega, by dsimp only; omega, fun k hk => ?_⟩
            dsimp only at hk
            split at hk
            · exact wideSize_le hk
            · cases hk
  | succ below ih =>
    unfold walkTables at h
    split at h
    · cases h
    · cases h
    · split at h
      · cases h
      · split at h
        · next hb =>
          split at h
          · cases h
          · injection h with h
            subst h
            have hl : 12 ≤ indexLow g (below + 1) ∧ indexLow g (below + 1) ≤ 30 := by
              cases g <;> simp only [blockAllowed, Bool.or_eq_true, beq_iff_eq] at hb <;>
                simp only [indexLow, granuleBits] <;> omega
            exact ⟨by dsimp only; omega, hl.1, hl.2, fun k hk => nomatch hk⟩
        · cases h
      · split at h
        · cases h
        · exact ih h

/-- A miss in the region whose walk the source spells out. -/
theorem missWalk_source {c : Choice} {s : State} {r : Region} {va : VAddr} {acc : AccessKind} {el : EL} {w : Nat}
    (hw : outSize s r.regime = some w) (hg : sourceGeometry r = true) :
    missWalk c s r va acc el = walk64K42 s.cfg s.mem r.base ⟨va, r.ea, acc, el, w, c.sizeFirst⟩ := by
  unfold missWalk
  rw [hw]
  exact if_pos hg

/-- Every walk that does not fault ends in a well-formed end. -/
theorem missWalk_wf {c : Choice} {s : State} {r : Region} {va : VAddr} {acc : AccessKind} {el : EL} {wk : WalkEnd}
    (h : missWalk c s r va acc el = .ok wk) : wk.Wf := by
  unfold missWalk at h
  split at h
  · cases h
  · split at h
    · exact walk64K42_wf h
    · split at h
      · unfold walkGeneral at h
        split at h
        · cases h
        · split at h
          · cases h
          · split at h
            · cases h
            · exact walkTables_wf h
      · cases h

end Sys2Proof.Machine
end

