-- ==== Sys2Proof/Laws/Step.lean ====
section
/-! SUPPORT. Everything a step can do when it gives a next state, said once. -/

namespace Sys2Proof.Machine

/-- With an empty queue a step waits. -/
theorem step_idle {s : State} (h : s.requests = []) : step s = .next (idleStep s) := by
  unfold step; rw [h]

/-- With a request at the head of the queue a step performs it. -/
theorem step_request {s : State} {inp : Inputs} {a : Action} {rest : List Request} (h : s.requests = ⟨inp, a⟩ :: rest) :
    step s = perform (choiceOf s) a (startRequest s inp rest) := by
  unfold step; rw [h]

/-- An instruction step that gives a next state reports that it is done. -/
theorem reportDone_next {o : Host.Outcome State Fault Refusal} {t : State} (h : reportDone o = .next t) :
    ∃ u, o = .next u ∧ t = respond u .done := by
  cases o with
  | next u => injection h with h; exact ⟨u, rfl, h.symm⟩
  | fault f => cases h
  | refused z => cases h

/-- A word that runs decodes to an instruction that completes. -/
theorem runWord_next {w : IWord} {s t : State} (h : runWord w s = .next t) :
    ∃ i u, decodeWord w = .ok i ∧ exec i s = .next u ∧ t = respond u .done := by
  unfold runWord at h
  split at h
  · next i hi =>
    obtain ⟨u, h1, h2⟩ := reportDone_next h
    exact ⟨i, u, hi, h1, h2⟩
  · cases h

/-- What the performance of an action from `u` can leave, one constructor for each way it can end in a next state. -/
inductive Performed (c : Choice) (u : State) : Action → State → Prop
  | memWrite (pa : PAddr) (n value : Nat) :
      Performed c u (.memWrite pa n value)
        (respond (setMem u (memWrite u.cfg u.mem pa n (BitVec.ofNat (8 * n) value))) .done)
  | writeSysReg (w : SysRegWrite) : Performed c u (.writeSysReg w) (respond (Machine.writeSysReg u w) .done)
  | setX (r : BitVec 5) (v : DWord) : Performed c u (.setX r v) (respond (writeX u r v) .done)
  | instr (i : Instr) (t : State) (h : exec i u = .next t) : Performed c u (.instr i) (respond t .done)
  | instrWord (w : IWord) (i : Instr) (t : State) (hd : decodeWord w = .ok i) (h : exec i u = .next t) :
      Performed c u (.instrWord w) (respond t .done)
  | accessSplit (kind : AccessKind) (va : VAddr) (n value : Nat)
      (hn : roomInPage (splitBits u va kind u.inputs.el) va < n) :
      Performed c u (.access kind va n value)
        (splitAccess u kind va n value (roomInPage (splitBits u va kind u.inputs.el) va))
  | accessFault (kind : AccessKind) (va : VAddr) (n value : Nat) (f : Fault)
      (h : translate c u va kind u.inputs.el = .fault f) : Performed c u (.access kind va n value) (reportFault u f)
  | accessLoad (kind : AccessKind) (va : VAddr) (n value : Nat) (tr : Translated) (hk : kind ≠ .write)
      (h : translate c u va kind u.inputs.el = .ok tr) :
      Performed c u (.access kind va n value)
        (respond (setTlb u tr.tlb) (.loaded tr.pa tr.attrs (memRead u.cfg u.mem tr.pa n).toNat))
  | accessStore (va : VAddr) (n value : Nat) (tr : Translated)
      (h : translate c u va .write u.inputs.el = .ok tr) :
      Performed c u (.access .write va n value)
        (respond (setMem (setTlb u tr.tlb) (memWrite u.cfg u.mem tr.pa n (BitVec.ofNat (8 * n) value))) (.stored tr.pa tr.attrs))
  | fetchFault (va : VAddr) (f : Fault) (h : translate c u va .fetch u.inputs.el = .fault f) :
      Performed c u (.fetchExecute va) (reportFault u f)
  | fetchRun (va : VAddr) (tr : Translated) (i : Instr) (t : State)
      (h : translate c u va .fetch u.inputs.el = .ok tr) (hd : decodeWord (fetchedWord u.mem tr.pa) = .ok i)
      (he : exec i (setTlb u tr.tlb) = .next t) : Performed c u (.fetchExecute va) (respond t .done)

/-- A performance that gives a next state ends in one of those ways. -/
theorem perform_next {c : Choice} {a : Action} {u t : State} (h : perform c a u = .next t) : Performed c u a t := by
  cases a with
  | memWrite pa n value =>
    simp only [perform, requesterWrite] at h
    injection h with h; subst h; exact .memWrite pa n value
  | writeSysReg w => injection h with h; subst h; exact .writeSysReg w
  | setX r v => injection h with h; subst h; exact .setX r v
  | instr i =>
    obtain ⟨v, h1, rfl⟩ := reportDone_next (show reportDone (exec i u) = .next t from h)
    exact .instr i v h1
  | instrWord w =>
    obtain ⟨i, v, hd, h1, rfl⟩ := runWord_next (show runWord w u = .next t from h)
    exact .instrWord w i v hd h1
  | access kind va n value =>
    simp only [perform, access] at h
    split at h
    · unfold accessInPage at h
      split at h
      · split at h
        · next f hf => injection h with h; subst h; exact .accessFault kind va n value f hf
        · cases h
        · next tr htr =>
          cases kind with
          | write => injection h with h; subst h; exact .accessStore va n value tr htr
          | fetch => injection h with h; subst h; exact .accessLoad .fetch va n value tr (by decide) htr
          | read => injection h with h; subst h; exact .accessLoad .read va n value tr (by decide) htr
      · cases h
    · next hn => injection h with h; subst h; exact .accessSplit kind va n value (Nat.lt_of_not_le hn)
  | fetchExecute va =>
    simp only [perform, fetchExecute] at h
    split at h
    · unfold fetchRun at h
      split at h
      · split at h
        · next f hf => injection h with h; subst h; exact .fetchFault va f hf
        · cases h
        · next tr htr =>
          obtain ⟨i, v, hd, h1, rfl⟩ := runWord_next h
          exact .fetchRun va tr i v htr hd h1
      · cases h
    · cases h

/-- Everything a step can do: wait, or perform the request at the head of the queue. -/
theorem step_next {s t : State} (h : step s = .next t) :
    (s.requests = [] ∧ t = idleStep s) ∨
    ∃ inp a rest, s.requests = ⟨inp, a⟩ :: rest ∧ Performed (choiceOf s) (startRequest s inp rest) a t := by
  unfold step at h
  split at h
  · next hr => injection h with h; exact .inl ⟨hr, h.symm⟩
  · next r rest hr => exact .inr ⟨r.inputs, r.action, rest, hr, perform_next h⟩

end Sys2Proof.Machine
end

