-- ==== Sys2Proof/Tests/Slice0.lean ====
section
/-! SUPPORT. Tests against the vectors of 95_test_vectors.md and the tables of 30_encoding.md, and the witnesses of the statements. -/

namespace Sys2Proof.Tests
open Sys2Proof.Machine

/-! Helpers. -/

def putEntries (es : List (PAddr × DWord)) : Memory :=
  es.foldl (fun m p => memWrite defaultConfig m p.1 8 p.2) []

/-- The table memory of section 5 (S1, S2, S3), entries under instance G. -/
def sectionFive : List (PAddr × DWord) :=
  [(0x100008, 0x200003), (0x100010, 0x80000401), (0x202340, 0x43210403), (0x202348, 0x100000403),
   (0x30FFF8, 0x400003), (0x40FFF8, 0xFFFFFFFF0403)]

/-- Choices: a walk without a fill; a walk with a narrow or a wide fill; a hit on the first matching entry. -/
def walkOnly : Choice := ⟨0, none, .none, false⟩
def walkNarrow : Choice := ⟨0, none, .narrow, false⟩
def walkWide : Choice := ⟨0, none, .wide, false⟩
def hitFirst : Choice := ⟨0, some 0, .none, false⟩

/-- `CFG0` of section 2 over a table memory. -/
def cfg0 (es : List (PAddr × DWord)) : State :=
  { State.reset with
    tcrEl1 := ⟨22, 22, 5, 3, 3, 0⟩, ttbr0El1 := 0x100000, ttbr1El1 := 0x300000, inputs := ⟨.el1, 5, 0⟩, mem := putEntries es,
    tlb := [] }

def withSizes (t0 t1 : BitVec 6) (tag0 tag1 : Bool) : State :=
  { cfg0 [] with tcrEl1 := ⟨t0, t1, 5, 3, 3, 0⟩, cfg := { defaultConfig with tag0 := tag0, tag1 := tag1 } }

/-- A state about to take one request with one scripted choice. -/
def ask (c : Choice) (a : Action) (s : State) : State := { s with choices := [c], requests := [⟨s.inputs, a⟩] }

/-- Which address, or which fault, a translation gives. -/
def outcomeOf : Result Translated → PAddr ⊕ Fault ⊕ Refusal
  | .ok t => .inl t.pa
  | .fault f => .inr (.inl f)
  | .refused z => .inr (.inr z)

def run (c : Choice) (s : State) (va : VAddr) (acc : AccessKind) (el : EL) : PAddr ⊕ Fault ⊕ Refusal :=
  outcomeOf (translate c s va acc el)

def pa (a : PAddr) : PAddr ⊕ Fault ⊕ Refusal := .inl a
def ft (f : Fault) : PAddr ⊕ Fault ⊕ Refusal := .inr (.inl f)
def no (z : Refusal) : PAddr ⊕ Fault ⊕ Refusal := .inr (.inr z)

/-- Base, size and effective address of the region selected. -/
def regionOf (s : State) (va : VAddr) (el : EL) : Option (DWord × Nat × VAddr) :=
  match selectRegion s va .read el with
  | .ok r => some (r.base, r.n, r.ea)
  | .fault _ | .refused _ => none

def tlbAfter (o : Host.Outcome State Fault Refusal) : Option (List TlbEntry) := (nextState? o).map State.tlb
def reportOf (o : Host.Outcome State Fault Refusal) : Option Response := (nextState? o).map State.response

/-! Well-formed instructions: every check has an ill-formed term it refuses. -/

theorem test_wf_unknown_name : Instr.wf (.tlbi "VAE9" (some 0)) = false := by decide
theorem test_wf_missing_xt : Instr.wf (.tlbi "VAE1" none) = false := by decide
theorem test_wf_extra_xt : Instr.wf (.tlbi "VMALLE1" (some 0)) = false := by decide
theorem test_wf_good : Instr.wf (.tlbi "ASIDE1IS" (some 3)) = true := by decide

/-! Decoding: every row of R48, its word written field by field: op0 and L fixed, op1, CRn = 1000, CRm, op2, Rt. -/

theorem test_decode_vm_va_aside :
    decodeWord 0b1101010100001_000_1000_0011_000_11111#32 = .ok (.vmalle1is 31) ∧
    decodeWord 0b1101010100001_000_1000_0111_000_11111#32 = .ok (.vmalle1 31) ∧
    decodeWord 0b1101010100001_000_1000_0011_001_00001#32 = .ok (.vae1is 1) ∧
    decodeWord 0b1101010100001_000_1000_0111_001_00000#32 = .ok (.vae1 0) ∧
    decodeWord 0b1101010100001_000_1000_0011_010_00011#32 = .ok (.aside1is 3) ∧
    decodeWord 0b1101010100001_000_1000_0111_010_00011#32 = .ok (.aside1 3) := by decide
theorem test_decode_vaa_val_vaal :
    decodeWord 0b1101010100001_000_1000_0011_011_00100#32 = .ok (.vaae1is 4) ∧
    decodeWord 0b1101010100001_000_1000_0111_011_00001#32 = .ok (.vaae1 1) ∧
    decodeWord 0b1101010100001_000_1000_0011_101_00101#32 = .ok (.vale1is 5) ∧
    decodeWord 0b1101010100001_000_1000_0111_101_00110#32 = .ok (.vale1 6) ∧
    decodeWord 0b1101010100001_000_1000_0011_111_00111#32 = .ok (.vaale1is 7) ∧
    decodeWord 0b1101010100001_000_1000_0111_111_01000#32 = .ok (.vaale1 8) := by decide
theorem test_decode_ipas2 :
    decodeWord 0b1101010100001_100_1000_0000_001_01001#32 = .ok (.ipas2e1is 9) ∧
    decodeWord 0b1101010100001_100_1000_0100_001_01010#32 = .ok (.ipas2e1 10) ∧
    decodeWord 0b1101010100001_100_1000_0000_101_01011#32 = .ok (.ipas2le1is 11) ∧
    decodeWord 0b1101010100001_100_1000_0100_101_01100#32 = .ok (.ipas2le1 12) := by decide
theorem test_decode_el2_and_all :
    decodeWord 0b1101010100001_100_1000_0011_000_11111#32 = .ok (.alle2is 31) ∧
    decodeWord 0b1101010100001_100_1000_0111_000_11111#32 = .ok (.alle2 31) ∧
    decodeWord 0b1101010100001_100_1000_0011_001_01101#32 = .ok (.vae2is 13) ∧
    decodeWord 0b1101010100001_100_1000_0111_001_01110#32 = .ok (.vae2 14) ∧
    decodeWord 0b1101010100001_100_1000_0011_100_11111#32 = .ok (.alle1is 31) ∧
    decodeWord 0b1101010100001_100_1000_0111_100_11111#32 = .ok (.alle1 31) := by decide
theorem test_decode_el2_more :
    decodeWord 0b1101010100001_100_1000_0011_101_01111#32 = .ok (.vale2is 15) ∧
    decodeWord 0b1101010100001_100_1000_0111_101_10000#32 = .ok (.vale2 16) ∧
    decodeWord 0b1101010100001_100_1000_0011_110_11111#32 = .ok (.vmalls12e1is 31) ∧
    decodeWord 0b1101010100001_100_1000_0111_110_11111#32 = .ok (.vmalls12e1 31) := by decide
theorem test_decode_el3 :
    decodeWord 0b1101010100001_110_1000_0011_000_11111#32 = .ok (.alle3is 31) ∧
    decodeWord 0b1101010100001_110_1000_0111_000_11111#32 = .ok (.alle3 31) ∧
    decodeWord 0b1101010100001_110_1000_0011_001_10001#32 = .ok (.vae3is 17) ∧
    decodeWord 0b1101010100001_110_1000_0111_001_10010#32 = .ok (.vae3 18) ∧
    decodeWord 0b1101010100001_110_1000_0011_101_10011#32 = .ok (.vale3is 19) ∧
    decodeWord 0b1101010100001_110_1000_0111_101_11110#32 = .ok (.vale3 30) := by decide

/-- The words of section 8 (I1 to I9). -/
theorem test_decode_section_eight :
    decodeWord 0xD5088761#32 = .ok (.vaae1 1) ∧ decodeWord 0xD5088743#32 = .ok (.aside1 3) ∧
    decodeWord 0xD50C871F#32 = .ok (.alle2 31) ∧ decodeWord 0xD50E871F#32 = .ok (.alle3 31) ∧
    decodeWord 0xD50C879F#32 = .ok (.alle1 31) := by decide

/-- Words that are no listed `TLBI` are rejected by name: an unlisted (op1, CRm, op2), another CRn, a word of other bits. -/
theorem test_decode_rejects :
    decodeWord 0b1101010100001_000_1000_0111_100_00000#32 = .error (.unlistedTlbi 0 7 4) ∧
    decodeWord 0b1101010100001_000_0111_0111_001_00000#32 = .error .notTlbi ∧
    decodeWord 0#32 = .error .notTlbi ∧ decode [0x1F, 0x87, 0x08] = .error .truncated := by decide

/-- No two rows of the encoding table overlap. -/
theorem test_rows_disjoint :
    (encodingRows.map fun r => (r.op1, r.crm, r.op2)).Nodup := by decide

theorem test_encode : encode (.vmalle1 31) = some 0xD508871F ∧ encode (.vae1 0) = some 0xD5088720 ∧ encode (.tlbi "VAE1" none) = none := by
  decide

/-! Regions (section 3). -/

theorem test_A1 : regionOf (withSizes 22 22 false false) 0x00000123456789AB .el1 = some (0x100000, 22, 0x00000123456789AB) := by decide
theorem test_A2 : regionOf (withSizes 22 22 false false) 0xFFFFFE0000010000 .el1 = some (0x300000, 22, 0xFFFFFE0000010000) := by decide
theorem test_A3 : run walkOnly (withSizes 22 22 false false) 0x0000040000000000 .read .el1 = ft (.vaRange 0x0000040000000000 .read) := by decide
theorem test_A4_A5 :
    regionOf (withSizes 22 22 false false) 0x000003FFFFFFFFFF .el1 = some (0x100000, 22, 0x000003FFFFFFFFFF) ∧
    regionOf (withSizes 22 22 false false) 0xFFFFFC0000000000 .el1 = some (0x300000, 22, 0xFFFFFC0000000000) := by decide
theorem test_A6 : run walkOnly (withSizes 22 22 false false) 0xFFFFFBFFFFFFFFFF .read .el1 = ft (.vaRange 0xFFFFFBFFFFFFFFFF .read) := by decide
theorem test_A7_A8 :
    regionOf (withSizes 16 16 false false) 0x0000800000000000 .el1 = some (0x100000, 16, 0x0000800000000000) ∧
    run walkOnly (withSizes 16 16 false false) 0x0001000000000000 .read .el1 = ft (.vaRange 0x0001000000000000 .read) := by decide
theorem test_A9_A10 :
    regionOf (withSizes 22 22 true false) 0xAB00000000001000 .el1 = some (0x100000, 22, 0x1000) ∧
    run walkOnly (withSizes 22 22 false false) 0xAB00000000001000 .read .el1 = ft (.vaRange 0xAB00000000001000 .read) := by decide
theorem test_A11 : regionOf (withSizes 22 22 false true) 0x5AFFFFFFFFFF0000 .el1 = some (0x300000, 22, 0xFFFFFFFFFFFF0000) := by decide
theorem test_A13_A14 :
    regionOf (withSizes 22 22 true false) 0xFF00000000001000 .el1 = some (0x100000, 22, 0x1000) ∧
    run walkOnly (withSizes 22 22 true true) 0x0080000000000000 .read .el1 = ft (.vaRange 0x0080000000000000 .read) := by decide
theorem test_A15_A16 :
    regionOf (withSizes 22 16 false false) 0xFFFF000000000000 .el1 = some (0x300000, 16, 0xFFFF000000000000) ∧
    run walkOnly (withSizes 22 16 false false) 0x0000040000000000 .read .el1 = ft (.vaRange 0x0000040000000000 .read) := by decide
theorem test_A19_A20_A21 :
    regionOf (cfg0 []) 0x0000FFFFFFFFFFFF .el2 = some (0, 16, 0x0000FFFFFFFFFFFF) ∧
    run walkOnly (cfg0 []) 0x0001000000000000 .read .el2 = ft (.vaRange 0x0001000000000000 .read) ∧
    run walkOnly (cfg0 []) 0xFFFFFFFFFFFF0000 .read .el3 = ft (.vaRange 0xFFFFFFFFFFFF0000 .read) := by decide

/-! Fields (section 4). -/

theorem test_B1_B2 :
    granuleOfTG0 defaultConfig 0 = some .kb4 ∧ granuleOfTG0 defaultConfig 1 = some .kb16 ∧
    granuleOfTG0 defaultConfig 3 = some .kb64 ∧ granuleOfTG0 defaultConfig 2 = none := by decide
theorem test_B4_B5_B6 :
    outBitsOfIPS defaultConfig 0 = some 32 ∧ outBitsOfIPS defaultConfig 5 = some 48 ∧ outBitsOfIPS defaultConfig 2 = none := by decide
/-- An IPS value not listed refuses every translation at EL0 and EL1: a hit, and an address in no region (R49). -/
theorem test_ips_not_listed :
    run hitFirst { cfg0 [] with tlb := [⟨0x40000000, 29, 0x80000000, [], 5, 0, .el1and0, 2⟩], tcrEl1 := ⟨22, 22, 2, 3, 3, 0⟩ }
      0x41234567 .read .el1 = no .ipsNotListed ∧
    run walkOnly { cfg0 [] with tcrEl1 := ⟨22, 22, 2, 3, 3, 0⟩ } 0x0000040000000000 .read .el0 = no .ipsNotListed := by decide
/-- Without the extension of R85 a translation in a 48-bit region is refused, on a hit too (D26). -/
theorem test_walk_not_given :
    run hitFirst { cfg0 [] with tlb := [⟨0x40000000, 29, 0x80000000, [], 5, 0, .el1and0, 2⟩], tcrEl1 := ⟨16, 16, 5, 3, 3, 0⟩,
                                cfg := sourceConfig } 0x41234567 .read .el1 = no .walkNotGiven := by decide
theorem test_B8 : run walkOnly (withSizes 0 22 false false) 0 .read .el1 = no .txszOutOfBounds := by decide
/-- The positions of GK1. -/
theorem test_tcr_word : TcrEl1.ofWord 0x00000005C016C016 = ⟨22, 22, 5, 3, 3, 0⟩ := by decide

/-! Walks (section 5). -/

theorem test_S1 : run walkOnly (cfg0 sectionFive) 0x41234567 .read .el1 = pa 0x81234567 := by decide
theorem test_S2 : run walkOnly (cfg0 sectionFive) 0x2468ACE0 .read .el1 = pa 0x4321ACE0 := by decide
theorem test_S3 : run walkOnly (cfg0 sectionFive) 0xFFFFFFFFFFFFFFF8 .read .el1 = pa 0xFFFFFFFFFFF8 := by decide

theorem test_S4_S5 :
    run walkOnly (cfg0 sectionFive) 0x60000000 .read .el1 = ft (.translation 2 0x60000000 .read) ∧
    run walkOnly (cfg0 sectionFive) 0x20010000 .read .el1 = ft (.translation 3 0x20010000 .read) := by decide
/-- Bits [63:48] and [15:0] of the base register are ignored. -/
theorem test_S6 : run walkOnly { cfg0 sectionFive with ttbr0El1 := 0x0005000000101234 } 0x2468ACE0 .read .el1 = pa 0x4321ACE0 := by decide
theorem test_S7 :
    run walkOnly { cfg0 sectionFive with cfg := { defaultConfig with tag0 := true } } 0xAB0000002468ACE0 .read .el1 = pa 0x4321ACE0 := by decide

/-- `CFG0` with IPS = 000. -/
def ips32 (es : List (PAddr × DWord)) : State := { cfg0 es with tcrEl1 := ⟨22, 22, 0, 3, 3, 0⟩ }

/-- An output address, a base register and a next-level table address beyond 32 bits (S9, S11, S12). -/
theorem test_S9_S11_S12 :
    run walkOnly (ips32 sectionFive) 0x2469ACE0 .read .el1 = ft (.addressSize (some 3) 0x2469ACE0 .read) ∧
    run walkOnly { ips32 sectionFive with ttbr0El1 := 0x100100000 } 0x2468ACE0 .read .el1 = ft (.addressSize none 0x2468ACE0 .read) ∧
    run walkOnly (ips32 ((0x100020, 0x100200003) :: sectionFive)) 0x80000000 .read .el1 = ft (.addressSize (some 2) 0x80000000 .read) := by
  decide
theorem test_S10 : run walkOnly (cfg0 sectionFive) 0x2469ACE0 .read .el1 = pa 0x10000ACE0 := by decide

/-- The bytes of an entry in memory, in both byte orders (section 5). -/
theorem test_entry_bytes :
    readBytes (putEntries sectionFive) 0x100010 8 = [0x01, 0x04, 0x00, 0x80, 0, 0, 0, 0] ∧
    readBytes (memWrite { defaultConfig with descBigEndian := true } [] 0x202340 8 0x43210403#64) 0x202340 8 =
      [0, 0, 0, 0, 0x43, 0x21, 0x04, 0x03] := by decide
theorem test_byte_removed : Memory.write [(4, 7)] 4 0 = [] ∧ Memory.wf (putEntries sectionFive) = true := by decide

/-- The geometry of R85 at 48 bits (GK8): levels 0 to 3 indexed by [47:39], [38:30], [29:21], [20:12] with 4KB; 16KB starts at
level 0 with [47]; 64KB starts at level 1 with [47:42]. -/
theorem test_geometry :
    tableCount .kb4 16 = 4 ∧ indexLow .kb4 3 = 39 ∧ indexWidth .kb4 16 3 = 9 ∧ indexLow .kb4 2 = 30 ∧ indexLow .kb4 0 = 12 ∧
    tableCount .kb16 16 = 4 ∧ indexLow .kb16 3 = 47 ∧ indexWidth .kb16 16 3 = 1 ∧ indexLow .kb16 2 = 36 ∧
    tableCount .kb64 16 = 3 ∧ indexLow .kb64 2 = 42 ∧ indexWidth .kb64 16 2 = 6 ∧ tableCount .kb64 22 = 2 := by decide

/-- A 4KB walk of one 1GB block from level 1: `ea[38:30]` = 1 at T0SZ = 25 (R85, by hand). -/
theorem test_walk_4KB_block :
    run walkOnly { cfg0 [(0x100008, 0x80000401)] with tcrEl1 := ⟨25, 25, 5, 0, 0, 0⟩ } 0x45678ABC .read .el1 = pa 0x85678ABC := by decide

/-! Faults (section 6). -/

/-- Entries with the page of F3 added. -/
def sectionSix : List (PAddr × DWord) := (0x202350, 0x55550483) :: sectionFive

theorem test_F2 : run walkOnly (cfg0 sectionFive) 0x2468ACE0 .read .el0 = ft (.permission 3 0x2468ACE0 .read) := by decide
theorem test_F3 :
    run walkOnly (cfg0 sectionSix) 0x246A0000 .write .el1 = ft (.permission 3 0x246A0000 .write) ∧
    run walkOnly (cfg0 sectionSix) 0x246A0000 .read .el1 = pa 0x55550000 := by decide
/-- Either fault is reported, as the free choice says. -/
theorem test_F4 :
    run walkOnly (ips32 sectionFive) 0x2469ACE0 .read .el0 = ft (.permission 3 0x2469ACE0 .read) ∧
    run { walkOnly with sizeFirst := true } (ips32 sectionFive) 0x2469ACE0 .read .el0 = ft (.addressSize (some 3) 0x2469ACE0 .read) := by
  decide
/-- The codes of GK13: `0b0001LL` translation, `0b0011LL` permission, `0b0000LL` address size. -/
theorem test_status_codes :
    faultStatusCode (.vaRange 0 .read) = 0b000100 ∧ faultStatusCode (.translation 3 0 .read) = 0b000111 ∧
    faultStatusCode (.permission 2 0 .read) = 0b001110 ∧ faultStatusCode (.addressSize (some 1) 0 .read) = 0b000001 := by decide

/-! The TLB (section 7). -/

/-- The attributes of S1's block: read and write at EL1, nothing at EL0. -/
def blockAttrs : Attrs := [⟨2, false, 0x400⟩]
/-- T1's entry. -/
def entryT : TlbEntry := ⟨0x40000000, 29, 0x80000000, blockAttrs, 5, 0, .el1and0, 2⟩
def stateT (es : List (PAddr × DWord)) : State := { cfg0 es with tlb := [entryT] }

theorem test_T1 :
    run hitFirst (stateT sectionFive) 0x41234567 .read .el1 = pa 0x81234567 ∧
    run walkOnly (stateT sectionFive) 0x41234567 .read .el1 = pa 0x81234567 := by decide
/-- A stale hit and the walk. -/
theorem test_T2 :
    run hitFirst (stateT [(0x100010, 0xC0000401)]) 0x41234567 .read .el1 = pa 0x81234567 ∧
    run walkOnly (stateT [(0x100010, 0xC0000401)]) 0x41234567 .read .el1 = pa 0xC1234567 := by decide
theorem test_T3 :
    run hitFirst { stateT [(0x100010, 0xC0000401)] with inputs := ⟨.el1, 6, 0⟩ } 0x41234567 .read .el1 = pa 0xC1234567 := by decide
theorem test_T5 : run hitFirst (stateT sectionFive) 0x60000000 .read .el1 = ft (.translation 2 0x60000000 .read) := by decide
theorem test_T6 : tlbAfter (step { stateT [] with choices := [⟨1, none, .none, false⟩] }) = some [] := by decide
theorem test_T7 : run hitFirst (stateT sectionFive) 0x41234567 .write .el0 = ft (.permission 2 0x41234567 .write) := by decide
/-- The fill after S1 (R54). -/
theorem test_fill_S1 : tlbAfter (step (ask walkNarrow (.access .read 0x41234567 4 0) (cfg0 sectionFive))) = some [entryT] := by decide

/-! `TLBI` (section 8). -/

def e1 : TlbEntry := ⟨0x24680000, 16, 0x43210000, blockAttrs, 5, 0, .el1and0, 3⟩
def e2 : TlbEntry := ⟨0x40000000, 29, 0x80000000, blockAttrs, 7, 0, .el1and0, 2⟩
def e3 : TlbEntry := ⟨0, 29, 0, blockAttrs, 0, 0, .el2, 2⟩
/-- The start state of section 8 with a value in one register, the word then issued. -/
def afterWord (w : IWord) (rt : BitVec 5) (v : DWord) : Option (List TlbEntry) :=
  tlbAfter (step (ask walkOnly (.instrWord w) (writeX { cfg0 [] with tlb := [e1, e2, e3] } rt v)))

theorem test_I1_I2 : afterWord 0xD508871F 31 0 = some [e3] ∧ afterWord 0xD508831F 31 0 = some [e3] := by decide
theorem test_I3 : afterWord 0xD5088720 0 0x000500000002468A = some [e2, e3] := by decide
theorem test_I4 : afterWord 0xD5088720 0 0x000700000002468A = some [e1, e2, e3] := by decide
theorem test_I5 : afterWord 0xD5088761 1 0x0000000000041234 = some [e1, e3] := by decide
theorem test_I6 : afterWord 0xD5088743 3 0x0007000000000000 = some [e1, e3] := by decide
theorem test_I7_I8 : afterWord 0xD50C871F 31 0 = some [e1, e2] ∧ afterWord 0xD50E871F 31 0 = some [e1, e2, e3] := by decide
theorem test_I9 : afterWord 0xD50C879F 31 0 = some [e3] := by decide
theorem test_I10 :
    tlbAfter (exec (.vmalle1 31) { cfg0 [] with tlb := [e1, e2, e3], inputs := ⟨.el1, 5, 1⟩ }) = some [e1, e2, e3] := by decide
theorem test_I11 : refusal? (exec (.tlbi "VAE9" none) (cfg0 [])) = some .tlbiNameNotConfigured := by decide
/-- The text form: the source's own row. -/
theorem test_text_form :
    tlbAfter (exec (.tlbi "ASIDE1IS" (some 3)) (writeX { cfg0 [] with tlb := [e1, e2, e3] } 3 0x0007000000000000)) = some [e1, e3] := by
  decide
/-- `arg` of R56: none where `<Xt>` is absent, and where the operation takes none. -/
theorem test_text_arg :
    textArg ⟨.vae1, false⟩ none (cfg0 []) = none ∧ textArg ⟨.alle1, false⟩ (some 3) (cfg0 []) = none ∧
    textArg ⟨.vae1, false⟩ (some 3) (writeX (cfg0 []) 3 7) = some 7 := by decide
/-- An EL2 operation by address: `VAE2` with page 0x1000 (R57, by hand). -/
theorem test_vae2 : tlbAfter (exec (.vae2 4) (writeX { cfg0 [] with tlb := [e1, e2, e3] } 4 0x1)) = some [e1, e2] := by decide

/-! Contiguous entries (section 9). -/

/-- The 32 pages of the group at index 0x800: entry `i` is 0x0010_0000_5000_0403 + i x 0x1_0000. -/
def groupWords : List DWord := (List.range 32).map fun i => BitVec.ofNat 64 (0x0010000050000403 + i * 0x10000)

/-- The group in memory, cell by cell, below the level 2 table entry of section 9. -/
def groupMemory : Memory :=
  [(0x100008, 0x03), (0x10000A, 0x20)] ++ (List.range 32).flatMap fun i =>
    [(0x204000 + 8 * i, 0x03), (0x204001 + 8 * i, 0x04)] ++ (if i = 0 then [] else [(0x204002 + 8 * i, BitVec.ofNat 8 i)]) ++
    [(0x204003 + 8 * i, 0x50), (0x204006 + 8 * i, 0x10)]

def groupState : State := { cfg0 [] with mem := groupMemory }

theorem test_group_memory : Memory.wf groupMemory = true ∧ memRead64 defaultConfig groupMemory 0x204098 = 0x0010000050130403 := by
  decide +kernel
/-- The walk of K1 ends in a marked page, so the wide fill of K2 is allowed. -/
theorem test_K1 :
    walk64K42 defaultConfig groupMemory 0x100000 ⟨0x28134568, 0x28134568, .read, .el1, 48, false⟩ =
      .ok ⟨0x50134568, [⟨2, true, 0⟩, ⟨3, false, 0x0010000000000400⟩], 3, 16, some 21⟩ := by decide +kernel
/-- The wide entry of K2. -/
def wideEntry : TlbEntry := ⟨0x28000000, 21, 0x50000000, [⟨2, true, 0⟩, ⟨3, false, 0x0010000000000400⟩], 5, 0, .el1and0, 3⟩
theorem test_K2 :
    fill walkWide (cfg0 []).inputs ⟨0x100000, 22, .kb64, .el1and0, 0x28134568⟩
      ⟨0x50134568, [⟨2, true, 0⟩, ⟨3, false, 0x0010000000000400⟩], 3, 16, some 21⟩ [] = [wideEntry] := by decide
theorem test_K3 : run hitFirst { cfg0 [] with tlb := [wideEntry] } 0x281FFFF0 .read .el1 = pa 0x501FFFF0 := by decide
/-- K5: entry 0x805 rewritten alone breaks condition 4 of R59. -/
theorem test_K5 :
    groupConsistent defaultConfig 16 5 groupWords = true ∧
    groupConsistent defaultConfig 16 5 (groupWords.set 5 0x0010000077770403) = false := by decide +kernel

/-! Programs (section 10). -/

/-- P4 steps 1 and 2: a store through one virtual address is read through another that shares the second table. -/
theorem test_P4 :
    (match step (ask walkOnly (.access .write 0x2468ACE0 8 0x1122334455667788) (cfg0 ((0x100018, 0x200003) :: sectionFive))) with
     | .next t => reportOf (step (ask walkOnly (.access .read 0x6468ACE0 8 0) t))
     | .fault _ | .refused _ => none) =
      some (.loaded 0x4321ACE0 [⟨2, true, 0⟩, ⟨3, false, 0x400⟩] 0x1122334455667788) := by decide
/-- An access across a 64KB boundary is split (R33, D5). -/
theorem test_split : reportOf (step (ask walkOnly (.access .read 0x2468FFFE 4 0) (cfg0 sectionFive))) = some .split := by decide
/-- The host's question: a word placed as the next request runs from reset. -/
theorem test_from_reset : isNext (step (State.reset.withFetchWord 32 0xD508871F)) = true := by decide

/-! WITNESSES. For each statement with hypotheses, a state and operands that meet all of them together, clause by clause. -/

/-- A state that asks for one action. -/
def asking (a : Action) : State := ask walkOnly a (cfg0 sectionFive)
/-- The privilege check of GK6 switched on, at a level. -/
def checked (el : EL) : State := { State.reset with cfg := { defaultConfig with tlbiPrivilege := true }, inputs := ⟨el, 0, 0⟩ }

theorem witness_UnlistedWordIsRefused :
    (asking (.instrWord 0)).requests = ⟨⟨.el1, 5, 0⟩, .instrWord 0⟩ :: [] ∧ ∀ i, encode i ≠ some 0 := by
  refine ⟨rfl, fun i h => ?_⟩
  have hp : (0 : IWord).extractLsb 31 19 = sysPrefix := by
    unfold encode at h
    split at h
    · cases h
    · exact (Laws.sysWord_isSys h).1
  revert hp; decide

/-- The premises of the seven statements about `TLBI` selections, every level clause with the check on. -/
theorem witness_TlbiSelections :
    (checked .el3).cfg.tlbiTable = .armv8 ∧ (checked .el3).cfg.tlbiPrivilege = true ∧ (checked .el3).inputs.el = .el3 ∧
    (checked .el2).inputs.el = .el2 ∧ (checked .el1).inputs.el ≠ .el0 ∧ State.reset.cfg.tlbiPrivilege = false := by decide
theorem witness_TextFormRunsTheNamedOperation :
    tlbiAllowed (checked .el3) .vae3 = true ∧ ∀ op, opName op ≠ "VAE9" := by
  refine ⟨by decide, ?_⟩
  rintro ⟨k, b⟩; cases k <;> cases b <;> decide
theorem witness_TlbiNext : ∃ t, exec (.vmalle1 31) (stateT []) = .next t := ⟨_, rfl⟩
theorem witness_TlbiBelowItsLevelIsRefused :
    (checked .el0).cfg.tlbiPrivilege = true ∧ (checked .el0).inputs.el = .el0 ∧
    opLevel .vae2 = .el2 ∧ (checked .el1).inputs.el = .el1 ∧ opLevel .vae3 = .el3 ∧ (checked .el2).inputs.el ≠ .el3 := by decide
theorem witness_AfterVmalle1EveryAccessWalks :
    ∃ t, exec (.vmalle1 31) (stateT []) = .next t ∧
      selectRegion t 0x41234567 .read .el1 = .ok ⟨0x100000, 22, .kb64, .el1and0, 0x41234567⟩ := ⟨_, rfl, by decide⟩
/-- `X0` holds ASID 5 and the page of the address. -/
theorem witness_AfterVae1ThePageWalks :
    ∃ t, exec (.vae1 0) (writeX (stateT []) 0 0x0005000000041234) = .next t ∧
      selectRegion t 0x41234567 .read .el1 = .ok ⟨0x100000, 22, .kb64, .el1and0, 0x41234567⟩ ∧
      (readX (writeX (stateT []) 0 0x0005000000041234) 0).extractLsb 63 48 = (stateT []).inputs.asid ∧
      clearLow 12 (0x41234567 : VAddr) =
        BitVec.signExtend 64 ((readX (writeX (stateT []) 0 0x0005000000041234) 0).extractLsb 43 0 ++ 0#12) :=
  ⟨_, rfl, by decide, by decide, by decide⟩
theorem witness_AfterVae1_inv :
    (writeX (stateT []) 0 0x0005000000041234).Inv ∧ ∀ e ∈ (writeX (stateT []) 0 0x0005000000041234).tlb, 12 ≤ e.k := by decide

theorem witness_StepRunsTheDecodedInstruction :
    (asking (.instrWord 0xD508871F)).requests = ⟨⟨.el1, 5, 0⟩, .instrWord 0xD508871F⟩ :: [] ∧
    decodeWord 0xD508871F#32 = .ok (.vmalle1 31) ∧
    (∃ t, exec (.vmalle1 31) (startRequest (asking (.instrWord 0xD508871F)) ⟨.el1, 5, 0⟩ []) = .next t) ∧
    exec (.vmalle1 31) (checked .el0) = .refused .tlbiUndefinedAtLevel := ⟨rfl, by decide, ⟨_, rfl⟩, rfl⟩
/-- The source's text form, issued as a term. -/
theorem witness_StepRunsTheDecodedInstruction_term :
    (asking (.instr (.tlbi "ALLE1" none))).requests = ⟨⟨.el1, 5, 0⟩, .instr (.tlbi "ALLE1" none)⟩ :: [] ∧
    reportOf (step (asking (.instr (.tlbi "ALLE1" none)))) = some .done := by decide
/-- A TLB of two entries, and the sublist without the first. -/
theorem witness_EverySubsetMayBeLost :
    [e1].Sublist ({ stateT [] with tlb := [entryT, e1] } : State).tlb ∧ (stateT []).requests = [] :=
  ⟨.cons _ (.cons_cons _ .slnil), rfl⟩
theorem witness_PlacedInstructionRunsNext :
    decodeTableWord 32 0xD508871F = some (.vmalle1 31) ∧
    ∃ t, exec (.vmalle1 31) (startRequest (State.reset.withFetchWord 32 0xD508871F) State.reset.inputs State.reset.requests) = .next t :=
  ⟨by decide, ⟨_, rfl⟩⟩

/-- `TLBI VMALLE1` in memory at the physical address of S2, and the fetch of it. -/
def fetching (va : VAddr) : State :=
  let s := asking (.fetchExecute va)
  { s with mem := memWrite defaultConfig s.mem 0x4321ACE0 4 0xD508871F#32, tlb := [entryT] }
theorem witness_FetchedInstructionRuns :
    groupPremise walkOnly (fetching 0x2468ACE0) 0x2468ACE0 .fetch .el1 = true ∧
    translate walkOnly (fetching 0x2468ACE0) 0x2468ACE0 .fetch .el1 =
      .ok ⟨0x4321ACE0, [⟨2, true, 0⟩, ⟨3, false, 0x400⟩], [entryT]⟩ ∧
    decodeWord (fetchedWord (fetching 0x2468ACE0).mem 0x4321ACE0) = .ok (.vmalle1 31) := by decide
theorem witness_FetchedInstructionRuns_step : tlbAfter (step (fetching 0x2468ACE0)) = some [] := by decide
theorem witness_FetchedInstructionRuns_fault :
    groupPremise walkOnly (fetching 0x60000000) 0x60000000 .fetch .el1 = true ∧
    translate walkOnly (fetching 0x60000000) 0x60000000 .fetch .el1 = .fault (.translation 2 0x60000000 .fetch) := by decide

/-- A fetch that is refused, a word that is no `TLBI`, and a misaligned fetch. -/
theorem witness_FetchedInstructionRuns_refused :
    translate walkOnly { fetching 0 with tcrEl1 := ⟨22, 22, 2, 3, 3, 0⟩ } 0 .fetch .el1 = .refused .ipsNotListed ∧
    decodeWord (fetchedWord (fetching 0x2468ACE4).mem 0x4321ACE4) = .error .notTlbi ∧
    refusal? (step (fetching 0x2468ACE4)) = some (.undecoded .notTlbi) ∧
    refusal? (step (fetching 0x2468ACE2)) = some .fetchMisaligned := by decide
/-- A step that gives a next state, one that reports a fault, one that changes neither a register nor memory. -/
theorem witness_StepNext : ∃ t, step State.reset = .next t ∧ State.reset.requests = [] := ⟨_, rfl, rfl⟩
theorem witness_FaultChangesNothing :
    reportOf (step (asking (.access .read 0x60000000 4 0))) = some (.fault (.translation 2 0x60000000 .read)) := by decide
theorem witness_StepKeepsTheInvariant : (stateT sectionFive).Inv := by decide
theorem witness_StepKeepsTheInvariant_step : ∃ t, step { stateT sectionFive with choices := [walkOnly] } = .next t := ⟨_, rfl⟩
theorem witness_Requests :
    (asking (.writeSysReg (.ttbr0El1 7))).requests = ⟨⟨.el1, 5, 0⟩, .writeSysReg (.ttbr0El1 7)⟩ :: [] ∧
    (asking (.setX 3 7)).requests = ⟨⟨.el1, 5, 0⟩, .setX 3 7⟩ :: [] := ⟨rfl, rfl⟩

/-- The premises on TxSZ, with the first and last address of each region (A4, A5, A17, A18). -/
theorem witness_Regions_bounds :
    9 ≤ (cfg0 []).cfg.txszMin ∧ (cfg0 []).cfg.txszMin ≤ (cfg0 []).tcrEl1.t0sz.toNat ∧ (cfg0 []).tcrEl1.t0sz.toNat ≤ (cfg0 []).cfg.txszMax ∧
    (cfg0 []).cfg.granuleOfTG0.get (cfg0 []).tcrEl1.tg0.toFin = some .kb64 ∧
    (cfg0 []).cfg.granuleOfTG1.get (cfg0 []).tcrEl1.tg1.toFin = some .kb64 := by decide
theorem witness_LowerRegionUsesTtbr0 :
    ∀ i, 64 - (cfg0 []).tcrEl1.t0sz.toNat ≤ i → i ≤ (if (cfg0 []).cfg.tag0 then 55 else 63) → (0x000003FFFFFFFFFF : VAddr).getLsbD i = false := by
  intro i h1 h2
  have h1 : 42 ≤ i := h1
  have h2 : i ≤ 63 := h2
  interval_cases i <;> rfl
theorem witness_UpperRegionUsesTtbr1 :
    ∀ i, 64 - (cfg0 []).tcrEl1.t1sz.toNat ≤ i → i ≤ (if (cfg0 []).cfg.tag1 then 55 else 63) → (0xFFFFFC0000000000 : VAddr).getLsbD i = true := by
  intro i h1 h2
  have h1 : 42 ≤ i := h1
  have h2 : i ≤ 63 := h2
  interval_cases i <;> rfl
theorem witness_El2AndEl3UseOneRegion :
    ∀ i, 48 ≤ i → i ≤ (if (cfg0 []).cfg.tagEl2 then 55 else 63) → (0x0000FFFFFFFFFFFF : VAddr).getLsbD i = false := by
  intro i h1 h2
  have h2 : i ≤ 63 := h2
  interval_cases i <;> rfl
/-- A3 and A6 at EL1, A20 at EL2 and EL3: the lowest and the highest address of no region. -/
theorem witness_AddressInNoRegionFaults :
    ((0x0000040000000000 : VAddr).getLsbD 42 = true ∧ (0x0000040000000000 : VAddr).getLsbD 63 = false) ∧
    ((0xFFFFFBFFFFFFFFFF : VAddr).getLsbD 63 = true ∧ (0xFFFFFBFFFFFFFFFF : VAddr).getLsbD 42 = false) ∧
    (0x0001000000000000 : VAddr).getLsbD 48 = true ∧ (cfg0 []).cfg.outBitsOfIPS.get (cfg0 []).tcrEl1.ips.toFin ≠ none := by decide
/-- Tagging on everywhere, and two addresses that differ in the tag byte. -/
def tagged : State :=
  { cfg0 sectionFive with cfg := { defaultConfig with tag0 := true, tag1 := true, tagEl2 := true, tagEl3 := true } }
/-- Addresses that differ in the tag byte, with an address, a fault of the walk, and VARange as outcome. -/
theorem witness_TagByteIsIgnored :
    (0xAB0000002468ACE0 : VAddr).extractLsb 55 0 = (0x000000002468ACE0 : VAddr).extractLsb 55 0 ∧
    run walkOnly tagged 0xAB0000002468ACE0 .read .el1 = pa 0x4321ACE0 ∧
    run walkOnly tagged 0xAB00000060000000 .read .el1 = ft (.translation 2 0xAB00000060000000 .read) ∧
    run walkOnly tagged 0xAB80000000000000 .read .el1 = ft (.vaRange 0xAB80000000000000 .read) := by decide
/-- Tagging on in one region only (A9, A11), bit 55 saying which. -/
theorem witness_TagByteIsIgnored_one_region :
    9 ≤ (withSizes 22 22 true false).cfg.txszMin ∧ (0xAB00000000001000 : VAddr).getLsbD 55 = false ∧
    regionOf (withSizes 22 22 true false) 0xAB00000000001000 .el1 = some (0x100000, 22, 0x1000) ∧
    (0x5AFFFFFFFFFF0000 : VAddr).getLsbD 55 = true ∧
    regionOf (withSizes 22 22 false true) 0x5AFFFFFFFFFF0000 .el1 = some (0x300000, 22, 0xFFFFFFFFFFFF0000) := by decide

/-- The first clause at `TXSZ_MIN - 1` and `TXSZ_MAX + 1`, in either field. -/
theorem witness_UnlistedFieldsAreRefused_bounds :
    (withSizes 15 22 false false).tcrEl1.t0sz.toNat + 1 = (withSizes 15 22 false false).cfg.txszMin ∧
    (withSizes 40 22 false false).tcrEl1.t0sz.toNat = (withSizes 40 22 false false).cfg.txszMax + 1 ∧
    (withSizes 22 15 false false).tcrEl1.t1sz.toNat + 1 = (withSizes 22 15 false false).cfg.txszMin ∧
    (withSizes 22 40 false false).tcrEl1.t1sz.toNat = (withSizes 22 40 false false).cfg.txszMax + 1 ∧
    defaultConfig.outBitsOfIPS.get (withSizes 15 22 false false).tcrEl1.ips.toFin ≠ none := by decide
/-- A granule in either region, and an IPS value. -/
theorem witness_UnlistedFieldsAreRefused :
    (inLower false 22 0 = true ∧ inUpper false 22 0 = false ∧ defaultConfig.granuleOfTG0.get (2 : BitVec 2).toFin = none) ∧
    (inLower false 22 (-1) = false ∧ inUpper false 22 (-1) = true ∧ defaultConfig.granuleOfTG1.get (2 : BitVec 2).toFin = none) ∧
    txszLegal defaultConfig 22 = true ∧ defaultConfig.outBitsOfIPS.get (2 : BitVec 3).toFin = none := by decide
/-- The last clause, all its hypotheses together: a 48-bit region without the marked extension. -/
def sourceOnly : State := { cfg0 [] with tcrEl1 := ⟨16, 16, 5, 3, 3, 0⟩, cfg := sourceConfig }
theorem witness_UnlistedFieldsAreRefused_walk :
    selectRegion sourceOnly 0 .read .el1 = .ok ⟨0x100000, 16, .kb64, .el1and0, 0⟩ ∧
    sourceOnly.cfg.outBitsOfIPS.get sourceOnly.tcrEl1.ips.toFin ≠ none ∧ sourceOnly.cfg.generalWalk = false ∧ ¬ (Granule.kb64 = .kb64 ∧ 16 = 22) := by decide
/-- Sizes without a walk under the extension: more than four tables, and none (bounds wider than the reset ones). -/
def wideBounds (n : BitVec 6) : State :=
  { cfg0 [] with tcrEl1 := ⟨n, n, 5, 0, 0, 0⟩, cfg := { defaultConfig with txszMin := 9, txszMax := 63 } }
theorem witness_UnlistedFieldsAreRefused_levels :
    selectRegion (wideBounds 15) 0 .read .el1 = .ok ⟨0x100000, 15, .kb4, .el1and0, 0⟩ ∧ tableCount .kb4 15 = 5 ∧
    selectRegion (wideBounds 52) 0 .read .el1 = .ok ⟨0x100000, 52, .kb4, .el1and0, 0⟩ ∧ tableCount .kb4 52 = 0 := by decide
/-- The start of the walk at 48 bits, with 4, 4 and 3 tables (R85), and at the boundary sizes of one table. -/
theorem witness_GeneralWalk_start :
    3 * (12 - 3) < 64 - 16 - 12 ∧ 64 - 16 - 12 ≤ 4 * (12 - 3) ∧ 3 * (14 - 3) < 64 - 16 - 14 ∧ 64 - 16 - 14 ≤ 4 * (14 - 3) ∧
    2 * (16 - 3) < 64 - 16 - 16 ∧ 64 - 16 - 16 ≤ 3 * (16 - 3) ∧ 0 * (12 - 3) < 64 - 51 - 12 ∧ 64 - 43 - 12 ≤ 1 * (12 - 3) := by decide
/-- A 4KB table chain: a table at level 1, a block at level 2, and a page at level 3 beside it. -/
def mem4 : Memory := putEntries [(0x100000, 0x200003), (0x200008, 0x80200401), (0x200010, 0x300003), (0x300008, 0x55550403)]
theorem witness_GeneralWalk_entries :
    (entryAddr .kb4 25 2 0x100000 0x201000 = 0x100000 ∧ memRead64 defaultConfig mem4 0x100000 = 0x200003 ∧
      upperKind defaultConfig 1 0x200003 = .table) ∧
    (entryAddr .kb4 25 1 0x200000 0x201000 = 0x200008 ∧ memRead64 defaultConfig mem4 0x200008 = 0x80200401 ∧
      upperKind defaultConfig 2 0x80200401 = .block) ∧
    (entryAddr .kb4 25 0 0x300000 0x401000 = 0x300008 ∧ memRead64 defaultConfig mem4 0x300008 = 0x55550403 ∧
      lastKind defaultConfig 0x55550403 = .page ∧ groupBroken defaultConfig mem4 .kb4 0x300008 = false) ∧
    upperKind defaultConfig 0 0x80200401 = .block := by decide
/-- The walks of that chain (R85, by hand): the block and the page. -/
theorem test_walk_4KB_chain :
    run walkOnly { cfg0 [] with mem := mem4, tcrEl1 := ⟨25, 25, 5, 0, 0, 0⟩ } 0x201234 .read .el1 = pa 0x80201234 ∧
    run walkOnly { cfg0 [] with mem := mem4, tcrEl1 := ⟨25, 25, 5, 0, 0, 0⟩ } 0x401ABC .read .el1 = pa 0x55550ABC := by decide
/-- A first table of level 3 smaller than a contiguous group holds none (log 21). -/
theorem test_group_fits :
    groupFits .kb64 43 = true ∧ groupFits .kb64 44 = false ∧ groupFits .kb4 48 = true ∧ groupFits .kb4 49 = false := by decide
theorem witness_GeneralWalkIsTheSourceWalk :
    selectRegion (withSizes 16 16 false false) 0 .read .el1 = .ok ⟨0x100000, 16, .kb64, .el1and0, 0⟩ ∧
    selectRegion (cfg0 []) 0 .read .el2 = .ok ⟨0, 16, .kb64, .el2, 0⟩ ∧ selectRegion (cfg0 []) 0 .read .el3 = .ok ⟨0, 16, .kb64, .el3, 0⟩ ∧
    (cfg0 []).cfg.generalWalk = true ∧ (cfg0 []).cfg.outBitsOfIPS.get (cfg0 []).tcrEl1.ips.toFin = some 48 := by decide

/-- The walks: S1 and S2. -/
def walkOf (va : VAddr) (acc : AccessKind) (el : EL) (w : Nat) : WalkFor := ⟨va, va, acc, el, w, false⟩
def mem5 : Memory := putEntries sectionFive
theorem witness_BlockEndsTheWalkAtLevelTwo :
    memRead64 defaultConfig mem5 0x100010 = 0x80000401 ∧ inSize 48 (0x100000 : PAddr) = true ∧ plain defaultConfig 0x100010 8 = true ∧
    upperKind defaultConfig 2 0x80000401 = .block ∧ permitsAt defaultConfig 2 false 0x80000401 .read .el1 = true ∧
    inSize 48 (0x80000401 : PAddr) = true := by decide
theorem witness_PageEndsTheWalkAtLevelThree :
    memRead64 defaultConfig mem5 0x100008 = 0x200003 ∧ memRead64 defaultConfig mem5 0x202340 = 0x43210403 ∧
    plain defaultConfig 0x100008 8 = true ∧ plain defaultConfig 0x202340 8 = true ∧
    upperKind defaultConfig 2 0x200003 = .table ∧ permitsAt defaultConfig 2 true 0x200003 .read .el1 = true ∧
    groupBroken defaultConfig mem5 .kb64 0x202340 = false ∧ lastKind defaultConfig 0x43210403 = .page ∧
    permitsAt defaultConfig 3 false 0x43210403 .read .el1 = true ∧ inSize 48 (0x43210403 : PAddr) = true := by decide
/-- First lookup, entries in memory: an invalid one, a block, a table beyond 32 bits, a block beyond 32 bits; and a base beyond it. -/
def firstLookup : Memory := putEntries [(0x100010, 0x80000401), (0x100020, 0x100200003), (0x100028, 0x180000401)]
theorem witness_FaultsOfTheFirstLookup :
    inSize 32 (0x100100000 : PAddr) = false ∧ inSize 32 (0x100000 : PAddr) = true ∧ plain defaultConfig 0x100018 8 = true ∧
    upperKind defaultConfig 2 (memRead64 defaultConfig firstLookup 0x100018) = .invalid ∧
    (memRead64 defaultConfig firstLookup 0x100010 = 0x80000401 ∧ upperKind defaultConfig 2 0x80000401 = .block ∧
      permitsAt defaultConfig 2 false 0x80000401 .read .el0 = false ∧ inSize 32 (0x80000401 : PAddr) = true) ∧
    (memRead64 defaultConfig firstLookup 0x100020 = 0x100200003 ∧ upperKind defaultConfig 2 0x100200003 = .table ∧
      permitsAt defaultConfig 2 true 0x100200003 .read .el1 = true ∧ inSize 32 (0x100200003 : PAddr) = false) ∧
    (memRead64 defaultConfig firstLookup 0x100028 = 0x180000401 ∧ upperKind defaultConfig 2 0x180000401 = .block ∧
      permitsAt defaultConfig 2 false 0x180000401 .read .el0 = false ∧ inSize 32 (0x180000401 : PAddr) = false) := by decide
/-- Second lookup, the table entry and then an invalid entry, a page without permission, a page beyond 32 bits at EL1 and at EL0. -/
theorem witness_FaultsOfTheSecondLookup :
    memRead64 defaultConfig mem5 0x100008 = 0x200003 ∧ inSize 32 (0x100000 : PAddr) = true ∧ inSize 32 (0x200003 : PAddr) = true ∧
    (lastKind defaultConfig (memRead64 defaultConfig mem5 0x200008) = .invalid ∧ groupBroken defaultConfig mem5 .kb64 0x200008 = false) ∧
    (memRead64 defaultConfig mem5 0x202340 = 0x43210403 ∧ groupBroken defaultConfig mem5 .kb64 0x202340 = false ∧
      permitsAt defaultConfig 3 false 0x43210403 .read .el0 = false ∧ inSize 32 (0x43210403 : PAddr) = true) ∧
    (memRead64 defaultConfig mem5 0x202348 = 0x100000403 ∧ lastKind defaultConfig 0x100000403 = .page ∧
      permitsAt defaultConfig 3 false 0x100000403 .read .el1 = true ∧ inSize 32 (0x100000403 : PAddr) = false) ∧
    permitsAt defaultConfig 3 false 0x100000403 .read .el0 = false := by decide

/-- A hit that permits and one that does not (T1, T7). -/
theorem witness_HitUsesTheEntryAlone :
    selectRegion (stateT []) 0x41234567 .read .el1 = .ok ⟨0x100000, 22, .kb64, .el1and0, 0x41234567⟩ ∧
    usedEntry hitFirst (stateT []) ⟨0x100000, 22, .kb64, .el1and0, 0x41234567⟩ = some entryT ∧
    defaultConfig.outBitsOfIPS.get (5 : BitVec 3).toFin = some 48 ∧ defaultConfig.outBitsOfIPS.get (0 : BitVec 3).toFin = some 32 ∧
    permits defaultConfig entryT.attrs .read .el1 = true ∧ permits defaultConfig entryT.attrs .write .el0 = false := by decide
/-- A miss with an entry that does not match (T5), whose walk ends, faults, or is refused. -/
theorem witness_MissWalksTheTables :
    entryMatches ⟨.el1, 5, 0⟩ entryT 0x2468ACE0 .el1and0 = false ∧
    missWalk walkOnly (stateT sectionFive) ⟨0x100000, 22, .kb64, .el1and0, 0x2468ACE0⟩ 0x2468ACE0 .read .el1 =
      .ok ⟨0x4321ACE0, [⟨2, true, 0⟩, ⟨3, false, 0x400⟩], 3, 16, none⟩ ∧
    missWalk walkOnly (stateT sectionFive) ⟨0x100000, 22, .kb64, .el1and0, 0x20010000⟩ 0x20010000 .read .el1 =
      .fault (.translation 3 0x20010000 .read) ∧
    missWalk walkOnly { stateT [] with cfg := sourceConfig } ⟨0x100000, 16, .kb64, .el1and0, 0⟩ 0 .read .el1 = .refused .walkNotGiven := by
  decide
/-- A miss whose walk ends in a page without a mark (S2), and one that ends in a marked page (K1). -/
theorem witness_FillIsOptional :
    selectRegion (stateT sectionFive) 0x2468ACE0 .read .el1 = .ok ⟨0x100000, 22, .kb64, .el1and0, 0x2468ACE0⟩ ∧
    usedEntry hitFirst (stateT sectionFive) ⟨0x100000, 22, .kb64, .el1and0, 0x2468ACE0⟩ = none ∧
    usedEntry walkOnly groupState ⟨0x100000, 22, .kb64, .el1and0, 0x28134568⟩ = none := by decide
/-- The entry of S2 and another address of its page, with an access it permits and one it does not. -/
theorem witness_HitAgreesWithTheWalk :
    sourceGeometry ⟨0x100000, 22, .kb64, .el1and0, 0x2468ACE0⟩ = true ∧
    entryMatches ⟨.el1, 5, 0⟩
      (filledEntry ⟨.el1, 5, 0⟩ ⟨0x100000, 22, .kb64, .el1and0, 0x2468ACE0⟩ ⟨0x4321ACE0, [⟨2, true, 0⟩, ⟨3, false, 0x400⟩], 3, 16, none⟩ 16)
      0x24680000 .el1and0 = true ∧
    permits defaultConfig [⟨2, true, 0⟩, ⟨3, false, 0x400⟩] .write .el1 = true ∧
    permits defaultConfig [⟨2, true, 0⟩, ⟨3, false, 0x400⟩] .read .el0 = false := by decide
/-- The group of section 9 and its last address. -/
theorem witness_WideEntryAgreesWithTheWalk :
    missWalk walkOnly groupState ⟨0x100000, 22, .kb64, .el1and0, 0x28134568⟩ 0x28134568 .read .el1 =
      .ok ⟨0x50134568, [⟨2, true, 0⟩, ⟨3, false, 0x0010000000000400⟩], 3, 16, some 21⟩ ∧
    outSize groupState .el1and0 = some 48 ∧
    entryMatches ⟨.el1, 5, 0⟩ wideEntry 0x281FFFFF .el1and0 = true ∧
    permits defaultConfig wideEntry.attrs .write .el1 = true ∧ permits defaultConfig wideEntry.attrs .read .el0 = false := by
  refine ⟨?_, by decide, by decide, by decide, by decide⟩
  rw [missWalk_source (w := 48) (by decide) (by decide)]
  exact test_K1
/-- Its own walk for an access it permits and for one it does not: neither reads outside plain memory. -/
theorem witness_WideEntryAgreesWithTheWalk_walks :
    walk64K42 defaultConfig groupMemory 0x100000 ⟨0x281FFFFF, 0x281FFFFF, .write, .el1, 48, false⟩ =
      .ok ⟨0x501FFFFF, [⟨2, true, 0⟩, ⟨3, false, 0x0010000000000400⟩], 3, 16, some 21⟩ ∧
    walk64K42 defaultConfig groupMemory 0x100000 ⟨0x281FFFFF, 0x281FFFFF, .read, .el0, 48, false⟩ =
      .fault (.permission 3 0x281FFFFF .read) := by decide +kernel
/-- Two states that differ in an EL2 register and an EL2 entry. -/
theorem witness_El2AndEl3CannotInfluenceEl1 :
    ({ stateT [] with tlb := [e3, entryT] } : State).tlb.filter (fun e => decide (e.regime = .el1and0)) =
      (stateT []).tlb.filter (fun e => decide (e.regime = .el1and0)) ∧
    run hitFirst { stateT [] with tlb := [e3, entryT], ttbr0El2 := 9 } 0x41234567 .read .el1 = pa 0x81234567 := by decide

/-- Accesses inside one page, at the last byte of it, and one that leaves it. -/
theorem witness_Accesses :
    splitBits (asking (.access .read 0x2468FFFF 1 0)) 0x2468FFFF .read .el1 = 16 ∧ 1 ≤ 2 ^ 16 - 0x2468FFFF % 2 ^ 16 ∧
    2 ^ 16 - 0x2468FFFF % 2 ^ 16 < 2 ∧
    missWalk walkOnly (cfg0 sectionFive) ⟨0x100000, 22, .kb64, .el1and0, 0x2468ACE0⟩ 0x2468ACE0 .write .el1 ≠ .refused .contiguousGroupBroken ∧
    missWalk walkOnly (cfg0 sectionFive) ⟨0x100000, 22, .kb64, .el1and0, 0x60000000⟩ 0x60000000 .read .el1 ≠ .refused .contiguousGroupBroken := by
  decide
/-- The pages of the three granules, and 64KB where no region is selected. -/
theorem witness_AccessAcrossPagesIsSplit :
    splitBits (wideBounds 25) 0 .read .el1 = 12 ∧ splitBits (withSizes 22 22 false false) 0 .read .el1 = 16 ∧
    splitBits { cfg0 [] with tcrEl1 := ⟨25, 25, 5, 1, 1, 0⟩ } 0 .read .el1 = 14 ∧
    regionOf (withSizes 22 22 false false) 0x0000040000000000 .el1 = none := by decide
/-- A marked page alone in its group: its walk up to the group, its own entry (index 8 of the group) and the first one. -/
def lonely : State := cfg0 [(0x100008, 0x200003), (0x202340, 0x0010000043210403)]
theorem witness_BrokenContiguousGroupIsRefused :
    selectRegion lonely 0x2468ACE0 .read .el1 = .ok ⟨0x100000, 22, .kb64, .el1and0, 0x2468ACE0⟩ ∧ outSize lonely .el1and0 = some 48 ∧
    memRead64 lonely.cfg lonely.mem 0x100008 = 0x200003 ∧ upperKind lonely.cfg 2 0x200003 = .table ∧
    permitsAt lonely.cfg 2 true 0x200003 .read .el1 = true ∧ inSize 48 (0x200003 : PAddr) = true ∧
    ((0x200003 : DWord).extractLsb 47 16 ++ (0x2468ACE0 : VAddr).extractLsb 28 21 ++ BitVec.ofNat 5 8 ++ 0#3 : BitVec 48) = 0x202340 ∧
    memRead64 lonely.cfg lonely.mem 0x202340 = 0x0010000043210403 ∧ memRead64 lonely.cfg lonely.mem 0x202300 = 0 ∧
    lastKind lonely.cfg 0 ≠ .page ∧ inSize 48 (0x100000 : PAddr) = true ∧ plain lonely.cfg 0x100008 8 = true ∧
    plain lonely.cfg 0x202340 8 = true := by decide
/-- The same access is refused on a hit. -/
theorem witness_BrokenContiguousGroupIsRefused_hit :
    refusal? (step (ask hitFirst (.access .read 0x2468ACE0 8 0) { lonely with tlb := [e1] })) = some .contiguousGroupBroken := by decide
/-- Each condition broken by one entry of the group of section 9: no mark, other attributes, another address, a first
address that is not aligned. -/
theorem witness_BrokenContiguousGroupIsRefused_conditions :
    (lastKind defaultConfig 0x50050403 = .page ∧ isContiguous defaultConfig 0x50050403 = false) ∧
    entryAttrs defaultConfig 3 false 0x0010000050050483 ≠ entryAttrs defaultConfig 3 false 0x0010000050000403 ∧
    (0x0010000077770403 : DWord).extractLsb 47 16 ≠ (0x0010000050000403 : DWord).extractLsb 47 16 + BitVec.ofNat 32 5 ∧
    (0x0010000050010403 : DWord).extractLsb 20 16 ≠ 0 := by decide
theorem witness_RequesterWriteStoresTheValue :
    (asking (.memWrite 0x10 8 7)).requests = ⟨⟨.el1, 5, 0⟩, .memWrite 0x10 8 7⟩ :: [] := rfl
theorem witness_ByteOrderOfAnEntry :
    defaultConfig.descBigEndian = false ∧ ({ defaultConfig with descBigEndian := true } : Config).descBigEndian = true := by decide

end Sys2Proof.Tests
end

section
/-! SUPPORT. What every step keeps: the configuration, the canonical form of memory, the TLB as a set of entries, the invariant. -/

namespace Sys2Proof.Machine

/-! The configuration (10_state.md R27). -/

/-- No instruction changes the configuration. -/
theorem exec_cfg {i : Instr} {s t : State} (h : exec i s = .next t) : t.cfg = s.cfg :=
  (congrArg State.cfg (exec_frame h).1).trans (setTlb_cfg s t.tlb)

/-- No instruction changes memory. -/
theorem exec_mem {i : Instr} {s t : State} (h : exec i s = .next t) : t.mem = s.mem :=
  (congrArg State.mem (exec_frame h).1).trans (setTlb_mem s t.tlb)

/-- No action changes the configuration. -/
theorem Performed.cfg_eq {c : Choice} {u t : State} {a : Action} (h : Performed c u a t) : t.cfg = u.cfg := by
  cases h with
  | writeSysReg w => exact writeSysReg_cfg u w
  | setX r v => exact writeX_cfg u r v
  | instr i v hv => simpa using exec_cfg hv
  | instrWord w i v _ hv => simpa using exec_cfg hv
  | fetchRun va tr i v _ _ hv => simpa using exec_cfg hv
  | memWrite | accessSplit | accessFault | accessLoad | accessStore | fetchFault => rfl

/-- No step changes the configuration. -/
theorem step_cfg {s t : State} (h : step s = .next t) : t.cfg = s.cfg := by
  obtain ⟨-, rfl⟩ | ⟨inp, a, rest, -, hp⟩ := step_next h
  · rfl
  · exact hp.cfg_eq

/-! The canonical form of memory (20_memory.md R31). -/

/-- Every action keeps memory in its canonical form. -/
theorem Performed.mem_wf {c : Choice} {u t : State} {a : Action} (h : Performed c u a t) (hu : Memory.wf u.mem = true) :
    Memory.wf t.mem = true := by
  cases h with
  | memWrite pa n value => exact Memory.wf_memWrite _ _ _ _ _ hu
  | accessStore va n value tr _ => exact Memory.wf_memWrite _ _ _ _ _ hu
  | writeSysReg w => simpa using hu
  | setX r v => simpa using hu
  | instr i v hv => simpa [exec_mem hv] using hu
  | instrWord w i v _ hv => simpa [exec_mem hv] using hu
  | fetchRun va tr i v _ _ hv => simpa [exec_mem hv] using hu
  | accessSplit | accessFault | accessLoad | fetchFault => exact hu

/-- Every step keeps memory in its canonical form. -/
theorem step_mem_wf {s t : State} (h : step s = .next t) (hs : Memory.wf s.mem = true) : Memory.wf t.mem = true := by
  obtain ⟨-, rfl⟩ | ⟨inp, a, rest, -, hp⟩ := step_next h
  · exact hs
  · exact hp.mem_wf hs

/-! The TLB as a set of entries (10_state.md R21, 40_tlb_tlbi.md R54). -/

/-- How a TLB may change: it stays a set, and what is new in it has the form of a fill. -/
structure TlbGrows (old new : List TlbEntry) : Prop where
  nodup : old.Nodup → new.Nodup
  added : ∀ e ∈ new, e ∈ old ∨ FilledWf e

/-- Losing entries is such a change. -/
theorem TlbGrows.of_sublist {old new : List TlbEntry} (h : new.Sublist old) : TlbGrows old new :=
  ⟨h.nodup, fun _ he => .inl (h.subset he)⟩

/-- Such changes compose. -/
theorem TlbGrows.trans {a b c : List TlbEntry} (hab : TlbGrows a b) (hbc : TlbGrows b c) : TlbGrows a c :=
  ⟨fun h => hbc.nodup (hab.nodup h), fun e he => (hbc.added e he).elim (hab.added e) .inr⟩

/-- Adding an entry of a fill's form is such a change. -/
theorem TlbGrows.cons {e : TlbEntry} {tlb : List TlbEntry} (hn : e ∉ tlb) (he : FilledWf e) : TlbGrows tlb (e :: tlb) :=
  ⟨fun h => List.nodup_cons.mpr ⟨hn, h⟩, fun _ hx => (List.mem_cons.mp hx).elim (fun h => .inr (h ▸ he)) .inl⟩

/-- Such a change keeps the TLB well-formed. -/
theorem TlbGrows.tlbWf {old new : List TlbEntry} (h : TlbGrows old new) (hw : TlbWf old) : TlbWf new := by
  obtain ⟨hn, hold⟩ := hw
  refine ⟨h.nodup hn, fun e he => ?_⟩
  obtain hin | ⟨-, -, hva, -⟩ := h.added e he
  · exact hold e hin
  · exact hva

/-- An aligned range no larger than the space `2^n` that holds an address of it lies in it. -/
theorem clearLow_add_le {w k n : Nat} (v : BitVec w) (hk : k ≤ n) (hv : v.toNat < 2 ^ n) :
    (clearLow k v).toNat + 2 ^ k ≤ 2 ^ n := by
  have hq : v.toNat / 2 ^ k < 2 ^ (n - k) := by
    rwa [Nat.div_lt_iff_lt_mul (Nat.two_pow_pos k), ← Nat.pow_add, Nat.sub_add_cancel hk]
  calc (clearLow k v).toNat + 2 ^ k
      = (v.toNat / 2 ^ k + 1) * 2 ^ k := by rw [toNat_clearLow, Nat.succ_mul]
    _ ≤ 2 ^ (n - k) * 2 ^ k := Nat.mul_le_mul_right _ hq
    _ = 2 ^ n := by rw [← Nat.pow_add, Nat.sub_add_cancel hk]

/-- The size a fill may use after a walk's end lies between the 4KB page and the 1GB block (42_translation_walk.md R85). -/
theorem WalkEnd.Wf.fill_size {wk : WalkEnd} (h : wk.Wf) {k : Nat} (hk : k = wk.k ∨ wk.wide = some k) : 12 ≤ k ∧ k ≤ 30 := by
  obtain ⟨-, hlo, hhi, hwide⟩ := h
  obtain rfl | hw := hk
  · exact ⟨hlo, hhi⟩
  · obtain ⟨hwlo, hwhi⟩ := hwide k hw
    exact ⟨hwlo, Nat.le_trans hwhi (by decide)⟩

/-- The entry a fill adds after a walk in a selected region has the form of R54. -/
theorem filledEntry_wf {s : State} {va : VAddr} {acc : AccessKind} {el : EL} {r : Region} {wk : WalkEnd} {k : Nat}
    (inp : Inputs) (hr : selectRegion s va acc el = .ok r) (hwk : wk.Wf) (hk : k = wk.k ∨ wk.wide = some k) :
    FilledWf (filledEntry inp r wk k) := by
  obtain ⟨hlo, hhi⟩ := hwk.fill_size hk
  obtain ⟨hlevel, -⟩ := hwk
  refine ⟨hlo, hhi, clearLow_mod k r.ea, clearLow_mod k wk.pa, hlevel, ?_⟩
  exact (selectRegion_ok hr).2.imp_right fun hea => clearLow_add_le r.ea (by omega) hea

/-- A translation leaves the TLB, or adds the entry of its walk. -/
theorem translate_tlbGrows {c : Choice} {s : State} {va : VAddr} {acc : AccessKind} {el : EL} {tr : Translated}
    (h : translate c s va acc el = .ok tr) : TlbGrows s.tlb tr.tlb := by
  obtain ⟨r, hr, ⟨e, -, -, rfl⟩ | ⟨-, wk, hwk, rfl⟩⟩ := translate_ok h
  · exact .of_sublist (List.Sublist.refl _)
  · obtain ⟨-, hsel, -⟩ := translationRegion_ok_iff.mp hr
    obtain hsame | ⟨k, hk, hn, hcons⟩ := fill_cases c s.inputs r wk s.tlb
    · exact .of_sublist (by rw [hsame])
    · change TlbGrows s.tlb (fill c s.inputs r wk s.tlb)
      rw [hcons]
      exact .cons hn (filledEntry_wf s.inputs hsel (missWalk_wf hwk) hk)

/-- An instruction that completes only loses entries. -/
theorem exec_tlbGrows {i : Instr} {s t : State} (h : exec i s = .next t) : TlbGrows s.tlb t.tlb :=
  .of_sublist (exec_frame h).2

/-- Every action leaves a TLB that has grown by fills alone. -/
theorem Performed.tlbGrows {c : Choice} {u t : State} {a : Action} (h : Performed c u a t) : TlbGrows u.tlb t.tlb := by
  cases h with
  | instr i v hv => simpa using exec_tlbGrows hv
  | instrWord w i v _ hv => simpa using exec_tlbGrows hv
  | fetchRun va tr i v htr _ hv => exact (translate_tlbGrows htr).trans (exec_tlbGrows hv)
  | accessLoad kind va n value tr _ htr => exact translate_tlbGrows htr
  | accessStore va n value tr htr => exact translate_tlbGrows htr
  | writeSysReg w => exact .of_sublist (by simp)
  | setX r v => exact .of_sublist (by simp)
  | memWrite | accessSplit | accessFault | fetchFault => exact .of_sublist (List.Sublist.refl _)

/-- Every step leaves a TLB that has lost entries and grown by fills alone (R54, R55). -/
theorem step_tlbGrows {s t : State} (h : step s = .next t) : TlbGrows s.tlb t.tlb := by
  have hlost : TlbGrows s.tlb (loseEntries (choiceOf s).lost s.tlb) := .of_sublist (loseEntries_sublist _ _)
  obtain ⟨-, rfl⟩ | ⟨inp, a, rest, -, hp⟩ := step_next h
  · exact hlost
  · exact hlost.trans hp.tlbGrows

/-- Every step keeps the invariant. -/
theorem step_inv {s t : State} (h : step s = .next t) (hs : s.Inv) : t.Inv := by
  obtain ⟨hmem, htlb, hcfg⟩ := hs
  exact ⟨step_mem_wf h hmem, (step_tlbGrows h).tlbWf htlb, (step_cfg h).symm ▸ hcfg⟩

/-- Settles O30: the part of the invariant on memory, the one on the TLB and the one on TxSZ each by the ways a step can
end, and the form of added entries from the walk's end and the region it was made in. -/
theorem stepKeepsTheInvariant : Obligations.StepKeepsTheInvariant :=
  fun _ _ h => ⟨step_inv h, (step_tlbGrows h).added⟩

/-- Settles O25, by the ways a step can end. -/
theorem stepKeepsTheConfiguration : Obligations.StepKeepsTheConfiguration := fun _ _ h => step_cfg h

/-- Settles O29: memory at reset is empty, and the TLB at reset is a set of well-formed entries whatever it holds. -/
theorem resetMeetsTheInvariant : Obligations.ResetMeetsTheInvariant :=
  ⟨rfl, resetTlb_wf, by decide⟩

end Sys2Proof.Machine
end

section
/-! SUPPORT. TCR_EL1 as fields and as a word (10_state.md R19; the positions are GK1's, PRESUMED, log 17). -/

namespace Sys2Proof.Machine

/-- Each field of TCR_EL1 stands at its position in the word. -/
theorem TcrEl1.toWord_fields (t : TcrEl1) :
    t.toWord.extractLsb 5 0 = t.t0sz ∧ t.toWord.extractLsb 15 14 = t.tg0 ∧ t.toWord.extractLsb 21 16 = t.t1sz ∧
    t.toWord.extractLsb 31 30 = t.tg1 ∧ t.toWord.extractLsb 34 32 = t.ips := by
  simp (disch := omega) only [TcrEl1.toWord, BitVec.extractLsb, BitVec.extractLsb'_append_eq_of_add_le,
    BitVec.extractLsb'_append_eq_of_le]
  refine ⟨?_, ?_, ?_, ?_, ?_⟩ <;> exact BitVec.extractLsb'_eq_self

/-- The bits between and above the fields are those of `rest`. -/
theorem TcrEl1.toWord_rest (t : TcrEl1) :
    t.toWord.extractLsb 63 35 = t.rest.extractLsb 44 16 ∧ t.toWord.extractLsb 29 22 = t.rest.extractLsb 15 8 ∧
    t.toWord.extractLsb 13 6 = t.rest.extractLsb 7 0 := by
  simp (disch := omega) only [TcrEl1.toWord, BitVec.extractLsb, BitVec.extractLsb'_append_eq_of_add_le,
    BitVec.extractLsb'_append_eq_of_le]
  refine ⟨?_, ?_, ?_⟩ <;> exact BitVec.extractLsb'_eq_self

/-- The three parts of `rest` that a word is cut into are those of the word. -/
theorem TcrEl1.ofWord_rest (w : DWord) :
    (TcrEl1.ofWord w).rest.extractLsb 44 16 = w.extractLsb 63 35 ∧
    (TcrEl1.ofWord w).rest.extractLsb 15 8 = w.extractLsb 29 22 ∧
    (TcrEl1.ofWord w).rest.extractLsb 7 0 = w.extractLsb 13 6 := by
  simp (disch := omega) only [TcrEl1.ofWord, BitVec.extractLsb, BitVec.extractLsb'_append_eq_of_add_le,
    BitVec.extractLsb'_append_eq_of_le]
  refine ⟨?_, ?_, ?_⟩ <;> exact BitVec.extractLsb'_eq_self

/-- The word of fields read from a word. -/
theorem TcrEl1.toWord_ofWord (w : DWord) : (TcrEl1.ofWord w).toWord = w := by
  obtain ⟨hhigh, hmid, hlow⟩ := TcrEl1.ofWord_rest w
  rw [TcrEl1.toWord, hhigh, hmid, hlow]
  simp (disch := omega) only [TcrEl1.ofWord, BitVec.extractLsb, BitVec.extractLsb'_append_extractLsb'_eq_extractLsb',
    BitVec.extractLsb'_eq_self]

/-- The fields read from the word of fields. -/
theorem TcrEl1.ofWord_toWord (t : TcrEl1) : TcrEl1.ofWord t.toWord = t := by
  obtain ⟨ht0sz, htg0, ht1sz, htg1, hips⟩ := t.toWord_fields
  obtain ⟨hhigh, hmid, hlow⟩ := t.toWord_rest
  have hrest : t.rest.extractLsb 44 16 ++ t.rest.extractLsb 15 8 ++ t.rest.extractLsb 7 0 = t.rest := by
    simp (disch := omega) only [BitVec.extractLsb, BitVec.extractLsb'_append_extractLsb'_eq_extractLsb',
      BitVec.extractLsb'_eq_self]
  rw [TcrEl1.ofWord, ht0sz, htg0, ht1sz, htg1, hips, hhigh, hmid, hlow, hrest]

/-- Settles O4: both round trips and the five positions, each by cutting the joined word at the ends of the fields. -/
theorem tcrWordAndFieldsAgree : Obligations.TcrWordAndFieldsAgree :=
  ⟨TcrEl1.ofWord_toWord, TcrEl1.toWord_ofWord, TcrEl1.toWord_fields⟩

end Sys2Proof.Machine
end

section
/-! SUPPORT. Writes of the registers: `Xt` (10_state.md R25, GK10) and the system registers (R29). -/

namespace Sys2Proof.Machine

/-- A register after a write: register 31 reads as zero, the register written as the value, any other as before. -/
theorem readX_writeX (s : State) (t r : BitVec 5) (v : DWord) :
    readX (writeX s t v) r = if r = 31 then 0 else if r = t then v else readX s r := by
  by_cases hr : r = 31
  · subst hr
    rfl
  have hlt : r.toNat < 31 := by bv_omega
  rw [if_neg hr, readX_eq, dif_pos hlt]
  by_cases hrt : r = t
  · subst hrt
    simp [writeX, hlt]
  rw [if_neg hrt, readX_eq, dif_pos hlt]
  by_cases ht : t.toNat < 31
  · have hne : t.toNat ≠ r.toNat := fun h => hrt (BitVec.eq_of_toNat_eq h.symm)
    simp [writeX, ht, Vector.getElem_set_ne, hne]
  · simp [writeX, ht]

/-- Reporting a response changes no register. -/
@[simp] theorem readX_respond (s : State) (o : Response) (r : BitVec 5) : readX (respond s o) r = readX s r := rfl

/-- A write of a register changes the registers alone. -/
theorem writeX_frame (s : State) (t : BitVec 5) (v : DWord) : writeX s t v = { s with x := (writeX s t v).x } := by
  unfold writeX
  split <;> rfl

/-- Settles O34, by whether the register read is 31, the one written, or another. -/
theorem settingXt : Obligations.SettingXt := by
  intro s inp t v rest hreq
  refine ⟨respond (writeX (startRequest s inp rest) t v) .done, step_request hreq, fun r => ?_, ?_⟩
  · rw [readX_respond, readX_writeX, readX_congr (startRequest_x s inp rest)]
  · rw [writeX_frame]
    rfl

/-- Settles O33, by the forms of the write. -/
theorem writeSysRegWritesTheNamedRegister : Obligations.WriteSysRegWritesTheNamedRegister := by
  intro s inp w rest hreq
  rw [step_request hreq]
  cases w <;> rfl

end Sys2Proof.Machine
end

section
/-! SUPPORT. The fetch of an instruction through the MMU (10_state.md R26, 42_translation_walk.md R108). -/

namespace Sys2Proof.Machine

/-- The premise on contiguous groups, said of the region selected. -/
theorem groupPremise_iff {c : Choice} {s : State} {va : VAddr} {acc : AccessKind} {el : EL} :
    groupPremise c s va acc el = true ↔
      ∀ r, selectRegion s va acc el = .ok r → missWalk c s r va acc el ≠ .refused .contiguousGroupBroken := by
  unfold groupPremise
  cases selectRegion s va acc el <;> simp

/-- A word that decodes runs the instruction it decodes to. -/
theorem runWord_ok {w : IWord} {s : State} {i : Instr} (h : decodeWord w = .ok i) : runWord w s = reportDone (exec i s) := by
  rw [runWord, h]

/-- A word that decodes to no instruction is refused. -/
theorem runWord_error {w : IWord} {s : State} {e : DecodeReject} (h : decodeWord w = .error e) :
    runWord w s = .refused (.undecoded e) := by
  rw [runWord, h]

section
variable {c : Choice} {s : State} {va : VAddr} (hp : groupPremise c s va .fetch s.inputs.el = true)
include hp

/-- A fetch whose translation faults reports the fault and runs nothing. -/
theorem fetchRun_fault {f : Fault} (h : translate c s va .fetch s.inputs.el = .fault f) :
    fetchRun c va s = .next (reportFault s f) := by
  rw [fetchRun, if_pos hp, h]

/-- A fetch whose translation is refused is refused. -/
theorem fetchRun_refused {z : Refusal} (h : translate c s va .fetch s.inputs.el = .refused z) :
    fetchRun c va s = .refused z := by
  rw [fetchRun, if_pos hp, h]

/-- A fetch whose translation succeeds runs the word at the address, with the TLB the translation leaves. -/
theorem fetchRun_ok {tr : Translated} (h : translate c s va .fetch s.inputs.el = .ok tr) :
    fetchRun c va s = runWord (fetchedWord s.mem tr.pa) (setTlb s tr.tlb) := by
  rw [fetchRun, if_pos hp, h]

end

/-- Settles O22, by the outcome of the translation and, where it succeeds, by what the word decodes to. -/
theorem fetchedInstructionRuns : Obligations.FetchedInstructionRuns := by
  rintro s inp va rest u hreq rfl
  have hstep : step s = fetchExecute (choiceOf s) va (startRequest s inp rest) := step_request hreq
  refine ⟨fun hmis => hstep.trans (if_neg hmis), fun hal hgroup => ?_⟩
  have hrun : step s = fetchRun (choiceOf s) va (startRequest s inp rest) := hstep.trans (if_pos hal)
  have hp : groupPremise (choiceOf s) (startRequest s inp rest) va .fetch inp.el = true := groupPremise_iff.mpr hgroup
  refine ⟨fun f hf => hrun.trans (fetchRun_fault hp hf), fun z hz => hrun.trans (fetchRun_refused hp hz), ?_⟩
  intro tr w htr hw
  have hword : step s = runWord w (setTlb (startRequest s inp rest) tr.tlb) := by
    rw [hw]
    exact hrun.trans (fetchRun_ok hp htr)
  refine ⟨fun e he => hword.trans (runWord_error he), fun i t hi hexec => ?_⟩
  rw [hword, runWord_ok hi, hexec, reportDone]

end Sys2Proof.Machine
end

section
/-! SUPPORT. Bytes in memory: the byte order of a value read (20_memory.md R32), what a step writes, and the requester's writes (R31, R35). -/

namespace Sys2Proof.Machine

/-! The bytes of a number (R32). -/

/-- The number bytes stand for has no more bytes than they are. -/
theorem valueLE_lt (bs : List Byte) : valueLE bs < 256 ^ bs.length := by
  induction bs with
  | nil => exact Nat.one_pos
  | cons b bs ih =>
    have hb := b.isLt
    rw [valueLE, List.length_cons, Nat.pow_succ']
    omega

/-- Byte `i` of the number bytes stand for is the `i`-th of them. -/
theorem valueLE_byte (bs : List Byte) (i : Nat) (h : i < bs.length) : valueLE bs / 256 ^ i % 256 = bs[i].toNat := by
  induction bs generalizing i with
  | nil => exact absurd h (Nat.not_lt_zero i)
  | cons b bs ih =>
    have hb := b.isLt
    cases i with
    | zero =>
      rw [valueLE, List.getElem_cons_zero]
      omega
    | succ i =>
      have hrest : (b.toNat + 256 * valueLE bs) / 256 = valueLE bs := by omega
      rw [valueLE, List.getElem_cons_succ, Nat.pow_succ', ← Nat.div_div_eq_div_mul, hrest]
      exact ih i (Nat.lt_of_succ_lt_succ h)

/-- The `i`-th byte read is the one at the address plus `i`, modulo 2^48. -/
theorem getElem_readBytes (m : Memory) (pa : PAddr) (n i : Nat) (h : i < (readBytes m pa n).length) :
    (readBytes m pa n)[i] = Memory.read m (pa + BitVec.ofNat 48 i).toNat := by
  induction n generalizing pa i with
  | zero => exact absurd h (Nat.not_lt_zero i)
  | succ n ih =>
    cases i with
    | zero => simp [readBytes]
    | succ i => simp only [readBytes, List.getElem_cons_succ, ih, add_succ_eq]

/-- Bits [8i+7:8i] of a value read are the `i`-th byte in the order of the configuration. -/
theorem memRead_byte (cfg : Config) (m : Memory) (pa : PAddr) (n i : Nat)
    (h : i < (inOrder cfg.descBigEndian (readBytes m pa n)).length) :
    (memRead cfg m pa n).extractLsb' (8 * i) 8 = (inOrder cfg.descBigEndian (readBytes m pa n))[i] := by
  have hlt : valueLE (inOrder cfg.descBigEndian (readBytes m pa n)) < 2 ^ (8 * n) := by
    simpa [Nat.pow_mul] using valueLE_lt (inOrder cfg.descBigEndian (readBytes m pa n))
  apply BitVec.eq_of_toNat_eq
  rw [← valueLE_byte _ i h, memRead, BitVec.extractLsb'_toNat, BitVec.toNat_ofNat, Nat.mod_eq_of_lt hlt,
    Nat.shiftRight_eq_div_pow, Nat.pow_mul]

/-- Settles O59: bits [8i+7:8i] of the entry are the `i`-th byte in the configured order, which counts from the other end
in a big-endian one. -/
theorem byteOrderOfAnEntry : Obligations.ByteOrderOfAnEntry := by
  intro cfg m pa i hi
  constructor <;> intro he
  · rw [memRead64, memRead_byte cfg m pa 8 i (by simpa using hi)]
    simp [he, inOrder, getElem_readBytes]
  · have hidx : 8 - 1 - (7 - i) = i := by omega
    rw [memRead64, memRead_byte cfg m pa 8 (7 - i) (by rw [length_inOrder, length_readBytes]; omega)]
    simp [he, inOrder, getElem_readBytes, hidx]

/-! Writes of memory (R31, R35). -/

/-- An action that is neither a `MemWrite` nor a write access leaves memory as it is. -/
theorem Performed.mem_eq {c : Choice} {u t : State} {a : Action} (h : Performed c u a t)
    (hmem : ∀ pa n v, a ≠ .memWrite pa n v) (hacc : ∀ va n v, a ≠ .access .write va n v) : t.mem = u.mem := by
  cases h with
  | memWrite pa n value => exact absurd rfl (hmem pa n value)
  | accessStore va n value tr _ => exact absurd rfl (hacc va n value)
  | writeSysReg w => exact writeSysReg_mem u w
  | setX r v => exact writeX_mem u r v
  | instr i v hv => simpa using exec_mem hv
  | instrWord w i v _ hv => simpa using exec_mem hv
  | fetchRun va tr i v _ _ hv => simpa using exec_mem hv
  | accessSplit | accessFault | accessLoad | fetchFault => rfl

/-- Settles O27, by the ways a step can end. -/
theorem onlyTheRequesterWritesMemory : Obligations.OnlyTheRequesterWritesMemory := by
  intro s t h hmem hacc
  obtain ⟨-, rfl⟩ | ⟨inp, a, rest, hreq, hp⟩ := step_next h
  · exact idleStep_mem s
  · refine hp.mem_eq ?_ ?_
    · rintro pa n v rfl
      exact hmem inp pa n v rest hreq
    · rintro va n v rfl
      exact hacc inp va n v rest hreq

/-- Settles O60: the step is one `MemWrite`, whose bytes are read back and which leaves every other byte. -/
theorem requesterWriteStoresTheValue : Obligations.RequesterWriteStoresTheValue := by
  intro s inp pa n v rest hreq
  exact ⟨_, step_request hreq, rfl, memRead_memWrite s.cfg s.mem pa n (BitVec.ofNat (8 * n) v),
    read_memWrite_other s.cfg s.mem pa n (BitVec.ofNat (8 * n) v)⟩

end Sys2Proof.Machine
end

section
/-! SUPPORT. Accesses of the requester: inside one page, and split at the end of it (42_translation_walk.md R109, 20_memory.md R33). -/

namespace Sys2Proof.Machine

/-! Inside one page. -/

/-- An access inside one page whose translation succeeds reads or writes the memory at the physical address. -/
theorem access_ok {c : Choice} {s : State} {kind : AccessKind} {va : VAddr} {n value : Nat} {tr : Translated}
    (hn : n ≤ roomInPage (splitBits s va kind s.inputs.el) va) (hp : groupPremise c s va kind s.inputs.el = true)
    (h : translate c s va kind s.inputs.el = .ok tr) : access c kind va n value s = accessMemory kind n value tr s := by
  rw [access, if_pos hn, accessInPage, if_pos hp, h]

/-- An access other than a write reports the bytes read, and changes the TLB and the report alone. -/
theorem accessMemory_load {kind : AccessKind} (hk : kind ≠ .write) (n value : Nat) (tr : Translated) (s : State) :
    accessMemory kind n value tr s =
      .next (respond (setTlb s tr.tlb) (.loaded tr.pa tr.attrs (memRead s.cfg s.mem tr.pa n).toNat)) := by
  cases kind with
  | write => exact absurd rfl hk
  | fetch | read => rfl

/-- Settles O54: the step is the access, which reads memory once its translation succeeds. -/
theorem readAccessReturnsMemory : Obligations.ReadAccessReturnsMemory := by
  rintro s inp kind va n v rest u tr hreq hk rfl hn hgroup htr
  have hstep : step s = access (choiceOf s) kind va n v (startRequest s inp rest) := step_request hreq
  rw [hstep, access_ok hn (groupPremise_iff.mpr hgroup) htr, accessMemory_load hk]
  rfl

/-- Settles O55: the step is the access, which stores the value once its translation succeeds; its bytes are read back
and every other byte is left. -/
theorem writeAccessStoresTheValue : Obligations.WriteAccessStoresTheValue := by
  rintro s inp va n v rest u tr hreq rfl hn hgroup htr
  have hstep : step s = access (choiceOf s) .write va n v (startRequest s inp rest) := step_request hreq
  exact ⟨_, hstep.trans (access_ok hn (groupPremise_iff.mpr hgroup) htr), rfl,
    memRead_memWrite s.cfg s.mem tr.pa n (BitVec.ofNat (8 * n) v),
    read_memWrite_other s.cfg s.mem tr.pa n (BitVec.ofNat (8 * n) v)⟩

/-! Across the end of a page. -/

/-- In a selected region the page is the region's granule. -/
theorem splitBits_of_region {s : State} {va : VAddr} {acc : AccessKind} {el : EL} {r : Region}
    (h : selectRegion s va acc el = .ok r) : splitBits s va acc el = granuleBits r.granule := by
  rw [splitBits, h]

/-- Where no region is selected the page is 64KB. -/
theorem splitBits_of_no_region {s : State} {va : VAddr} {acc : AccessKind} {el : EL}
    (h : ∀ r, selectRegion s va acc el ≠ .ok r) : splitBits s va acc el = 16 := by
  unfold splitBits
  split
  · next r hr => exact absurd hr (h r)
  · rfl
  · rfl

/-- An access that leaves its page is split. -/
theorem access_split {c : Choice} {s : State} {kind : AccessKind} {va : VAddr} {n value : Nat}
    (hn : roomInPage (splitBits s va kind s.inputs.el) va < n) :
    access c kind va n value s = .next (splitAccess s kind va n value (roomInPage (splitBits s va kind s.inputs.el) va)) := by
  rw [access, if_neg (Nat.not_le.mpr hn)]

/-- Little-endian, the first part holds the low bytes of the value. -/
theorem splitValue_little (n k value : Nat) :
    value = (splitValue false n k value).1 + 256 ^ k * (splitValue false n k value).2 ∧
    (splitValue false n k value).1 < 256 ^ k :=
  ⟨(Nat.mod_add_div value (256 ^ k)).symm, Nat.mod_lt value (Nat.pow_pos (by decide))⟩

/-- Big-endian, the second part holds the low bytes of the value. -/
theorem splitValue_big (n k value : Nat) :
    value = 256 ^ (n - k) * (splitValue true n k value).1 + (splitValue true n k value).2 ∧
    (splitValue true n k value).2 < 256 ^ (n - k) :=
  ⟨(Nat.div_add_mod value (256 ^ (n - k))).symm, Nat.mod_lt value (Nat.pow_pos (by decide))⟩

/-- Settles O58: the page by whether a region is selected, the two parts from the split of the access, and their values by
the byte order. -/
theorem accessAcrossPagesIsSplit : Obligations.AccessAcrossPagesIsSplit := by
  refine ⟨fun s va kind el => ⟨fun r hr => ?_, splitBits_of_no_region⟩, ?_⟩
  · rw [splitBits_of_region hr]
    cases r.granule <;> rfl
  · rintro s inp kind va n v room rest u hreq rfl rfl hn
    have hstep : step s = access (choiceOf s) kind va n v (startRequest s inp rest) := step_request hreq
    refine ⟨_, _, hstep.trans (access_split hn), fun hle => ?_, fun hbe => ?_⟩
    · rw [startRequest_cfg, hle]
      exact splitValue_little _ _ v
    · rw [startRequest_cfg, hbe]
      exact splitValue_big _ _ v

end Sys2Proof.Machine
end

section
/-! SUPPORT. The TLB after `VMALLE1` (40_tlb_tlbi.md R53, R56; the selection is GK6's, log 12). -/

namespace Sys2Proof.Machine

/-- What an invalidation leaves is what was there and is not selected. -/
theorem mem_invalidate {op : TlbiOp} {arg : Option DWord} {s : State} {e : TlbEntry} :
    e ∈ (invalidate op arg s).tlb ↔ e ∈ s.tlb ∧ tlbiSelects s.cfg op arg s.inputs.asid s.inputs.vmid e = false := by
  simp [invalidate_tlb]

/-- `VMALLE1` selects the EL1 and EL0 entries of the current VMID (R57). -/
theorem tlbiSelects_vmalle1 {cfg : Config} (h : cfg.tlbiTable = .armv8) (is : Bool) (arg : Option DWord) (asid : Asid)
    (vmid : Vmid) (e : TlbEntry) :
    tlbiSelects cfg ⟨.vmalle1, is⟩ arg asid vmid e = true ↔ e.regime = .el1and0 ∧ e.vmid = vmid := by
  simp [tlbiSelects, h, armv8Selects]

/-- After `VMALLE1` no entry left matches an access at EL1 and EL0 with the same inputs. -/
theorem no_match_after_vmalle1 {s : State} (h : s.cfg.tlbiTable = .armv8) {is : Bool} {arg : Option DWord} {e : TlbEntry}
    (he : e ∈ (invalidate ⟨.vmalle1, is⟩ arg s).tlb) (ea : VAddr) : entryMatches s.inputs e ea .el1and0 = false := by
  obtain ⟨-, hsel⟩ := mem_invalidate.mp he
  rw [Bool.eq_false_iff] at hsel ⊢
  intro hmatch
  obtain ⟨hregime, -, -, hids⟩ := (entryMatches_iff _ _ _ _).mp hmatch
  exact hsel ((tlbiSelects_vmalle1 h _ _ _ _ _).mpr ⟨hregime, (hids rfl).2⟩)

/-- Settles O17: no entry left matches, so none is used, and a translation that uses none is the walk's. -/
theorem afterVmalle1EveryAccessWalks : Obligations.AfterVmalle1EveryAccessWalks := by
  intro s t rt c va acc el r htable hel hexec hr
  obtain ⟨op, hop, -, rfl⟩ := (exec_next_iff _ _ _).mp hexec
  obtain rfl : (⟨.vmalle1, false⟩ : TlbiOp) = op := Option.some.inj hop
  refine translate_miss hr (usedEntry_none fun e he => ?_)
  rw [(selectRegion_ok hr).1.mpr hel]
  exact no_match_after_vmalle1 htable he r.ea

end Sys2Proof.Machine
end

section
/-! SUPPORT. Decoding and encoding of `TLBI` words (30_encoding.md R47, R48), and the step that runs a decoded instruction. -/

namespace Sys2Proof.Machine

/-- The row of the table of R48 with these fields, if there is one. -/
def rowAt (op1 : BitVec 3) (crm : BitVec 4) (op2 : BitVec 3) : Option EncodingRow :=
  encodingRows.find? fun r => decide (r.op1 = op1 ∧ r.crm = crm ∧ r.op2 = op2)

/-- A row found at some fields is a row of the table and has them. -/
theorem rowAt_some {op1 : BitVec 3} {crm : BitVec 4} {op2 : BitVec 3} {r : EncodingRow} (h : rowAt op1 crm op2 = some r) :
    r ∈ encodingRows ∧ r.op1 = op1 ∧ r.crm = crm ∧ r.op2 = op2 := by
  unfold rowAt at h
  exact ⟨List.mem_of_find?_eq_some h, of_decide_eq_true (List.find?_some h :)⟩

/-- A word decodes to what the row at its fields makes of its register number, where the fixed bits are those of R47. -/
theorem decodeWord_ok_iff_row (w : IWord) (i : Instr) :
    decodeWord w = .ok i ↔
      (w.extractLsb 31 19 = sysPrefix ∧ w.extractLsb 15 12 = 8#4) ∧
      ∃ r, rowAt (w.extractLsb 18 16) (w.extractLsb 11 8) (w.extractLsb 7 5) = some r ∧ r.make (w.extractLsb 4 0) = i := by
  unfold decodeWord
  by_cases hfix : w.extractLsb 31 19 = sysPrefix ∧ w.extractLsb 15 12 = 8#4
  · rw [if_pos hfix, ← rowAt]
    cases rowAt (w.extractLsb 18 16) (w.extractLsb 11 8) (w.extractLsb 7 5) <;> simp [hfix]
  · rw [if_neg hfix]
    simp [hfix]

/-- The fields of an instruction lead to the row that makes it. -/
theorem rowAt_of_encodeFields {i : Instr} {op1 : BitVec 3} {crm : BitVec 4} {op2 : BitVec 3} {rt : BitVec 5}
    (h : encodeFields i = some (op1, crm, op2, rt)) : ∃ r, rowAt op1 crm op2 = some r ∧ r.make rt = i := by
  cases i with
  | tlbi name xt => cases h
  | _ =>
    cases h
    exact ⟨_, rfl, rfl⟩

/-- What a row makes is encoded with the row's fields and the register number. -/
theorem encodeFields_make : ∀ r ∈ encodingRows, ∀ rt, encodeFields (r.make rt) = some (r.op1, r.crm, r.op2, rt) := by
  simp [encodingRows, rowsOp0, rowsOp46, encodeFields]

/-- A word encodes an instruction when it is made of the instruction's fields. -/
theorem encode_eq_some_iff (i : Instr) (w : IWord) :
    encode i = some w ↔
      ∃ op1 crm op2 rt, encodeFields i = some (op1, crm, op2, rt) ∧ sysWord op1 crm op2 rt = w := by
  unfold encode
  cases encodeFields i with
  | none => simp
  | some f =>
    obtain ⟨op1, crm, op2, rt⟩ := f
    simp

/-- An instruction that has fields has a word; only the text form has none. -/
theorem encode_isSome_or_text (i : Instr) : (∃ name xt, i = .tlbi name xt) ∨ ∃ w, encode i = some w := by
  cases i with
  | tlbi name xt => exact .inl ⟨name, xt, rfl⟩
  | _ => exact .inr ⟨_, rfl⟩

/-- The word of an instruction decodes to it. -/
theorem decodeWord_of_encode {i : Instr} {w : IWord} (h : encode i = some w) : decodeWord w = .ok i := by
  obtain ⟨op1, crm, op2, rt, hfields, rfl⟩ := (encode_eq_some_iff i w).mp h
  rw [decodeWord_ok_iff_row, sysWord_op1, sysWord_crm, sysWord_op2, sysWord_rt]
  exact ⟨⟨sysWord_prefix .., sysWord_crn ..⟩, rowAt_of_encodeFields hfields⟩

/-- A word that decodes is the word of the instruction it decodes to. -/
theorem encode_of_decodeWord {i : Instr} {w : IWord} (h : decodeWord w = .ok i) : encode i = some w := by
  obtain ⟨⟨hprefix, hcrn⟩, r, hrow, rfl⟩ := (decodeWord_ok_iff_row w i).mp h
  obtain ⟨hmem, hop1, hcrm, hop2⟩ := rowAt_some hrow
  refine (encode_eq_some_iff _ w).mpr ⟨_, _, _, _, encodeFields_make r hmem _, ?_⟩
  rw [hop1, hcrm, hop2]
  exact sysWord_of_fields w hprefix hcrn

/-- Decoding and encoding are inverse on words. -/
theorem decodeWord_ok_iff_encode (i : Instr) (w : IWord) : decodeWord w = .ok i ↔ encode i = some w :=
  ⟨encode_of_decodeWord, decodeWord_of_encode⟩

/-- Decoding the bytes of a word, lowest address first, is decoding the word; the bytes after them are left. -/
theorem decode_bytesOfWord (w : IWord) (rest : List Byte) :
    decode (bytesOfWord w ++ rest) = (decodeWord w).map fun i => (i, rest) := by
  simp only [bytesOfWord, List.cons_append, List.nil_append, decode, wordOfBytes_bytesOfWord]
  cases decodeWord w <;> rfl

/-- Settles O1, from the two directions on words and the bytes of a word; which row makes an instruction is read off the
table constructor by constructor. -/
theorem decodeAndEncodeAgree : Obligations.DecodeAndEncodeAgree := by
  refine ⟨encode_isSome_or_text, decodeWord_ok_iff_encode, fun i w rest h => ?_⟩
  rw [decode_bytesOfWord, decodeWord_of_encode h]
  rfl

/-- Settles O2: each of the three words is the word of the instruction named. -/
theorem wordsOfTheSpecDecode : Obligations.WordsOfTheSpecDecode :=
  ⟨decodeWord_of_encode (by decide), decodeWord_of_encode (by decide), decodeWord_of_encode (by decide)⟩

/-- Settles O3: a word that decoded would be the word of an instruction. -/
theorem unlistedWordIsRefused : Obligations.UnlistedWordIsRefused := by
  intro s inp w rest hreq hunlisted
  have hstep : step s = runWord w (startRequest s inp rest) := step_request hreq
  cases hw : decodeWord w with
  | ok i => exact absurd (encode_of_decodeWord hw) (hunlisted i)
  | error e => exact ⟨e, hstep.trans (runWord_error hw)⟩

/-- The step of a requested instruction, a term or a word that decodes to it, is `exec` of it and the report. -/
theorem step_instr {s : State} {inp : Inputs} {a : Action} {rest : List Request} {i : Instr}
    (hreq : s.requests = ⟨inp, a⟩ :: rest) (ha : a = .instr i ∨ ∃ w, a = .instrWord w ∧ decodeWord w = .ok i) :
    step s = reportDone (exec i (startRequest s inp rest)) := by
  rw [step_request hreq]
  obtain rfl | ⟨w, rfl, hw⟩ := ha
  · rfl
  · exact runWord_ok hw

/-- Settles O19: the report keeps a refusal and marks a next state as done. -/
theorem stepRunsTheDecodedInstruction : Obligations.StepRunsTheDecodedInstruction := by
  intro s inp a rest i hreq ha
  rw [step_instr hreq ha]
  exact ⟨fun t ht => by rw [ht, reportDone], fun z hz => by rw [hz, reportDone]⟩

/-- An instruction read from a table number is what the number's word decodes to. -/
theorem decodeWord_of_decodeTableWord {nbits w : Nat} {i : Instr} (h : decodeTableWord nbits w = some i) :
    decodeWord (wordOfTable nbits w) = .ok i := by
  have hd := decode_bytesOfWord (wordOfTable nbits w) []
  rw [List.append_nil] at hd
  rw [decodeTableWord, hd] at h
  cases hw : decodeWord (wordOfTable nbits w) with
  | ok j =>
    rw [hw] at h
    exact congrArg Except.ok (Option.some.inj h)
  | error e =>
    rw [hw] at h
    cases h

/-- Settles O21: the request placed is the head of the queue, and its word decodes to the instruction. -/
theorem placedInstructionRunsNext : Obligations.PlacedInstructionRunsNext := by
  intro s nbits w i hi t ht
  have hreq : (s.withFetchWord nbits w).requests = ⟨s.inputs, .instrWord (wordOfTable nbits w)⟩ :: s.requests := rfl
  exact (stepRunsTheDecodedInstruction _ _ _ _ i hreq (.inr ⟨_, rfl, decodeWord_of_decodeTableWord hi⟩)).1 t ht

end Sys2Proof.Machine
end

section
/-! SUPPORT. The text form of `TLBI` and the binary rows (30_encoding.md R46, R48, 40_tlb_tlbi.md R56). -/

namespace Sys2Proof.Machine

/-- The argument of the text form: the value of a present `<Xt>` where the operation takes one, and none otherwise (R56, corner (d)). -/
theorem textArg_eq (op : TlbiOp) (xt : Option (BitVec 5)) (s : State) :
    textArg op xt s = if takesXt op.kind then xt.map (readX s) else none := by
  unfold textArg wordArg
  cases xt <;> cases takesXt op.kind <;> rfl

/-- The text form of an operation runs the operation. -/
theorem exec_text (op : TlbiOp) (xt : Option (BitVec 5)) (s : State) :
    exec (.tlbi (opName op) xt) s = tlbi op (textArg op xt s) s := by
  rw [exec_eq, instrOp, opOfName?_opName]
  rfl

/-- An instruction that carries a register number does what the text form of its operation does with that register. -/
theorem exec_eq_text {i : Instr} {op : TlbiOp} {rt : BitVec 5} {name : String} (hop : instrOp i = some op)
    (hrt : instrReg i = some rt) (hname : opName op = name) (s : State) : exec i s = exec (.tlbi name (some rt)) s := by
  subst hname
  rw [exec_text, exec_eq, hop, hrt]

/-- Settles O12, by the equation of the text form and the refusal of a name that is no operation's. -/
theorem textFormRunsTheNamedOperation : Obligations.TextFormRunsTheNamedOperation := by
  refine ⟨fun s op xt hallowed => ?_, fun s name xt hname => ?_⟩
  · rw [exec_text, tlbi, if_pos hallowed, textArg_eq]
    rfl
  · rw [exec_eq, instrOp, opOfName?_eq_none name hname]

/-- Settles O13: each row's operation has the name R48 spells, and no part of an operation's meaning reads its `IS`. -/
theorem binaryRowsActAsTheirNames : Obligations.BinaryRowsActAsTheirNames := by
  refine ⟨fun s rt => ?_, fun s kind xt => ?_⟩
  · simp only [List.cons_append, List.nil_append, List.forall_mem_cons, List.not_mem_nil, false_imp_iff,
      implies_true, and_true]
    and_intros
    all_goals exact exec_eq_text rfl rfl (by decide) s
  · rw [exec_text, exec_text]
    rfl

end Sys2Proof.Machine
end

section
/-! SUPPORT. Translations without a meaning: an address in no region (60_exceptions.md R87) and the unlisted fields (30_encoding.md R49). -/

namespace Sys2Proof.Machine

/-- A regime has an output size, at EL1 and EL0 where the IPS value is listed. -/
theorem outSize_ne_none_iff (s : State) (rg : Regime) :
    outSize s rg ≠ none ↔ (rg = .el1and0 → s.cfg.outBitsOfIPS.get s.tcrEl1.ips.toFin ≠ none) := by
  cases rg <;> simp [outSize, outBitsOfIPS]

/-- EL0 and EL1 share a regime. -/
theorem regimeOf_eq_el1and0_iff (el : EL) : regimeOf el = .el1and0 ↔ el = .el0 ∨ el = .el1 := by
  cases el <;> simp [regimeOf]

/-- At EL0 and EL1 a listed IPS value gives an output size. -/
theorem outSize_of_listed {s : State} {el : EL}
    (h : el = .el0 ∨ el = .el1 → s.cfg.outBitsOfIPS.get s.tcrEl1.ips.toFin ≠ none) : outSize s (regimeOf el) ≠ none :=
  (outSize_ne_none_iff s _).mpr fun hr => h ((regimeOf_eq_el1and0_iff el).mp hr)

/-- EL0 and EL1 share the selection of a region. -/
theorem selectRegion_el1and0 {el : EL} (h : el = .el0 ∨ el = .el1) (s : State) (va : VAddr) (acc : AccessKind) :
    selectRegion s va acc el = selectEl1and0 s va acc := by
  obtain rfl | rfl := h <;> rfl

section
variable {s : State} {va : VAddr} {acc : AccessKind} {el : EL}

/-- Without an output size a translation is refused. -/
theorem translate_of_no_outSize (h : outSize s (regimeOf el) = none) (c : Choice) :
    translate c s va acc el = .refused .ipsNotListed := by
  rw [translate, translationRegion, h]

/-- A fault of the selection is the translation's. -/
theorem translate_of_select_fault {f : Fault} (hsize : outSize s (regimeOf el) ≠ none)
    (h : selectRegion s va acc el = .fault f) (c : Choice) : translate c s va acc el = .fault f := by
  obtain ⟨w, hw⟩ := Option.ne_none_iff_exists'.mp hsize
  rw [translate, translationRegion, hw, h]

/-- A refusal of the selection is the translation's. -/
theorem translate_of_select_refused {z : Refusal} (hsize : outSize s (regimeOf el) ≠ none)
    (h : selectRegion s va acc el = .refused z) (c : Choice) : translate c s va acc el = .refused z := by
  obtain ⟨w, hw⟩ := Option.ne_none_iff_exists'.mp hsize
  rw [translate, translationRegion, hw, h]

/-- A region without a walk refuses every translation in it. -/
theorem translate_of_walk_not_given {r : Region} (hsize : outSize s (regimeOf el) ≠ none)
    (h : selectRegion s va acc el = .ok r) (hwalk : walkGiven s.cfg r = false) (c : Choice) :
    translate c s va acc el = .refused .walkNotGiven := by
  obtain ⟨w, hw⟩ := Option.ne_none_iff_exists'.mp hsize
  simp [translate, translationRegion, hw, h, hwalk]

end

/-- The bounds of R49 on a size field. -/
theorem txszLegal_iff (cfg : Config) (n : Nat) : txszLegal cfg n = true ↔ cfg.txszMin ≤ n ∧ n ≤ cfg.txszMax := by
  simp [txszLegal]

/-- The walks that are given: the source's, and under the extension of R85 those of one to four tables. -/
theorem walkGiven_iff (cfg : Config) (r : Region) :
    walkGiven cfg r = true ↔
      r.granule = .kb64 ∧ r.n = 22 ∨
      cfg.generalWalk = true ∧ 1 ≤ tableCount r.granule r.n ∧ tableCount r.granule r.n ≤ 4 := by
  simp [walkGiven, sourceGeometry]

/-- An address is outside the lower region when one of the bits R72 checks is 1. -/
theorem inLower_eq_false {tag : Bool} {n : Nat} {va : VAddr}
    (h : ∃ i, 64 - n ≤ i ∧ i ≤ topBit tag ∧ va.getLsbD i = true) : inLower tag n va = false := by
  obtain ⟨i, hlo, hhi, hbit⟩ := h
  rw [Bool.eq_false_iff]
  intro hin
  simp [(sliceZeros_iff_bits _ _ _).mp hin i hlo hhi] at hbit

/-- An address is outside the upper region when one of the bits R72 checks is 0. -/
theorem inUpper_eq_false {tag : Bool} {n : Nat} {va : VAddr}
    (h : ∃ i, 64 - n ≤ i ∧ i ≤ topBit tag ∧ va.getLsbD i = false) : inUpper tag n va = false := by
  obtain ⟨i, hlo, hhi, hbit⟩ := h
  rw [Bool.eq_false_iff]
  intro hin
  simp [(sliceOnes_iff_bits _ _ _).mp hin i hlo hhi] at hbit

/-- Outside the single region the selection faults. -/
theorem selectSingle_fault {tag : Bool} {va : VAddr} (h : inLower tag 16 va = false) (base : DWord) (g : Granule) (rg : Regime)
    (acc : AccessKind) : selectSingle base g rg tag va acc = .fault (.vaRange va acc) := by
  simp [selectSingle, h]

/-- With a size field out of bounds the selection at EL0 and EL1 is refused. -/
theorem selectEl1and0_out_of_bounds {s : State}
    (h : ¬ (txszLegal s.cfg s.tcrEl1.t0sz.toNat = true ∧ txszLegal s.cfg s.tcrEl1.t1sz.toNat = true)) (va : VAddr)
    (acc : AccessKind) : selectEl1and0 s va acc = .refused .txszOutOfBounds := by
  rw [selectEl1and0, if_neg (by simpa using h)]

section
variable {s : State} {va : VAddr} (h0 : txszLegal s.cfg s.tcrEl1.t0sz.toNat = true)
  (h1 : txszLegal s.cfg s.tcrEl1.t1sz.toNat = true)
include h0 h1

/-- In neither region the selection at EL0 and EL1 faults. -/
theorem selectEl1and0_fault (hl : inLower s.cfg.tag0 s.tcrEl1.t0sz.toNat va = false)
    (hu : inUpper s.cfg.tag1 s.tcrEl1.t1sz.toNat va = false) (acc : AccessKind) :
    selectEl1and0 s va acc = .fault (.vaRange va acc) := by
  simp [selectEl1and0, h0, h1, hl, hu]

/-- In the lower region an unlisted TG0 is refused. -/
theorem selectEl1and0_lower_unlisted (hl : inLower s.cfg.tag0 s.tcrEl1.t0sz.toNat va = true)
    (hu : inUpper s.cfg.tag1 s.tcrEl1.t1sz.toNat va = false) (hg : granuleOfTG0 s.cfg s.tcrEl1.tg0 = none) (acc : AccessKind) :
    selectEl1and0 s va acc = .refused .granuleNotListed := by
  simp [selectEl1and0, h0, h1, hl, hu, hg]

/-- In the upper region an unlisted TG1 is refused. -/
theorem selectEl1and0_upper_unlisted (hl : inLower s.cfg.tag0 s.tcrEl1.t0sz.toNat va = false)
    (hu : inUpper s.cfg.tag1 s.tcrEl1.t1sz.toNat va = true) (hg : granuleOfTG1 s.cfg s.tcrEl1.tg1 = none) (acc : AccessKind) :
    selectEl1and0 s va acc = .refused .granuleNotListed := by
  simp [selectEl1and0, h0, h1, hl, hu, hg]

end

/-- Settles O37: a wrong bit puts the address outside a region, outside both the selection faults, and the fault is the
translation's. -/
theorem addressInNoRegionFaults : Obligations.AddressInNoRegionFaults := by
  intro s c va acc
  refine ⟨fun el hel hips h0min h0max h1min h1max hlow hup => ?_, fun hbit => ?_, fun hbit => ?_⟩
  · refine translate_of_select_fault (outSize_of_listed fun _ => hips) ?_ c
    rw [selectRegion_el1and0 hel]
    exact selectEl1and0_fault ((txszLegal_iff _ _).mpr ⟨h0min, h0max⟩) ((txszLegal_iff _ _).mpr ⟨h1min, h1max⟩)
      (inLower_eq_false hlow) (inUpper_eq_false hup) acc
  · exact translate_of_select_fault (el := .el2) (outSize_of_listed (by simp))
      (selectSingle_fault (inLower_eq_false hbit) _ _ _ acc) c
  · exact translate_of_select_fault (el := .el3) (outSize_of_listed (by simp))
      (selectSingle_fault (inLower_eq_false hbit) _ _ _ acc) c

/-- Settles O41, by the order in which a translation looks at its fields: IPS, TxSZ, the granule, the geometry. -/
theorem unlistedFieldsAreRefused : Obligations.UnlistedFieldsAreRefused := by
  refine ⟨fun s c va acc el hel hips => ?_, fun s c va acc el hel hips hbounds => ?_,
    fun s c va acc el hel hips h0 h1 hgranule => ?_, fun s c va acc el r hips hr hsource hgeneral => ?_⟩
  · refine translate_of_no_outSize ?_ c
    rw [(regimeOf_eq_el1and0_iff el).mpr hel]
    exact hips
  · refine translate_of_select_refused (outSize_of_listed fun _ => hips) ?_ c
    rw [selectRegion_el1and0 hel]
    refine selectEl1and0_out_of_bounds ?_ va acc
    rw [txszLegal_iff, txszLegal_iff]
    omega
  · refine translate_of_select_refused (outSize_of_listed fun _ => hips) ?_ c
    rw [selectRegion_el1and0 hel]
    obtain ⟨hl, hu, hg⟩ | ⟨hl, hu, hg⟩ := hgranule
    · exact selectEl1and0_lower_unlisted h0 h1 hl hu hg acc
    · exact selectEl1and0_upper_unlisted h0 h1 hl hu hg acc
  · refine translate_of_walk_not_given (outSize_of_listed hips) hr ?_ c
    rw [Bool.eq_false_iff, Ne, walkGiven_iff]
    rintro (h | ⟨hgen, hmin, hmax⟩)
    · exact hsource h
    · rw [hgen] at hgeneral
      simp at hgeneral
      omega

end Sys2Proof.Machine
end

section
/-! SUPPORT. A TLB hit (40_tlb_tlbi.md R51, R52). -/

namespace Sys2Proof.Machine

/-- A hit on an entry that permits the access. -/
theorem hitResult_ok {s : State} {e : TlbEntry} {acc : AccessKind} {el : EL} (h : permits s.cfg e.attrs acc el = true)
    (ea va : VAddr) : hitResult s e ea va acc el = .ok ⟨hitAddress e ea, e.attrs, s.tlb⟩ :=
  if_pos h

/-- A hit on an entry that does not. -/
theorem hitResult_fault {s : State} {e : TlbEntry} {acc : AccessKind} {el : EL} (h : permits s.cfg e.attrs acc el = false)
    (ea va : VAddr) : hitResult s e ea va acc el = .fault (.permission e.level va acc) :=
  if_neg (by rw [hitPermits, h]; exact Bool.false_ne_true)

/-- The selection of a region reads neither memory nor IPS. -/
theorem selectRegion_mem_ips (s : State) (m : Memory) (ips : BitVec 3) (va : VAddr) (acc : AccessKind) (el : EL) :
    selectRegion { s with mem := m, tcrEl1 := { s.tcrEl1 with ips := ips } } va acc el = selectRegion s va acc el := by
  cases el <;> rfl

/-- Settles O48: a used entry matches, and a translation with a used entry is the outcome of the hit, which reads neither
memory nor IPS. -/
theorem hitUsesTheEntryAlone : Obligations.HitUsesTheEntryAlone := by
  intro s c va acc el r e hr hused hips hgeometry
  obtain ⟨hmem, hmatch⟩ := usedEntry_mem hused
  have hwalk : walkGiven s.cfg r = true := (walkGiven_iff _ _).mpr hgeometry
  have hregime : r.regime = regimeOf el := selectRegion_regime hr
  have hsize : outSize s (regimeOf el) ≠ none := (outSize_ne_none_iff s _).mpr (hregime ▸ hips)
  have hhit : translate c s va acc el = hitResult s e r.ea va acc el :=
    translate_hit (translationRegion_ok_iff.mpr ⟨hsize, hr, hwalk⟩) hused
  refine ⟨⟨hmem, (entryMatches_iff _ _ _ _).mp hmatch⟩, fun hp => ?_, fun hp => ?_, fun m ips hlisted => ?_⟩
  · exact ⟨_, hhit.trans (hitResult_ok hp _ _), rfl, rfl, fun i hi => getLsbD_joinAt _ _ _ i hi⟩
  · exact hhit.trans (hitResult_fault hp _ _)
  · rw [hhit]
    exact translate_hit (translationRegion_ok_iff.mpr
      ⟨(outSize_ne_none_iff _ _).mpr fun _ => hlisted, (selectRegion_mem_ips ..).trans hr, hwalk⟩) hused

end Sys2Proof.Machine
end

section
/-! SUPPORT. What each `TLBI` row removes, its frame, and its refusal below its level (40_tlb_tlbi.md R56, R57; the selection is
GK6's, log 12). -/

namespace Sys2Proof.Machine

/-! The levels (GK6, log 16). -/

/-- An operation of `E1` runs above EL0. -/
theorem tlbiAllowed_of_el1 {s : State} {k : TlbiKind} (hk : opLevel k = .el1)
    (h : s.cfg.tlbiPrivilege = true → s.inputs.el ≠ .el0) : tlbiAllowed s k = true :=
  (tlbiAllowed_iff s k).mpr fun hp => ⟨h hp, by simp [hk], by simp [hk]⟩

/-- An operation of `E2` runs at EL2 and EL3. -/
theorem tlbiAllowed_of_el2 {s : State} {k : TlbiKind} (hk : opLevel k = .el2)
    (h : s.cfg.tlbiPrivilege = true → s.inputs.el = .el2 ∨ s.inputs.el = .el3) : tlbiAllowed s k = true :=
  (tlbiAllowed_iff s k).mpr fun hp => by obtain hel | hel := h hp <;> simp [hk, hel]

/-- An operation of `E3` runs at EL3. -/
theorem tlbiAllowed_of_el3 {s : State} {k : TlbiKind} (hk : opLevel k = .el3)
    (h : s.cfg.tlbiPrivilege = true → s.inputs.el = .el3) : tlbiAllowed s k = true :=
  (tlbiAllowed_iff s k).mpr fun hp => by simp [hk, h hp]

/-- With the check of GK6 on, an operation below its level is not allowed. -/
theorem tlbiAllowed_below {s : State} {k : TlbiKind} (hp : s.cfg.tlbiPrivilege = true)
    (h : s.inputs.el = .el0 ∨ (opLevel k = .el2 ∧ s.inputs.el = .el1) ∨ (opLevel k = .el3 ∧ s.inputs.el ≠ .el3)) :
    tlbiAllowed s k = false := by
  rw [Bool.eq_false_iff]
  intro hallowed
  obtain ⟨h0, h2, h3⟩ := (tlbiAllowed_iff s k).mp hallowed hp
  obtain hel | ⟨hk, hel⟩ | ⟨hk, hel⟩ := h
  · exact h0 hel
  · exact h2 hk hel
  · exact hel (h3 hk)

/-- An instruction whose operation is not allowed is refused. -/
theorem exec_not_allowed {i : Instr} {op : TlbiOp} {s : State} (hop : instrOp i = some op)
    (h : tlbiAllowed s op.kind = false) : exec i s = .refused .tlbiUndefinedAtLevel := by
  simp [exec_eq, hop, tlbi, h]

/-- Settles O16: the operation of each name and of each row is not allowed below its level. -/
theorem tlbiBelowItsLevelIsRefused : Obligations.TlbiBelowItsLevelIsRefused := by
  intro s hp
  refine ⟨fun op xt hbelow => exec_not_allowed (opOfName?_opName op) (tlbiAllowed_below hp hbelow),
    fun rt => ⟨fun hel => ?_, fun hel => ?_, fun hel => ?_⟩⟩
  · simp only [List.cons_append, List.nil_append, List.forall_mem_cons, List.not_mem_nil, false_imp_iff, implies_true, and_true]
    and_intros
    all_goals exact exec_not_allowed rfl (tlbiAllowed_below hp (.inl hel))
  · have hbelow : ∀ k, opLevel k = .el2 → tlbiAllowed s k = false := fun k hk =>
      tlbiAllowed_below hp (hel.imp_right fun h1 => .inl ⟨hk, h1⟩)
    simp only [List.forall_mem_cons, List.not_mem_nil, false_imp_iff, implies_true, and_true]
    and_intros
    all_goals exact exec_not_allowed rfl (hbelow _ rfl)
  · have hbelow : ∀ k, opLevel k = .el3 → tlbiAllowed s k = false := fun k hk =>
      tlbiAllowed_below hp (.inr (.inr ⟨hk, hel⟩))
    simp only [List.forall_mem_cons, List.not_mem_nil, false_imp_iff, implies_true, and_true]
    and_intros
    all_goals exact exec_not_allowed rfl (hbelow _ rfl)

/-! What each row removes (R57). -/

/-- A row that completes under the table of R57 removes the entries that table selects, for the register's value where the
operation takes one. -/
theorem exec_removes {i : Instr} {op : TlbiOp} {rt : BitVec 5} {s : State} {sel : TlbEntry → Prop} [DecidablePred sel]
    (hop : instrOp i = some op) (hrt : instrReg i = some rt) (htable : s.cfg.tlbiTable = .armv8)
    (hallowed : tlbiAllowed s op.kind = true)
    (hsel : ∀ e, armv8Selects op.kind (if takesXt op.kind then readX s rt else 0) s.inputs.vmid e = true ↔ sel e) :
    exec i s = .next (setTlb s (s.tlb.filter fun e => !decide (sel e))) := by
  have harg : (textArg op (some rt) s).getD 0 = if takesXt op.kind then readX s rt else 0 := by
    rw [textArg_eq]
    split <;> rfl
  refine (exec_next_iff i s _).mpr ⟨op, hop, hallowed, congrArg (setTlb s) (List.filter_congr fun e _ => ?_)⟩
  rw [Bool.not_inj_iff, Bool.eq_iff_iff, decide_eq_true_iff, ← hsel e, tlbiSelects, htable, hrt, harg]

/-- Four rows, each by itself. -/
theorem forall_mem_four {p : Instr → Prop} {a b c d : Instr} : (∀ i ∈ [a, b, c, d], p i) ↔ p a ∧ p b ∧ p c ∧ p d := by
  simp

section
variable (arg : DWord) (vmid : Vmid) (e : TlbEntry)

/-- `ASIDE1` selects by the VMID and the ASID. -/
theorem armv8Selects_aside1 :
    armv8Selects .aside1 arg vmid e = true ↔ e.regime = .el1and0 ∧ e.vmid = vmid ∧ e.asid = argAsid arg := by
  simp [armv8Selects, and_assoc]

/-- `VAE1` selects by the VMID, the ASID and the page. -/
theorem armv8Selects_vae1 :
    armv8Selects .vae1 arg vmid e = true ↔ e.regime = .el1and0 ∧ e.vmid = vmid ∧ e.asid = argAsid arg ∧
      e.vaBase.toNat ≤ (argPage arg).toNat ∧ (argPage arg).toNat + 4096 ≤ e.vaBase.toNat + 2 ^ e.k := by
  simp [armv8Selects, covers_iff, and_assoc]

/-- `VAAE1` selects by the VMID and the page. -/
theorem armv8Selects_vaae1 :
    armv8Selects .vaae1 arg vmid e = true ↔ e.regime = .el1and0 ∧ e.vmid = vmid ∧
      e.vaBase.toNat ≤ (argPage arg).toNat ∧ (argPage arg).toNat + 4096 ≤ e.vaBase.toNat + 2 ^ e.k := by
  simp [armv8Selects, covers_iff, and_assoc]

/-- `VAE2` selects the entries of EL2 by the page. -/
theorem armv8Selects_vae2 :
    armv8Selects .vae2 arg vmid e = true ↔ e.regime = .el2 ∧
      e.vaBase.toNat ≤ (argPage arg).toNat ∧ (argPage arg).toNat + 4096 ≤ e.vaBase.toNat + 2 ^ e.k := by
  simp [armv8Selects, covers_iff]

/-- `VAE3` selects the entries of EL3 by the page. -/
theorem armv8Selects_vae3 :
    armv8Selects .vae3 arg vmid e = true ↔ e.regime = .el3 ∧
      e.vaBase.toNat ≤ (argPage arg).toNat ∧ (argPage arg).toNat + 4096 ≤ e.vaBase.toNat + 2 ^ e.k := by
  simp [armv8Selects, covers_iff]

end

/-- Settles O5: each row runs at its level and selects by the regime. -/
theorem tlbiAllRemovesItsRegime : Obligations.TlbiAllRemovesItsRegime := by
  intro s rt htable
  refine ⟨fun h => ?_, fun h => ?_, fun h => ?_⟩
  · constructor <;> exact exec_removes rfl rfl htable (tlbiAllowed_of_el1 rfl h) fun _ => beq_iff_eq
  · constructor <;> exact exec_removes rfl rfl htable (tlbiAllowed_of_el2 rfl h) fun _ => beq_iff_eq
  · constructor <;> exact exec_removes rfl rfl htable (tlbiAllowed_of_el3 rfl h) fun _ => beq_iff_eq

/-- Settles O6: each of the four rows selects by the VMID. -/
theorem tlbiVmallRemovesTheVmid : Obligations.TlbiVmallRemovesTheVmid := by
  intro s rt htable h
  have hsel : ∀ e, armv8Selects .vmalle1 0 s.inputs.vmid e = true ↔ e.regime = .el1and0 ∧ e.vmid = s.inputs.vmid := by
    simp [armv8Selects]
  refine forall_mem_four.mpr ⟨?_, ?_, ?_, ?_⟩ <;>
    exact exec_removes rfl rfl htable (tlbiAllowed_of_el1 rfl h) hsel

/-- Settles O7: both rows select by the VMID and the ASID of the register. -/
theorem tlbiAsidRemovesTheAsid : Obligations.TlbiAsidRemovesTheAsid := by
  intro s rt htable h
  simp only [List.forall_mem_cons, List.not_mem_nil, false_imp_iff, implies_true, and_true]
  constructor <;> exact exec_removes rfl rfl htable (tlbiAllowed_of_el1 rfl h) (armv8Selects_aside1 (readX s rt) _)

/-- Settles O8: each of the four rows selects by the VMID, the ASID and the page of the register. -/
theorem tlbiVaRemovesThePageOfTheAsid : Obligations.TlbiVaRemovesThePageOfTheAsid := by
  intro s rt htable h
  refine forall_mem_four.mpr ⟨?_, ?_, ?_, ?_⟩ <;>
    exact exec_removes rfl rfl htable (tlbiAllowed_of_el1 rfl h) (armv8Selects_vae1 (readX s rt) _)

/-- Settles O9: each of the four rows selects by the VMID and the page of the register. -/
theorem tlbiVaaRemovesThePageOfEveryAsid : Obligations.TlbiVaaRemovesThePageOfEveryAsid := by
  intro s rt htable h
  refine forall_mem_four.mpr ⟨?_, ?_, ?_, ?_⟩ <;>
    exact exec_removes rfl rfl htable (tlbiAllowed_of_el1 rfl h) (armv8Selects_vaae1 (readX s rt) _)

/-- Settles O10: each row runs at its level and selects by its regime and the page of the register. -/
theorem tlbiVaOfEl2AndEl3RemovesThePage : Obligations.TlbiVaOfEl2AndEl3RemovesThePage := by
  intro s rt htable
  refine ⟨fun h => ?_, fun h => ?_⟩
  · refine forall_mem_four.mpr ⟨?_, ?_, ?_, ?_⟩ <;>
      exact exec_removes rfl rfl htable (tlbiAllowed_of_el2 rfl h) (armv8Selects_vae2 (readX s rt) s.inputs.vmid)
  · refine forall_mem_four.mpr ⟨?_, ?_, ?_, ?_⟩ <;>
      exact exec_removes rfl rfl htable (tlbiAllowed_of_el3 rfl h) (armv8Selects_vae3 (readX s rt) s.inputs.vmid)

/-- Settles O11: none of the four rows selects an entry. -/
theorem tlbiIpas2ChangesNothing : Obligations.TlbiIpas2ChangesNothing := by
  intro s rt htable h
  have hkeep : setTlb s (s.tlb.filter fun _ => !decide False) = s := by simp [setTlb]
  have hsel : ∀ e, armv8Selects .ipas2e1 (readX s rt) s.inputs.vmid e = true ↔ False := by simp [armv8Selects]
  refine forall_mem_four.mpr ⟨?_, ?_, ?_, ?_⟩ <;>
    exact (exec_removes rfl rfl htable (tlbiAllowed_of_el1 rfl h) hsel).trans (congrArg _ hkeep)

/-! The frame, and a second execution (R56). -/

/-- Settles O14: the state after differs in the TLB alone, which lost entries. -/
theorem tlbiChangesOnlyTheTlb : Obligations.TlbiChangesOnlyTheTlb := by
  intro i s t h
  obtain ⟨ht, hlost⟩ := exec_frame h
  refine ⟨hlost, ?_⟩
  rw [ht]
  exact ⟨rfl, rfl, rfl, rfl, rfl, readX_congr (setTlb_x s _), rfl, rfl, fun _ => rfl, rfl, rfl, rfl, rfl⟩

/-- Invalidating twice is invalidating once. -/
theorem invalidate_invalidate (op : TlbiOp) (arg : Option DWord) (s : State) :
    invalidate op arg (invalidate op arg s) = invalidate op arg s := by
  simp [invalidate, setTlb, List.filter_filter]

/-- Settles O15: after the first execution the level, the register and the inputs are as before, so the second is the same
invalidation again. -/
theorem tlbiTwiceIsTlbiOnce : Obligations.TlbiTwiceIsTlbiOnce := by
  intro i s t h
  obtain ⟨op, hop, hallowed, rfl⟩ := (exec_next_iff i s t).mp h
  exact (exec_next_iff i _ _).mpr ⟨op, hop, hallowed, (invalidate_invalidate op _ s).symm⟩

end Sys2Proof.Machine
end

section
/-! SUPPORT. How the TLB changes at a step: the entries lost and the one entry added (40_tlb_tlbi.md R54, R55). -/

namespace Sys2Proof.Machine

/-! What is lost (R55). -/

/-- Every sublist of the TLB is what some loss leaves: bit `i` of the number says whether entry `i` is lost. -/
theorem exists_loseEntries_eq {l tlb : List TlbEntry} (h : l.Sublist tlb) : ∃ n, loseEntries n tlb = l := by
  induction h with
  | slnil => exact ⟨0, rfl⟩
  | cons e _ ih =>
    obtain ⟨n, hn⟩ := ih
    have hdiv : (2 * n + 1) / 2 = n := by omega
    exact ⟨2 * n + 1, by rw [loseEntries, if_pos (by omega), hdiv, hn]⟩
  | cons_cons e _ ih =>
    obtain ⟨n, hn⟩ := ih
    have hdiv : 2 * n / 2 = n := by omega
    exact ⟨2 * n, by rw [loseEntries, if_neg (by omega), hdiv, hn]⟩

/-- Settles O20: what is lost leaves a sublist, and the rest is as the start of a request writes it. -/
theorem startOfARequestKeepsTheRest : Obligations.StartOfARequestKeepsTheRest :=
  fun _ _ _ => ⟨loseEntries_sublist _ _, rfl⟩

/-- Settles O31: the step is the waiting step, which loses what it loses. -/
theorem emptyQueueWaits : Obligations.EmptyQueueWaits :=
  fun s h => ⟨idleStep s, step_idle h, loseEntries_sublist _ _, rfl⟩

/-- Settles O32: the loss that leaves the sublist, scripted as the next choice, is what either kind of step draws. -/
theorem everySubsetMayBeLost : Obligations.EverySubsetMayBeLost := by
  intro s l c hl
  obtain ⟨n, hn⟩ := exists_loseEntries_eq hl
  refine ⟨n, _, rfl, fun hempty => ⟨_, step_idle hempty, hn⟩, fun inp a rest hreq => ⟨step_request hreq, hn⟩⟩

/-! What is added (R54). -/

/-- What is new in a TLB is one entry at most. -/
def AddsAtMostOne (old new : List TlbEntry) : Prop := ∃ e, ∀ x ∈ new, x ∈ old ∨ x = e

/-- Losing entries adds none. -/
theorem AddsAtMostOne.of_sublist {old new : List TlbEntry} (h : new.Sublist old) : AddsAtMostOne old new :=
  ⟨default, fun _ hx => .inl (h.subset hx)⟩

/-- Losing entries before and after leaves what is added. -/
theorem AddsAtMostOne.between_losses {a b c d : List TlbEntry} (h : AddsAtMostOne b c) (hab : b.Sublist a) (hcd : d.Sublist c) :
    AddsAtMostOne a d := by
  obtain ⟨e, he⟩ := h
  exact ⟨e, fun x hx => (he x (hcd.subset hx)).imp_left fun hb => hab.subset hb⟩

/-- A fill adds its one entry. -/
theorem fill_addsAtMostOne (c : Choice) (inp : Inputs) (r : Region) (wk : WalkEnd) (tlb : List TlbEntry) :
    AddsAtMostOne tlb (fill c inp r wk tlb) := by
  obtain h | ⟨k, -, -, h⟩ := fill_cases c inp r wk tlb <;> rw [h]
  · exact .of_sublist (List.Sublist.refl _)
  · exact ⟨_, fun _ hx => (List.mem_cons.mp hx).symm⟩

/-- A translation adds the entry of its walk or none. -/
theorem translate_addsAtMostOne {c : Choice} {s : State} {va : VAddr} {acc : AccessKind} {el : EL} {tr : Translated}
    (h : translate c s va acc el = .ok tr) : AddsAtMostOne s.tlb tr.tlb := by
  obtain ⟨r, -, ⟨e, -, -, rfl⟩ | ⟨-, wk, -, rfl⟩⟩ := translate_ok h
  · exact .of_sublist (List.Sublist.refl _)
  · exact fill_addsAtMostOne c s.inputs r wk s.tlb

/-- Every action adds at most one entry: only a translation adds any, and no action makes two. -/
theorem Performed.addsAtMostOne {c : Choice} {u t : State} {a : Action} (h : Performed c u a t) : AddsAtMostOne u.tlb t.tlb := by
  cases h with
  | instr i v hv => exact .of_sublist (exec_frame hv).2
  | instrWord w i v _ hv => exact .of_sublist (exec_frame hv).2
  | fetchRun va tr i v htr _ hv => exact (translate_addsAtMostOne htr).between_losses (List.Sublist.refl _) (exec_frame hv).2
  | accessLoad kind va n value tr _ htr => exact translate_addsAtMostOne htr
  | accessStore va n value tr htr => exact translate_addsAtMostOne htr
  | writeSysReg w => exact .of_sublist (by simp)
  | setX r v => exact .of_sublist (by simp)
  | memWrite | accessSplit | accessFault | fetchFault => exact .of_sublist (List.Sublist.refl _)

/-- Settles O28: a waiting step only loses entries, and a request adds at most one after the loss. -/
theorem stepAddsAtMostOneEntry : Obligations.StepAddsAtMostOneEntry := by
  intro s t h
  have hlost : (loseEntries (choiceOf s).lost s.tlb).Sublist s.tlb := loseEntries_sublist _ _
  obtain ⟨-, rfl⟩ | ⟨inp, a, rest, -, hp⟩ := step_next h
  · exact AddsAtMostOne.of_sublist hlost
  · exact hp.addsAtMostOne.between_losses hlost (List.Sublist.refl _)

end Sys2Proof.Machine
end

section
/-! SUPPORT. A TLB miss and its fill (40_tlb_tlbi.md R53, R54), and what EL2 and EL3 cannot influence (R51, 41_va_regions.md R62,
60_exceptions.md R92). -/

namespace Sys2Proof.Machine

/-- The regions of EL2 and EL3 have a size field of 16. -/
theorem selectSingle_n {base : DWord} {g : Granule} {rg : Regime} {tag : Bool} {va : VAddr} {acc : AccessKind} {r : Region}
    (h : selectSingle base g rg tag va acc = .ok r) : r.n = 16 := by
  unfold selectSingle at h
  split at h
  · injection h with h
    subst h
    rfl
  · cases h

/-- A region whose size field is not 16 is one of EL1 and EL0. -/
theorem regime_of_size {s : State} {va : VAddr} {acc : AccessKind} {el : EL} {r : Region}
    (h : selectRegion s va acc el = .ok r) (hn : r.n ≠ 16) : r.regime = .el1and0 := by
  rw [selectRegion_regime h]
  cases el with
  | el0 | el1 => rfl
  | el2 | el3 => exact absurd (selectSingle_n h) hn

/-- The region whose walk the source spells out. -/
theorem sourceGeometry_iff (r : Region) : sourceGeometry r = true ↔ r.granule = .kb64 ∧ r.n = 22 := by
  simp [sourceGeometry]

section
variable {c : Choice} {s : State} {r : Region} {va : VAddr} {acc : AccessKind} {el : EL}

/-- A miss whose walk faults. -/
theorem missResult_fault {f : Fault} (h : missWalk c s r va acc el = .fault f) : missResult c s r va acc el = .fault f := by
  rw [missResult, h]

/-- A miss whose walk is refused. -/
theorem missResult_refused {z : Refusal} (h : missWalk c s r va acc el = .refused z) :
    missResult c s r va acc el = .refused z := by
  rw [missResult, h]

/-- A miss whose walk succeeds. -/
theorem missResult_ok {wk : WalkEnd} (h : missWalk c s r va acc el = .ok wk) :
    missResult c s r va acc el = .ok ⟨wk.pa, wk.attrs, fill c s.inputs r wk s.tlb⟩ := by
  rw [missResult, h]

end

/-- Settles O49: with no matching entry none is used, so the translation has the outcome of the walk, which in the source's
geometry is `Walk64K42`. -/
theorem missWalksTheTables : Obligations.MissWalksTheTables := by
  intro s c va acc el r hr hmatch
  have hused : usedEntry c s r = none := usedEntry_none fun e he => by
    rw [Bool.eq_false_iff, Ne, entryMatches_iff]
    exact hmatch e he
  have hmiss : translate c s va acc el = missResult c s r va acc el := translate_miss hr hused
  refine ⟨fun f hf => hmiss.trans (missResult_fault hf), fun z hz => hmiss.trans (missResult_refused hz),
    fun wk hwk => ⟨_, hmiss.trans (missResult_ok hwk), rfl, rfl⟩, fun w hg hn hw => ?_⟩
  refine missWalk_source ?_ ((sourceGeometry_iff r).mpr ⟨hg, hn⟩)
  rw [regime_of_size hr (by omega)]
  exact hw

/-- Settles O50: the translation is the miss, whose TLB is the fill's; a narrow fill adds the entry of the walk's own range, a
wide one that of the group, and neither the entry used nor the walk reads the choice of the fill. -/
theorem fillIsOptional : Obligations.FillIsOptional := by
  intro s c va acc el r wk hr hused hwk
  have hfill : ∀ f, translate { c with fill := f } s va acc el =
      .ok ⟨wk.pa, wk.attrs, fill { c with fill := f } s.inputs r wk s.tlb⟩ := fun f =>
    (translate_miss (c := { c with fill := f }) hr hused).trans (missResult_ok (c := { c with fill := f }) hwk)
  refine ⟨⟨_, hfill c.fill, ?_⟩, ⟨.none, _, hfill .none, rfl⟩, ?_⟩
  · exact (fill_cases c s.inputs r wk s.tlb).imp_right fun ⟨k, hk, _, hadd⟩ => ⟨k, hk, hadd⟩
  · rintro k (rfl | hwide)
    · exact ⟨.narrow, _, hfill .narrow, mem_addEntry _ _⟩
    · refine ⟨.wide, _, hfill .wide, ?_⟩
      simp only [fill, hwide]
      exact mem_addEntry _ _

/-! EL2 and EL3. -/

/-- What a translation gives the access: the address and attributes, the fault or the refusal. -/
def Result.forAccess : Result Translated → Result (PAddr × Attrs)
  | .ok t => .ok (t.pa, t.attrs)
  | .fault f => .fault f
  | .refused z => .refused z

/-- A translation that gives an access an address gives it that one. -/
theorem Result.forAccess_eq_ok {o : Result Translated} {a : PAddr × Attrs} (h : o.forAccess = .ok a) :
    ∃ t, o = .ok t ∧ t.pa = a.1 ∧ t.attrs = a.2 := by
  cases o with
  | ok t => cases h; exact ⟨t, rfl, rfl, rfl⟩
  | fault f => cases h
  | refused z => cases h

/-- A translation that gives an access a fault gives it that one. -/
theorem Result.forAccess_eq_fault {o : Result Translated} {f : Fault} (h : o.forAccess = .fault f) : o = .fault f := by
  cases o with
  | fault f' => cases h; rfl
  | ok t => cases h
  | refused z => cases h

/-- A translation that gives an access a refusal gives it that one. -/
theorem Result.forAccess_eq_refused {o : Result Translated} {z : Refusal} (h : o.forAccess = .refused z) : o = .refused z := by
  cases o with
  | refused z' => cases h; rfl
  | ok t => cases h
  | fault f => cases h

/-- What EL0 and EL1 read of a state: their registers, memory, the inputs, the configuration, and the EL1 and EL0 entries
of the TLB. -/
structure SameForEl1and0 (s s' : State) : Prop where
  tcr    : s'.tcrEl1 = s.tcrEl1
  ttbr0  : s'.ttbr0El1 = s.ttbr0El1
  ttbr1  : s'.ttbr1El1 = s.ttbr1El1
  mem    : s'.mem = s.mem
  inputs : s'.inputs = s.inputs
  cfg    : s'.cfg = s.cfg
  tlb    : s'.tlb.filter (fun e => decide (e.regime = .el1and0)) = s.tlb.filter (fun e => decide (e.regime = .el1and0))

/-- The entries that match an access in a regime are among those of the regime. -/
theorem matching_eq_filter_regime (s : State) (r : Region) :
    matching s r =
      (s.tlb.filter fun e => decide (e.regime = r.regime)).filter fun e => entryMatches s.inputs e r.ea r.regime := by
  rw [List.filter_filter]
  refine List.filter_congr fun e _ => ?_
  rw [Bool.eq_iff_iff, Bool.and_eq_true, decide_eq_true_eq, iff_self_and, entryMatches_iff]
  exact And.left

section
variable {s s' : State} (h : SameForEl1and0 s s')
include h

/-- The same region is selected, or the same fault or refusal. -/
theorem SameForEl1and0.selectEl1and0_eq (va : VAddr) (acc : AccessKind) : selectEl1and0 s' va acc = selectEl1and0 s va acc := by
  simp only [selectEl1and0, h.tcr, h.ttbr0, h.ttbr1, h.cfg]

/-- The output size is the same. -/
theorem SameForEl1and0.outSize_eq : outSize s' .el1and0 = outSize s .el1and0 := by
  simp only [outSize, h.tcr, h.cfg]

/-- The region of a translation is the same. -/
theorem SameForEl1and0.translationRegion_eq {el : EL} (hel : el = .el0 ∨ el = .el1) (va : VAddr) (acc : AccessKind) :
    translationRegion s' va acc el = translationRegion s va acc el := by
  simp only [translationRegion, (regimeOf_eq_el1and0_iff el).mpr hel, selectRegion_el1and0 hel, h.outSize_eq,
    h.selectEl1and0_eq, h.cfg]

section
variable {r : Region} (hr : r.regime = .el1and0)
include hr

/-- The same entry is used. -/
theorem SameForEl1and0.usedEntry_eq (c : Choice) : usedEntry c s' r = usedEntry c s r := by
  have hm : matching s' r = matching s r := by
    rw [matching_eq_filter_regime, matching_eq_filter_regime, hr, h.tlb, h.inputs]
  simp only [usedEntry, hm]

/-- The walk is the same. -/
theorem SameForEl1and0.missWalk_eq (c : Choice) (va : VAddr) (acc : AccessKind) (el : EL) :
    missWalk c s' r va acc el = missWalk c s r va acc el := by
  simp only [missWalk, hr, h.outSize_eq, h.mem, h.cfg]

end

/-- A translation at EL0 or EL1 gives the access the same. -/
theorem SameForEl1and0.forAccess_eq {el : EL} (hel : el = .el0 ∨ el = .el1) (c : Choice) (va : VAddr) (acc : AccessKind) :
    (translate c s' va acc el).forAccess = (translate c s va acc el).forAccess := by
  have hregion := h.translationRegion_eq hel va acc
  cases hr : translationRegion s va acc el with
  | fault f => simp only [translate, hregion, hr]
  | refused z => simp only [translate, hregion, hr]
  | ok r =>
    have hregime : r.regime = .el1and0 := (selectRegion_ok (translationRegion_ok_iff.mp hr).2.1).1.mpr hel
    rw [translate_of_region hr, translate_of_region (hregion.trans hr), h.usedEntry_eq hregime]
    cases usedEntry c s r with
    | some e =>
      simp only [hitResult, h.cfg]
      split <;> rfl
    | none =>
      simp only [missResult, h.missWalk_eq hregime]
      cases missWalk c s r va acc el <;> rfl

end

/-- Settles O53: the address and attributes, the fault or the refusal a translation gives depend on nothing else. -/
theorem el2AndEl3CannotInfluenceEl1 : Obligations.El2AndEl3CannotInfluenceEl1 := by
  intro s s' c va acc el hel htcr h0 h1 hmem hinputs hcfg htlb
  have hsame := SameForEl1and0.forAccess_eq ⟨htcr, h0, h1, hmem, hinputs, hcfg, htlb⟩ hel c va acc
  refine ⟨fun t ht => ?_, fun f hf => ?_, fun z hz => ?_⟩
  · exact Result.forAccess_eq_ok (hsame.trans (congrArg Result.forAccess ht))
  · exact Result.forAccess_eq_fault (hsame.trans (congrArg Result.forAccess hf))
  · exact Result.forAccess_eq_refused (hsame.trans (congrArg Result.forAccess hz))

end Sys2Proof.Machine
end

section
/-! SUPPORT. The walk the source spells out, lookup by lookup (42_translation_walk.md R78 to R81). -/

namespace Sys2Proof.Machine

/-- The address of the level 2 entry a walk reads first. -/
def entry2Addr (ttbr : DWord) (ea : VAddr) : PAddr := ttbr.extractLsb 47 16 ++ ea.extractLsb 41 29 ++ 0#3

/-- The address of the level 3 entry a walk reads in the table of a level 2 entry. -/
def entry3Addr (d2 : DWord) (ea : VAddr) : PAddr := d2.extractLsb 47 16 ++ ea.extractLsb 28 16 ++ 0#3

/-- What a walk that ends in a level 3 page returns. -/
def pageEnd (cfg : Config) (q : WalkFor) (d2 d3 : DWord) : WalkEnd where
  pa := d3.extractLsb 47 16 ++ q.ea.extractLsb 15 0
  attrs := [entryAttrs cfg 2 true d2, entryAttrs cfg 3 false d3]
  level := 3
  k := 16
  wide := wideSize cfg .kb64 d3

/-- The upper bits of a 64KB-aligned table address. -/
theorem extractLsb_tableBase (d : DWord) : (d.extractLsb 47 16 ++ 0#16 : PAddr).extractLsb 47 16 = d.extractLsb 47 16 := by
  simp (disch := omega) only [BitVec.extractLsb, BitVec.extractLsb'_append_eq_of_le]
  exact BitVec.extractLsb'_eq_self

/-- The first entry's address, as the walk joins it from the base. -/
theorem join_entry2Addr (ttbr : DWord) (ea : VAddr) :
    ((ttbr.extractLsb 47 16 ++ 0#16 : PAddr).extractLsb 47 16 ++ ea.extractLsb 41 29 ++ 0#3 : PAddr) = entry2Addr ttbr ea := by
  rw [extractLsb_tableBase, entry2Addr]

/-- The second entry's address, as the walk joins it from the table's base. -/
theorem join_entry3Addr (d2 : DWord) (ea : VAddr) :
    ((d2.extractLsb 47 16 ++ 0#16 : PAddr).extractLsb 47 16 ++ ea.extractLsb 28 16 ++ 0#3 : PAddr) = entry3Addr d2 ea := by
  rw [extractLsb_tableBase, entry3Addr]

/-- The walk's base is in range and its first entry, read from plain memory, is a table descriptor in range: what is left
of the first lookup is the permission. -/
structure LeadsToTable (cfg : Config) (m : Memory) (ttbr : DWord) (q : WalkFor) (d2 : DWord) : Prop where
  base     : inSize q.w (ttbr.extractLsb 47 16 ++ 0#16 : PAddr) = true
  readable : plain cfg (entry2Addr ttbr q.ea) 8 = true
  read     : d2 = memRead64 cfg m (entry2Addr ttbr q.ea)
  table    : upperKind cfg 2 d2 = .table
  sized    : inSize q.w (addrField d2) = true

/-- The second entry of a walk, read from plain memory, is a page in range of no broken group: what is left of the second
lookup is the permission. -/
structure ReadsPage (cfg : Config) (m : Memory) (q : WalkFor) (d2 d3 : DWord) : Prop where
  readable : plain cfg (entry3Addr d2 q.ea) 8 = true
  read     : d3 = memRead64 cfg m (entry3Addr d2 q.ea)
  whole    : groupBroken cfg m .kb64 (entry3Addr d2 q.ea) = false
  page     : lastKind cfg d3 = .page
  sized    : inSize q.w (addrField d3) = true

/-- Another access with the same output size whose first entry is the same is led to the same table. -/
theorem LeadsToTable.congr {cfg : Config} {m : Memory} {ttbr : DWord} {q q' : WalkFor} {d2 : DWord}
    (h : LeadsToTable cfg m ttbr q d2) (hw : q'.w = q.w) (ha : entry2Addr ttbr q'.ea = entry2Addr ttbr q.ea) :
    LeadsToTable cfg m ttbr q' d2 := by
  obtain ⟨hbase, hplain, hread, htable, hsized⟩ := h
  exact ⟨hw ▸ hbase, ha ▸ hplain, ha ▸ hread, htable, hw ▸ hsized⟩

/-- The read of an entry in plain memory. -/
theorem readEntry_plain {cfg : Config} {a : PAddr} (h : plain cfg a 8 = true) (m : Memory) :
    readEntry cfg m a = .ok (memRead64 cfg m a) :=
  if_pos h

section
variable {cfg : Config} {m : Memory} {ttbr : DWord} {q : WalkFor} {d2 d3 : DWord}

/-- A permitted table descriptor leads to the second lookup. -/
theorem walk64K42_permitted (h : LeadsToTable cfg m ttbr q d2) (hp : permitsAt cfg 2 true d2 q.acc q.el = true) :
    walk64K42 cfg m ttbr q = walkLevel3 cfg m q d2 := by
  obtain ⟨hbase, hplain, hread, htable, hsized⟩ := h
  simp only [walk64K42, join_entry2Addr, hbase, readEntry_plain hplain, ← hread, htable, hp, hsized, checkEntry,
    Bool.not_true, Bool.false_eq_true, if_false]

/-- A table descriptor that does not permit the access ends the walk. -/
theorem walk64K42_denied (h : LeadsToTable cfg m ttbr q d2) (hp : permitsAt cfg 2 true d2 q.acc q.el = false) :
    walk64K42 cfg m ttbr q = .fault (.permission 2 q.va q.acc) := by
  obtain ⟨hbase, hplain, hread, htable, hsized⟩ := h
  simp only [walk64K42, join_entry2Addr, hbase, readEntry_plain hplain, ← hread, htable, hp, hsized, checkEntry,
    Bool.not_true, Bool.false_eq_true, if_false]

/-- A permitted page ends the walk with its address. -/
theorem walkLevel3_permitted (h : ReadsPage cfg m q d2 d3) (hp : permitsAt cfg 3 false d3 q.acc q.el = true) :
    walkLevel3 cfg m q d2 = .ok (pageEnd cfg q d2 d3) := by
  obtain ⟨hplain, hread, hwhole, hpage, hsized⟩ := h
  simp only [walkLevel3, join_entry3Addr, readEntry_plain hplain, ← hread, hwhole, hpage, hp, hsized, checkEntry,
    Bool.false_eq_true, if_false, pageEnd]

/-- A page that does not permit the access ends the walk with a fault. -/
theorem walkLevel3_denied (h : ReadsPage cfg m q d2 d3) (hp : permitsAt cfg 3 false d3 q.acc q.el = false) :
    walkLevel3 cfg m q d2 = .fault (.permission 3 q.va q.acc) := by
  obtain ⟨hplain, hread, hwhole, hpage, hsized⟩ := h
  simp only [walkLevel3, join_entry3Addr, readEntry_plain hplain, ← hread, hwhole, hpage, hp, hsized, checkEntry,
    Bool.false_eq_true, if_false]

/-- A second lookup in a broken group is refused. -/
theorem walkLevel3_broken (hplain : plain cfg (entry3Addr d2 q.ea) 8 = true)
    (h : groupBroken cfg m .kb64 (entry3Addr d2 q.ea) = true) : walkLevel3 cfg m q d2 = .refused .contiguousGroupBroken := by
  simp only [walkLevel3, join_entry3Addr, readEntry_plain hplain, h, if_true]

/-- A second lookup outside plain memory is refused. -/
theorem walkLevel3_outside (h : plain cfg (entry3Addr d2 q.ea) 8 = false) :
    walkLevel3 cfg m q d2 = .refused (.walkOutsidePlainMemory (entry3Addr d2 q.ea)) := by
  simp only [walkLevel3, join_entry3Addr, readEntry, h, Bool.false_eq_true, if_false]

/-- A second lookup that succeeds read a permitted page. -/
theorem walkLevel3_ok {wk : WalkEnd} (h : walkLevel3 cfg m q d2 = .ok wk) :
    ∃ d3, ReadsPage cfg m q d2 d3 ∧ permitsAt cfg 3 false d3 q.acc q.el = true ∧ wk = pageEnd cfg q d2 d3 := by
  simp only [walkLevel3, join_entry3Addr] at h
  obtain ⟨hplain, hread⟩ | ⟨-, hread⟩ := readEntry_cases cfg m (entry3Addr d2 q.ea) <;> rw [hread] at h
  · dsimp only at h
    split at h
    · cases h
    · next hwhole =>
      split at h
      · cases h
      · next hpage =>
        split at h
        · cases h
        · next hcheck =>
          obtain ⟨hp, hsized⟩ := (checkEntry_eq_none _ _ _ _).mp hcheck
          cases h
          exact ⟨_, ⟨hplain, rfl, Bool.eq_false_iff.mpr hwhole, hpage, hsized⟩, hp, rfl⟩
  · cases h

/-- A walk that succeeds and allows a wide fill ended in a page. -/
theorem walk64K42_ok_wide {wk : WalkEnd} {k : Nat} (h : walk64K42 cfg m ttbr q = .ok wk) (hwide : wk.wide = some k) :
    ∃ d2, LeadsToTable cfg m ttbr q d2 ∧ permitsAt cfg 2 true d2 q.acc q.el = true ∧ walkLevel3 cfg m q d2 = .ok wk := by
  simp only [walk64K42, join_entry2Addr] at h
  split at h
  · cases h
  · next hbase =>
    obtain ⟨hplain, hread⟩ | ⟨-, hread⟩ := readEntry_cases cfg m (entry2Addr ttbr q.ea) <;> rw [hread] at h
    · dsimp only at h
      split at h
      · cases h
      · split at h
        · cases h
        · cases h
          cases hwide
      · next htable =>
        split at h
        · cases h
        · next hcheck =>
          obtain ⟨hp, hsized⟩ := (checkEntry_eq_none _ _ _ _).mp hcheck
          exact ⟨_, ⟨by simpa using hbase, hplain, rfl, htable, hsized⟩, hp, h⟩
    · cases h

/-- A group of 32 entries of 64KB covers 2MB, where its mark is there. -/
theorem wideSize_kb64 (cfg : Config) (d : DWord) : wideSize cfg .kb64 d = if isContiguous cfg d then some 21 else none := rfl

end

/-- Settles O44: the first lookup leads to the table, the second reads the page, and the walk's end is the page's. -/
theorem pageWalkRecordsItsEntries : Obligations.PageWalkRecordsItsEntries := by
  intro cfg m ttbr q a2 a3 d2 d3 ha2 hd2 ha3 hd3 hbase hplain2 hplain3 htable hp2 hsized2 hwhole hpage hp3 hsized3 wk hwk
  subst ha2 ha3
  have h2 : LeadsToTable cfg m ttbr q d2 := ⟨hbase, hplain2, hd2, htable, hsized2⟩
  have h3 : ReadsPage cfg m q d2 d3 := ⟨hplain3, hd3, hwhole, hpage, hsized3⟩
  rw [walk64K42_permitted h2 hp2, walkLevel3_permitted h3 hp3] at hwk
  cases hwk
  exact ⟨rfl, rfl, rfl, wideSize_kb64 cfg d3⟩

end Sys2Proof.Machine
end

section
/-! SUPPORT. Contiguous groups of 32 entries of 64KB (40_tlb_tlbi.md R58 to R60): the entries of a group, the refusal of a broken
one, and what the wide entry of a whole one gives. -/

namespace Sys2Proof.Machine

/-! The entries of a group. -/

/-- The address of entry `i` of the group an address lies in, in the table of a level 2 entry. -/
def groupAddr (d2 : DWord) (ea : VAddr) (i : Nat) : PAddr := d2.extractLsb 47 16 ++ ea.extractLsb 28 21 ++ BitVec.ofNat 5 i ++ 0#3

/-- Clearing the low 8 bits of a level 3 entry's address and counting `i` entries on. -/
theorem clearLow_entry3Addr (d2 : DWord) (ea : VAddr) {i : Nat} (hi : i < 32) :
    clearLow (5 + 3) (entry3Addr d2 ea) + BitVec.ofNat 48 (8 * i) = groupAddr d2 ea i := by
  apply BitVec.eq_of_toNat_eq
  simp only [entry3Addr, groupAddr, BitVec.toNat_add, toNat_clearLow, toNat_joined, toNat_field, BitVec.toNat_ofNat]
  omega

/-- Entry `i` of a group is read at its address. -/
theorem groupEntry_entry3Addr (cfg : Config) (m : Memory) (d2 : DWord) (ea : VAddr) {i : Nat} (hi : i < 32) :
    groupEntry cfg m 5 (entry3Addr d2 ea) i = memRead64 cfg m (groupAddr d2 ea i) := by
  rw [groupEntry, clearLow_entry3Addr d2 ea hi]

/-- A level 3 entry is the one of its group that bits [20:16] of the address count. -/
theorem entry3Addr_eq_groupAddr (d2 : DWord) (ea : VAddr) : entry3Addr d2 ea = groupAddr d2 ea (ea.extractLsb 20 16).toNat := by
  apply BitVec.eq_of_toNat_eq
  simp only [entry3Addr, groupAddr, toNat_joined, toNat_field, BitVec.toNat_ofNat]
  omega

/-- The conditions of R59 on entry `i` of a group, beside the alignment of the first one `d0`. -/
structure GroupMember (cfg : Config) (d0 d : DWord) (i : Nat) : Prop where
  page   : lastKind cfg d = .page
  marked : isContiguous cfg d = true
  attrs  : entryAttrs cfg 3 false d = entryAttrs cfg 3 false d0
  addr   : d.extractLsb 47 16 = d0.extractLsb 47 16 + BitVec.ofNat 32 i

/-- The address condition of R59, said of the fields with their low 16 bits cleared and of bits [47:16]. -/
theorem clearLow_addrField_eq_iff (d d0 : DWord) (i : Nat) :
    clearLow 16 (addrField d) = clearLow 16 (addrField d0) + BitVec.ofNat 48 (i * 2 ^ 16) ↔
      d.extractLsb 47 16 = d0.extractLsb 47 16 + BitVec.ofNat 32 i := by
  simp only [← BitVec.toNat_inj, addrField, BitVec.toNat_add, toNat_clearLow, toNat_field, BitVec.toNat_ofNat]
  omega

/-- A marked page is a page and has the mark. -/
theorem markedPage_iff (cfg : Config) (d : DWord) :
    markedPage cfg d = true ↔ lastKind cfg d = .page ∧ isContiguous cfg d = true := by
  simp [markedPage]

/-- The conditions of the model on an entry of a group are those of R59. -/
theorem groupMember_iff {cfg : Config} {d0 d : DWord} {i : Nat} :
    (markedPage cfg d = true ∧ entryAttrs cfg 3 false d = entryAttrs cfg 3 false d0 ∧
      clearLow 16 (addrField d) = clearLow 16 (addrField d0) + BitVec.ofNat 48 (i * 2 ^ 16)) ↔ GroupMember cfg d0 d i := by
  rw [markedPage_iff, clearLow_addrField_eq_iff]
  exact ⟨fun ⟨⟨hpage, hmarked⟩, hattrs, haddr⟩ => ⟨hpage, hmarked, hattrs, haddr⟩,
    fun ⟨hpage, hmarked, hattrs, haddr⟩ => ⟨⟨hpage, hmarked⟩, hattrs, haddr⟩⟩

/-- A group of 32 is broken when it holds a marked page and breaks a condition of R59. -/
theorem groupBroken_kb64_iff {cfg : Config} {m : Memory} {d2 : DWord} {ea : VAddr} {d : Nat → DWord}
    (hd : ∀ i, d i = memRead64 cfg m (groupAddr d2 ea i)) :
    groupBroken cfg m .kb64 (entry3Addr d2 ea) = true ↔
      (∃ i, i < 32 ∧ lastKind cfg (d i) = .page ∧ isContiguous cfg (d i) = true) ∧
      ¬ ((d 0).extractLsb 20 16 = 0 ∧ ∀ i, i < 32 → GroupMember cfg (d 0) (d i) i) := by
  have hentry : ∀ i, i < 32 → groupEntry cfg m 5 (entry3Addr d2 ea) i = d i := fun i hi =>
    (groupEntry_entry3Addr cfg m d2 ea hi).trans (hd i).symm
  rw [groupBroken_iff (gb := 5) rfl, hentry 0 (by decide)]
  refine and_congr (exists_congr fun i => and_congr_right fun hi => ?_)
    (not_congr (and_congr ?_ (forall₂_congr fun i hi => ?_)))
  · rw [hentry i hi, markedPage_iff]
  · rw [sliceZeros, beq_iff_eq]
    rfl
  · rw [hentry i hi]
    exact groupMember_iff

/-! A broken group (R59, 70_reset_and_hazards.md R104). -/

/-- An access inside one page that breaks the premise on contiguous groups is refused. -/
theorem access_group_broken {c : Choice} {s : State} {kind : AccessKind} {va : VAddr} {n value : Nat} {r : Region}
    (hn : n ≤ roomInPage (splitBits s va kind s.inputs.el) va) (hr : selectRegion s va kind s.inputs.el = .ok r)
    (h : missWalk c s r va kind s.inputs.el = .refused .contiguousGroupBroken) :
    access c kind va n value s = .refused .contiguousGroupBroken := by
  have hp : ¬ groupPremise c s va kind s.inputs.el = true := fun hp => groupPremise_iff.mp hp r hr h
  rw [access, if_pos hn, accessInPage, if_neg hp]

/-- Settles O57: the walk of the access is led to the table and refused at the second lookup, whatever the TLB holds. -/
theorem brokenContiguousGroupIsRefused : Obligations.BrokenContiguousGroupIsRefused := by
  intro s inp kind va n v rest u r w d2 d hreq hu hn hr hgranule hsize hw hbase hplain2 hd2 htable hp2 hsized2 hplain3 hd
    hmarked hbreaks
  subst hu
  have h2 : LeadsToTable s.cfg s.mem r.base ⟨va, r.ea, kind, inp.el, w, (choiceOf s).sizeFirst⟩ d2 :=
    ⟨hbase, hplain2, hd2, htable, hsized2⟩
  have hbroken : groupBroken s.cfg s.mem .kb64 (entry3Addr d2 r.ea) = true := by
    refine (groupBroken_kb64_iff hd).mpr ⟨hmarked, fun ⟨haligned, hmember⟩ => ?_⟩
    obtain ⟨i, hi, hbreak⟩ := hbreaks
    obtain ⟨hpage, hmark, hattrs, haddr⟩ := hmember i hi
    simp [hpage, hmark, hattrs, haddr, haligned] at hbreak
  have hstep : step s = access (choiceOf s) kind va n v (startRequest s inp rest) := step_request hreq
  refine hstep.trans (access_group_broken hn hr ?_)
  rw [missWalk_source hw ((sourceGeometry_iff r).mpr ⟨hgranule, hsize⟩)]
  exact (walk64K42_permitted h2 hp2).trans (walkLevel3_broken hplain3 hbroken)

/-! The wide entry of a whole group (R58 to R60). -/

/-- Two addresses in one aligned range of 2MB. -/
theorem same_range_of_match {ea ea' : VAddr} (hlo : (clearLow 21 ea).toNat ≤ ea'.toNat)
    (hhi : ea'.toNat < (clearLow 21 ea).toNat + 2 ^ 21) : ea'.toNat / 2 ^ 21 = ea.toNat / 2 ^ 21 := by
  rw [toNat_clearLow] at hlo hhi
  omega

/-- Addresses in one range of 2MB lead to the same first entry. -/
theorem entry2Addr_congr {ea ea' : VAddr} (h : ea'.toNat / 2 ^ 21 = ea.toNat / 2 ^ 21) (ttbr : DWord) :
    entry2Addr ttbr ea' = entry2Addr ttbr ea := by
  have hfield : ea'.extractLsb 41 29 = ea.extractLsb 41 29 := by
    rw [← BitVec.toNat_inj, toNat_field, toNat_field]
    omega
  rw [entry2Addr, entry2Addr, hfield]

/-- Addresses in one range of 2MB have the same group. -/
theorem groupAddr_congr {ea ea' : VAddr} (h : ea'.toNat / 2 ^ 21 = ea.toNat / 2 ^ 21) (d2 : DWord) :
    groupAddr d2 ea' = groupAddr d2 ea := by
  have hfield : ea'.extractLsb 28 21 = ea.extractLsb 28 21 := by
    rw [← BitVec.toNat_inj, toNat_field, toNat_field]
    omega
  funext i
  rw [groupAddr, groupAddr, hfield]

/-- In a whole group, bits [47:21] of an entry are those of the first one and bits [20:16] count it. -/
theorem GroupMember.addr_bits {cfg : Config} {d0 d : DWord} {i : Nat} (h : GroupMember cfg d0 d i)
    (haligned : d0.extractLsb 20 16 = 0) (hi : i < 32) :
    d.extractLsb 47 21 = d0.extractLsb 47 21 ∧ (d.extractLsb 20 16).toNat = i := by
  have hzero : d0.toNat / 2 ^ 16 % 2 ^ (20 - 16 + 1) = 0 := by rw [← toNat_field, haligned]; rfl
  have haddr := h.addr
  simp only [← BitVec.toNat_inj, BitVec.toNat_add, toNat_field, BitVec.toNat_ofNat] at haddr ⊢
  omega

/-- The entry of its group that an address reads. -/
def groupIndex (ea : VAddr) : Nat := (ea.extractLsb 20 16).toNat

/-- A group has 32 entries. -/
theorem groupIndex_lt (ea : VAddr) : groupIndex ea < 32 := (ea.extractLsb 20 16).isLt

/-- Entry `i` of the group an address lies in. -/
def groupRead (cfg : Config) (m : Memory) (d2 : DWord) (ea : VAddr) (i : Nat) : DWord := memRead64 cfg m (groupAddr d2 ea i)

/-- The entry a second lookup reads is the one of its group that the address counts. -/
theorem ReadsPage.eq_groupRead {cfg : Config} {m : Memory} {q : WalkFor} {d2 d3 : DWord} (h : ReadsPage cfg m q d2 d3) :
    d3 = groupRead cfg m d2 q.ea (groupIndex q.ea) := by
  rw [h.read, entry3Addr_eq_groupAddr]
  rfl

/-- A marked page that a walk may end in belongs to a whole group. -/
theorem ReadsPage.group_whole {cfg : Config} {m : Memory} {q : WalkFor} {d2 d3 : DWord} (h : ReadsPage cfg m q d2 d3)
    (hmarked : isContiguous cfg d3 = true) :
    (groupRead cfg m d2 q.ea 0).extractLsb 20 16 = 0 ∧
      ∀ i, i < 32 → GroupMember cfg (groupRead cfg m d2 q.ea 0) (groupRead cfg m d2 q.ea i) i := by
  by_contra hbreaks
  have hread := h.eq_groupRead
  have hbroken := (groupBroken_kb64_iff (d := groupRead cfg m d2 q.ea) fun _ => rfl).mpr
    ⟨⟨groupIndex q.ea, groupIndex_lt q.ea, hread ▸ h.page, hread ▸ hmarked⟩, hbreaks⟩
  rw [h.whole] at hbroken
  cases hbroken

/-- Two words with the same field have the same bits there. -/
theorem getLsbD_eq_of_field_eq {a b hi lo : Nat} {v : BitVec a} {u : BitVec b} (h : v.extractLsb hi lo = u.extractLsb hi lo)
    {j : Nat} (hlo : lo ≤ j) (hhi : j ≤ hi) : v.getLsbD j = u.getLsbD j := by
  have hbit := congrArg (fun x => x.getLsbD (j - lo)) h
  simpa [BitVec.getLsbD_extractLsb, show j - lo ≤ hi - lo by omega, Nat.add_sub_cancel' hlo] using hbit

/-- From an output size of 21 bits on, the bits [47:21] of an entry alone say whether it is in range. -/
theorem inSize_congr {d d' : DWord} (h : d'.extractLsb 47 21 = d.extractLsb 47 21) {w : Nat} (hw : 21 ≤ w) :
    inSize w (addrField d') = inSize w (addrField d) := by
  rw [Bool.eq_iff_iff, inSize, inSize, sliceZeros_iff_bits, sliceZeros_iff_bits]
  refine forall₃_congr fun j hlo hhi => ?_
  have hbit : d'.getLsbD j = d.getLsbD j := getLsbD_eq_of_field_eq h (hw.trans hlo) hhi
  simp [addrField, hbit]

/-- Where an access ended in a marked page, the second lookup of any access in the 2MB of the group, read from plain
memory, reads a page with the same attributes, whose bits [47:21] are the same and whose bits [20:16] are the address's. -/
theorem ReadsPage.in_group {cfg : Config} {m : Memory} {q q' : WalkFor} {d2 d3 : DWord} (h : ReadsPage cfg m q d2 d3)
    (hmarked : isContiguous cfg d3 = true) (hea : q'.ea.toNat / 2 ^ 21 = q.ea.toNat / 2 ^ 21) (hw' : q'.w = q.w) (hw : 21 ≤ q.w)
    (hplain : plain cfg (entry3Addr d2 q'.ea) 8 = true) :
    ∃ d3', ReadsPage cfg m q' d2 d3' ∧ entryAttrs cfg 3 false d3' = entryAttrs cfg 3 false d3 ∧
      d3'.extractLsb 47 21 = d3.extractLsb 47 21 ∧ d3'.extractLsb 20 16 = q'.ea.extractLsb 20 16 := by
  have hgroup : groupRead cfg m d2 q'.ea = groupRead cfg m d2 q.ea := by
    funext i
    rw [groupRead, groupRead, groupAddr_congr hea]
  obtain ⟨haligned, hmember⟩ := h.group_whole hmarked
  have hm : GroupMember cfg (groupRead cfg m d2 q.ea 0) d3 (groupIndex q.ea) := by
    rw [h.eq_groupRead]
    exact hmember _ (groupIndex_lt q.ea)
  have hm' := hmember _ (groupIndex_lt q'.ea)
  obtain ⟨hhigh, -⟩ := hm.addr_bits haligned (groupIndex_lt q.ea)
  obtain ⟨hhigh', hcount⟩ := hm'.addr_bits haligned (groupIndex_lt q'.ea)
  have hread : groupRead cfg m d2 q.ea (groupIndex q'.ea) = memRead64 cfg m (entry3Addr d2 q'.ea) := by
    rw [entry3Addr_eq_groupAddr, ← hgroup]
    rfl
  have hwhole : groupBroken cfg m .kb64 (entry3Addr d2 q'.ea) = false := by
    rw [Bool.eq_false_iff, Ne, groupBroken_kb64_iff (d := groupRead cfg m d2 q'.ea) fun _ => rfl, hgroup]
    exact fun hbroken => hbroken.2 ⟨haligned, hmember⟩
  have hsized : inSize q'.w (addrField (groupRead cfg m d2 q.ea (groupIndex q'.ea))) = true := by
    rw [hw', inSize_congr (hhigh'.trans hhigh.symm) hw]
    exact h.sized
  exact ⟨_, ⟨hplain, hread, hwhole, hm'.page, hsized⟩, hm'.attrs.trans hm.attrs.symm, hhigh'.trans hhigh.symm,
    BitVec.eq_of_toNat_eq hcount⟩

/-- The address of a page of the group is that of its wide entry joined with the low 21 bits of the access's address. -/
theorem pageEnd_pa_eq_joinAt {cfg : Config} {q q' : WalkFor} {d2 d3 d3' : DWord}
    (hhigh : d3'.extractLsb 47 21 = d3.extractLsb 47 21) (hcount : d3'.extractLsb 20 16 = q'.ea.extractLsb 20 16) :
    (pageEnd cfg q' d2 d3').pa = joinAt 21 (clearLow 21 (pageEnd cfg q d2 d3).pa) q'.ea := by
  have hbit : ∀ (p : WalkFor) (d : DWord) (j : Nat), j < 48 →
      (pageEnd cfg p d2 d).pa.getLsbD j = if j < 16 then p.ea.getLsbD j else d.getLsbD j := by
    intro p d j hj
    simp only [pageEnd, BitVec.getLsbD_append, BitVec.getLsbD_extractLsb]
    split
    · next hlow =>
      have hlt : j < 16 := hlow
      simp [hlt]
    · next hlow =>
      have hge : 16 ≤ j := Nat.not_lt.mp hlow
      simp [Nat.add_sub_cancel' hge, show j - 16 < 32 by omega]
  apply BitVec.eq_of_getLsbD_eq
  intro j hj
  rw [getLsbD_joinAt _ _ _ _ hj, getLsbD_clearLow, hbit _ _ _ hj, hbit _ _ _ hj]
  by_cases hlow : j < 16
  · rw [if_pos hlow, if_pos (by omega)]
  · rw [if_neg hlow, if_neg hlow]
    by_cases hmid : j < 21
    · rw [if_pos hmid]
      exact getLsbD_eq_of_field_eq hcount (by omega) (by omega)
    · rw [if_neg hmid, decide_eq_true (by omega : 21 ≤ j), Bool.true_and]
      exact getLsbD_eq_of_field_eq hhigh (by omega) (by omega)

/-- The cached permission of a walk of two lookups is that of both entries. -/
theorem permits_pageEnd (cfg : Config) (q : WalkFor) (d2 d3 : DWord) (acc : AccessKind) (el : EL) :
    permits cfg (pageEnd cfg q d2 d3).attrs acc el = (permitsAt cfg 2 true d2 acc el && permitsAt cfg 3 false d3 acc el) := by
  simp [permits, pageEnd, permitsAt]

/-- The permission of an entry depends on its attributes alone. -/
theorem permitsAt_congr {cfg : Config} {level : Nat} {isTable : Bool} {d d' : DWord}
    (h : entryAttrs cfg level isTable d' = entryAttrs cfg level isTable d) (acc : AccessKind) (el : EL) :
    permitsAt cfg level isTable d' acc el = permitsAt cfg level isTable d acc el := by
  rw [permitsAt, permitsAt, h]

/-- After a walk that ended in a marked page, the walk of any access in the 2MB of the group that reads plain memory only
ends in the address of the wide entry with the same attributes where they permit the access, and in a Permission fault
where they do not. -/
theorem walk64K42_in_group {cfg : Config} {m : Memory} {ttbr : DWord} {q q' : WalkFor} {wk : WalkEnd}
    (h : walk64K42 cfg m ttbr q = .ok wk) (hwide : wk.wide = some 21) (hea : q'.ea.toNat / 2 ^ 21 = q.ea.toNat / 2 ^ 21)
    (hw' : q'.w = q.w) (hw : 21 ≤ q.w) (hplain : ∀ a, walk64K42 cfg m ttbr q' ≠ .refused (.walkOutsidePlainMemory a)) :
    (permits cfg wk.attrs q'.acc q'.el = true →
      ∃ wk', walk64K42 cfg m ttbr q' = .ok wk' ∧ wk'.pa = joinAt 21 (clearLow 21 wk.pa) q'.ea ∧ wk'.attrs = wk.attrs) ∧
    (permits cfg wk.attrs q'.acc q'.el = false →
      ∃ level, walk64K42 cfg m ttbr q' = .fault (.permission level q'.va q'.acc)) := by
  obtain ⟨d2, h2, -, h⟩ := walk64K42_ok_wide h hwide
  obtain ⟨d3, h3, -, rfl⟩ := walkLevel3_ok h
  have hmarked : isContiguous cfg d3 = true := by
    by_contra hmark
    rw [pageEnd, wideSize_kb64, if_neg hmark] at hwide
    cases hwide
  have h2' : LeadsToTable cfg m ttbr q' d2 := h2.congr hw' (entry2Addr_congr hea ttbr)
  rw [permits_pageEnd]
  cases hp2 : permitsAt cfg 2 true d2 q'.acc q'.el with
  | false =>
    rw [Bool.false_and]
    exact ⟨nofun, fun _ => ⟨2, walk64K42_denied h2' hp2⟩⟩
  | true =>
    rw [walk64K42_permitted h2' hp2] at hplain ⊢
    have hreadable : plain cfg (entry3Addr d2 q'.ea) 8 = true := by
      by_contra hout
      exact hplain _ (walkLevel3_outside (Bool.eq_false_iff.mpr hout))
    obtain ⟨d3', h3', hattrs, hhigh, hcount⟩ := h3.in_group hmarked hea hw' hw hreadable
    rw [Bool.true_and, ← permitsAt_congr hattrs]
    refine ⟨fun hp => ⟨_, walkLevel3_permitted h3' hp, pageEnd_pa_eq_joinAt hhigh hcount, ?_⟩,
      fun hp => ⟨3, walkLevel3_denied h3' hp⟩⟩
    rw [pageEnd, pageEnd, hattrs]

/-- Settles O52: an access the wide entry matches lies in the 2MB of the group and has the same regime, base and output
size, so its walk is one in the group. -/
theorem wideEntryAgreesWithTheWalk : Obligations.WideEntryAgreesWithTheWalk := by
  intro s c c' r r' va va' acc acc' el el' wk w hsource hwk hwide hw h21 hplain hbase hn hgranule hmatch
  obtain ⟨hregime, hlo, hhi, -⟩ := (entryMatches_iff _ _ _ _).mp hmatch
  have hregime' : r'.regime = r.regime := hregime.symm
  have hsource' : sourceGeometry r' = true := by
    rw [sourceGeometry, hgranule, hn]
    exact hsource
  have hwalk' := missWalk_source (c := c') (s := s) (va := va') (acc := acc') (el := el') (hregime' ▸ hw) hsource'
  rw [hbase] at hwalk'
  rw [hwalk'] at hplain ⊢
  rw [missWalk_source hw hsource] at hwk
  exact walk64K42_in_group (q' := ⟨va', r'.ea, acc', el', w, c'.sizeFirst⟩) hwk hwide
    (same_range_of_match (ea := r.ea) hlo hhi) rfl h21 hplain

end Sys2Proof.Machine
end

section
/-! SUPPORT. The regions of EL1 and EL0 and the single region of EL2 and EL3 (41_va_regions.md R61 to R72). -/

namespace Sys2Proof.Machine

/-! Bit 55, which R72 checks in both regions where the size field is at least 9, with tagging and without. -/

/-- The checked bits go up to bit 55 at least. -/
theorem le_topBit (tag : Bool) : 55 ≤ topBit tag := by
  cases tag <;> decide

section
variable {n : Nat} (hn : 9 ≤ n)
include hn

/-- An address whose bit 55 is 1 is outside the lower region. -/
theorem inLower_eq_false_of_bit55 {va : VAddr} (h : va.getLsbD 55 = true) (tag : Bool) : inLower tag n va = false :=
  inLower_eq_false ⟨55, by omega, le_topBit tag, h⟩

/-- An address whose bit 55 is 0 is outside the upper region. -/
theorem inUpper_eq_false_of_bit55 {va : VAddr} (h : va.getLsbD 55 = false) (tag : Bool) : inUpper tag n va = false :=
  inUpper_eq_false ⟨55, by omega, le_topBit tag, h⟩

/-- In the lower region bit 55 is 0. -/
theorem bit55_of_inLower {tag : Bool} {va : VAddr} (h : inLower tag n va = true) : va.getLsbD 55 = false :=
  (sliceZeros_iff_bits _ _ _).mp h 55 (by omega) (le_topBit tag)

/-- In the upper region bit 55 is 1. -/
theorem bit55_of_inUpper {tag : Bool} {va : VAddr} (h : inUpper tag n va = true) : va.getLsbD 55 = true :=
  (sliceOnes_iff_bits _ _ _).mp h 55 (by omega) (le_topBit tag)

end

/-! What is selected. -/

/-- In the single region the selection is the level's own base and granule. -/
theorem selectSingle_ok {tag : Bool} {va : VAddr} (h : inLower tag 16 va = true) (base : DWord) (g : Granule) (rg : Regime)
    (acc : AccessKind) : selectSingle base g rg tag va acc = .ok ⟨base, 16, g, rg, eaLower tag va⟩ :=
  if_pos h

section
variable {s : State} {va : VAddr} {g : Granule} (h0 : txszLegal s.cfg s.tcrEl1.t0sz.toNat = true)
  (h1 : txszLegal s.cfg s.tcrEl1.t1sz.toNat = true)
include h0 h1

/-- In the lower region alone a listed TG0 selects TTBR0_EL1. -/
theorem selectEl1and0_lower (hl : inLower s.cfg.tag0 s.tcrEl1.t0sz.toNat va = true)
    (hu : inUpper s.cfg.tag1 s.tcrEl1.t1sz.toNat va = false) (hg : granuleOfTG0 s.cfg s.tcrEl1.tg0 = some g) (acc : AccessKind) :
    selectEl1and0 s va acc = .ok ⟨s.ttbr0El1, s.tcrEl1.t0sz.toNat, g, .el1and0, eaLower s.cfg.tag0 va⟩ := by
  simp [selectEl1and0, h0, h1, hl, hu, hg]

/-- In the upper region alone a listed TG1 selects TTBR1_EL1. -/
theorem selectEl1and0_upper (hl : inLower s.cfg.tag0 s.tcrEl1.t0sz.toNat va = false)
    (hu : inUpper s.cfg.tag1 s.tcrEl1.t1sz.toNat va = true) (hg : granuleOfTG1 s.cfg s.tcrEl1.tg1 = some g) (acc : AccessKind) :
    selectEl1and0 s va acc = .ok ⟨s.ttbr1El1, s.tcrEl1.t1sz.toNat, g, .el1and0, eaUpper s.cfg.tag1 va⟩ := by
  simp [selectEl1and0, h0, h1, hl, hu, hg]

end

/-- The selection finds an overlap only for an address in both regions, with listed size fields. -/
theorem selectEl1and0_overlap {s : State} {va : VAddr} {acc : AccessKind}
    (h : selectEl1and0 s va acc = .refused .regionsOverlap) :
    (txszLegal s.cfg s.tcrEl1.t0sz.toNat = true ∧ txszLegal s.cfg s.tcrEl1.t1sz.toNat = true) ∧
      inLower s.cfg.tag0 s.tcrEl1.t0sz.toNat va = true ∧ inUpper s.cfg.tag1 s.tcrEl1.t1sz.toNat va = true := by
  unfold selectEl1and0 at h
  split at h
  · next hlegal =>
    split at h
    · split at h <;> cases h
    · split at h <;> cases h
    · next hl hu => exact ⟨by simpa using hlegal, hl, hu⟩
    · cases h
  · cases h

/-- The single region overlaps no other. -/
theorem selectSingle_ne_refused (base : DWord) (g : Granule) (rg : Regime) (tag : Bool) (va : VAddr) (acc : AccessKind)
    (z : Refusal) : selectSingle base g rg tag va acc ≠ .refused z := by
  unfold selectSingle
  split <;> nofun

/-- Settles O35: the checked bits put the address in the lower region, and bit 55 among them outside the upper one. -/
theorem lowerRegionUsesTtbr0 : Obligations.LowerRegionUsesTtbr0 := by
  intro s va acc el g hel hmin h0min h0max h1min h1max hbits hg
  have hl : inLower s.cfg.tag0 s.tcrEl1.t0sz.toNat va = true := (sliceZeros_iff_bits _ _ _).mpr hbits
  have hbit : va.getLsbD 55 = false := bit55_of_inLower (by omega) hl
  rw [selectRegion_el1and0 hel]
  exact selectEl1and0_lower ((txszLegal_iff _ _).mpr ⟨h0min, h0max⟩) ((txszLegal_iff _ _).mpr ⟨h1min, h1max⟩) hl
    (inUpper_eq_false_of_bit55 (by omega) hbit _) hg acc

/-- Settles O36: the checked bits put the address in the upper region, and bit 55 among them outside the lower one. -/
theorem upperRegionUsesTtbr1 : Obligations.UpperRegionUsesTtbr1 := by
  intro s va acc el g hel hmin h0min h0max h1min h1max hbits hg
  have hu : inUpper s.cfg.tag1 s.tcrEl1.t1sz.toNat va = true := (sliceOnes_iff_bits _ _ _).mpr hbits
  have hbit : va.getLsbD 55 = true := bit55_of_inUpper (by omega) hu
  rw [selectRegion_el1and0 hel]
  exact selectEl1and0_upper ((txszLegal_iff _ _).mpr ⟨h0min, h0max⟩) ((txszLegal_iff _ _).mpr ⟨h1min, h1max⟩)
    (inLower_eq_false_of_bit55 (by omega) hbit _) hu hg acc

/-- Settles O38: the checked bits put the address in the single region of each level. -/
theorem el2AndEl3UseOneRegion : Obligations.El2AndEl3UseOneRegion := fun _ _ acc =>
  ⟨fun hbits => selectSingle_ok ((sliceZeros_iff_bits _ _ _).mpr hbits) _ _ _ acc,
    fun hbits => selectSingle_ok ((sliceZeros_iff_bits _ _ _).mpr hbits) _ _ _ acc⟩

/-- Settles O40: in both regions bit 55 would be both 0 and 1. -/
theorem regionsNeverOverlap : Obligations.RegionsNeverOverlap := by
  intro s va acc el hmin h
  cases el with
  | el0 | el1 =>
    obtain ⟨⟨h0, h1⟩, hl, hu⟩ := selectEl1and0_overlap h
    have hlow : va.getLsbD 55 = false := bit55_of_inLower (hmin.trans ((txszLegal_iff _ _).mp h0).1) hl
    have hup : va.getLsbD 55 = true := bit55_of_inUpper (hmin.trans ((txszLegal_iff _ _).mp h1).1) hu
    exact Bool.false_ne_true (hlow.symm.trans hup)
  | el2 | el3 => exact selectSingle_ne_refused _ _ _ _ _ _ _ h

end Sys2Proof.Machine
end

section
/-! SUPPORT. The tag byte (41_va_regions.md R64, 42_translation_walk.md R80 corner (g)): two accesses with the same effective
address have the same outcome, up to the address a fault reports. -/

namespace Sys2Proof.Machine

/-- Faults of one kind and level, each reporting its own access's address. -/
inductive Fault.Alike (va va' : VAddr) (acc : AccessKind) : Fault → Fault → Prop
  | vaRange : Alike va va' acc (.vaRange va acc) (.vaRange va' acc)
  | translation (level : Nat) : Alike va va' acc (.translation level va acc) (.translation level va' acc)
  | permission (level : Nat) : Alike va va' acc (.permission level va acc) (.permission level va' acc)
  | addressSize (level : Option Nat) : Alike va va' acc (.addressSize level va acc) (.addressSize level va' acc)

/-- The same value, the same refusal, or faults that are alike. -/
inductive Result.Alike {α : Type} (va va' : VAddr) (acc : AccessKind) : Result α → Result α → Prop
  | ok (a : α) : Alike va va' acc (.ok a) (.ok a)
  | refused (z : Refusal) : Alike va va' acc (.refused z) (.refused z)
  | fault {f f' : Fault} (h : f.Alike va va' acc f') : Alike va va' acc (.fault f) (.fault f')

section
variable {α : Type} {va va' : VAddr} {acc : AccessKind} {o o' : Result α} (h : o.Alike va va' acc o')
include h

/-- An outcome alike to a value is that value. -/
theorem Result.Alike.eq_ok {a : α} (ho : o = .ok a) : o' = .ok a := by
  subst ho; cases h; rfl

/-- An outcome alike to a refusal is that refusal. -/
theorem Result.Alike.eq_refused {z : Refusal} (ho : o = .refused z) : o' = .refused z := by
  subst ho; cases h; rfl

/-- An outcome alike to a fault is a fault alike to it. -/
theorem Result.Alike.eq_fault {f : Fault} (ho : o = .fault f) : ∃ f', o' = .fault f' ∧ f.Alike va va' acc f' := by
  subst ho; cases h with | fault h => exact ⟨_, rfl, h⟩

end

/-! The walk, whose reads and checks use the effective address only. -/

/-- The checks on an entry pass for both accesses or fail alike. -/
theorem checkEntry_alike (q : WalkFor) (va' : VAddr) (level : Nat) (p z : Bool) :
    checkEntry q level p z = none ∧ checkEntry { q with va := va' } level p z = none ∨
    ∃ f f', checkEntry q level p z = some f ∧ checkEntry { q with va := va' } level p z = some f' ∧
      f.Alike q.va va' q.acc f' := by
  obtain ⟨va, ea, acc, el, w, sizeFirst⟩ := q
  cases p <;> cases z
  · cases sizeFirst
    · exact .inr ⟨_, _, rfl, rfl, .permission level⟩
    · exact .inr ⟨_, _, rfl, rfl, .addressSize level⟩
  · exact .inr ⟨_, _, rfl, rfl, .permission level⟩
  · exact .inr ⟨_, _, rfl, rfl, .addressSize level⟩
  · exact .inl ⟨rfl, rfl⟩

/-- Alike outcomes stay so behind the checks on an entry. -/
theorem Result.Alike.behind_checks {α : Type} {q : WalkFor} {va' : VAddr} {o o' : Result α}
    (h : o.Alike q.va va' q.acc o') (level : Nat) (p z : Bool) :
    Result.Alike q.va va' q.acc
      (match checkEntry q level p z with
        | some f => .fault f
        | none => o)
      (match checkEntry { q with va := va' } level p z with
        | some f => .fault f
        | none => o') := by
  obtain ⟨hq, hq'⟩ | ⟨f, f', hq, hq', hf⟩ := checkEntry_alike q va' level p z <;> rw [hq, hq']
  · exact h
  · exact .fault hf

section
variable (cfg : Config) (m : Memory) (q : WalkFor) (va' : VAddr)

/-- The second lookup of `Walk64K42`. -/
theorem walkLevel3_alike (d2 : DWord) :
    (walkLevel3 cfg m q d2).Alike q.va va' q.acc (walkLevel3 cfg m { q with va := va' } d2) := by
  simp only [walkLevel3, join_entry3Addr]
  obtain ⟨-, hread⟩ | ⟨-, hread⟩ := readEntry_cases cfg m (entry3Addr d2 q.ea) <;> simp only [hread]
  · split
    · exact .refused _
    · split
      · exact .fault (.translation 3)
      · exact Result.Alike.behind_checks (.ok _) 3 _ _
  · exact .refused _

/-- `Walk64K42`. -/
theorem walk64K42_alike (ttbr : DWord) :
    (walk64K42 cfg m ttbr q).Alike q.va va' q.acc (walk64K42 cfg m ttbr { q with va := va' }) := by
  simp only [walk64K42, join_entry2Addr]
  split
  · exact .fault (.addressSize none)
  · obtain ⟨-, hread⟩ | ⟨-, hread⟩ := readEntry_cases cfg m (entry2Addr ttbr q.ea) <;> simp only [hread]
    · split
      · exact .fault (.translation 2)
      · exact Result.Alike.behind_checks (.ok _) 2 _ _
      · exact Result.Alike.behind_checks (walkLevel3_alike cfg m q va' _) 2 _ _
    · exact .refused _

variable (granule : Granule) (n : Nat)

/-- The walk of the general geometry (R85), from a table on. -/
theorem walkTables_alike (below : Nat) (base : PAddr) (path : Attrs) :
    (walkTables cfg m granule n q below base path).Alike q.va va' q.acc
      (walkTables cfg m granule n { q with va := va' } below base path) := by
  induction below generalizing base path with
  | zero =>
    simp only [walkTables]
    obtain ⟨-, hread⟩ | ⟨-, hread⟩ := readEntry_cases cfg m (entryAddr granule n 0 base q.ea) <;> simp only [hread]
    · split
      · exact .refused _
      · split
        · exact .fault (.translation 3)
        · exact Result.Alike.behind_checks (.ok _) 3 _ _
    · exact .refused _
  | succ below ih =>
    simp only [walkTables]
    obtain ⟨-, hread⟩ | ⟨-, hread⟩ := readEntry_cases cfg m (entryAddr granule n (below + 1) base q.ea) <;>
      simp only [hread]
    · split
      · exact .fault (.translation _)
      · split
        · exact Result.Alike.behind_checks (.ok _) _ _ _
        · exact .fault (.translation _)
      · exact Result.Alike.behind_checks (ih _ _) _ _ _
    · exact .refused _

/-- The walk of the general geometry. -/
theorem walkGeneral_alike (ttbr : DWord) :
    (walkGeneral cfg m granule n ttbr q).Alike q.va va' q.acc (walkGeneral cfg m granule n ttbr { q with va := va' }) := by
  simp only [walkGeneral]
  split
  · exact .refused _
  · split
    · exact .refused _
    · split
      · exact .fault (.addressSize none)
      · exact walkTables_alike cfg m q va' granule n _ _ _

end

/-! The translation, in one region. -/

section
variable (c : Choice) (s : State) (r : Region) (va va' : VAddr) (acc : AccessKind) (el : EL)

/-- The walk of a miss. -/
theorem missWalk_alike : (missWalk c s r va acc el).Alike va va' acc (missWalk c s r va' acc el) := by
  unfold missWalk
  split
  · exact .refused _
  · next w _ =>
    split
    · exact walk64K42_alike s.cfg s.mem ⟨va, r.ea, acc, el, w, c.sizeFirst⟩ va' r.base
    · split
      · exact walkGeneral_alike s.cfg s.mem ⟨va, r.ea, acc, el, w, c.sizeFirst⟩ va' r.granule r.n r.base
      · exact .refused _

/-- A miss. -/
theorem missResult_alike : (missResult c s r va acc el).Alike va va' acc (missResult c s r va' acc el) := by
  have h := missWalk_alike c s r va va' acc el
  unfold missResult
  generalize missWalk c s r va acc el = o, missWalk c s r va' acc el = o' at h ⊢
  cases h with
  | ok wk => exact .ok _
  | refused z => exact .refused z
  | fault hf => exact .fault hf

/-- A hit. -/
theorem hitResult_alike (e : TlbEntry) (ea : VAddr) :
    (hitResult s e ea va acc el).Alike va va' acc (hitResult s e ea va' acc el) := by
  unfold hitResult
  split
  · exact .ok _
  · exact .fault (.permission e.level)

end

section
variable {s : State} {va va' : VAddr} {acc : AccessKind} {el : EL}
  (h : (selectRegion s va acc el).Alike va va' acc (selectRegion s va' acc el))
include h

/-- Where the selection is alike, so is the region of the translation. -/
theorem translationRegion_alike : (translationRegion s va acc el).Alike va va' acc (translationRegion s va' acc el) := by
  unfold translationRegion
  split
  · exact .refused _
  · generalize selectRegion s va acc el = o, selectRegion s va' acc el = o' at h ⊢
    cases h with
    | ok r =>
      dsimp only
      split
      · exact .ok r
      · exact .refused _
    | refused z => exact .refused z
    | fault hf => exact .fault hf

/-- Where the selection is alike, so is the translation. -/
theorem translate_alike (c : Choice) : (translate c s va acc el).Alike va va' acc (translate c s va' acc el) := by
  have hregion := translationRegion_alike h
  unfold translate
  generalize translationRegion s va acc el = o, translationRegion s va' acc el = o' at hregion ⊢
  cases hregion with
  | ok r =>
    dsimp only
    split
    · exact hitResult_alike ..
    · exact missResult_alike ..
  | refused z => exact .refused z
  | fault hf => exact .fault hf

end

/-! The selection. -/

/-- With tagging, the checked bits of two addresses that differ in the top byte only are the same. -/
theorem slice_topBit_congr {va va' : VAddr} (h : va.extractLsb 55 0 = va'.extractLsb 55 0) (lo : Nat) :
    slice va' (topBit true) lo = slice va (topBit true) lo := by
  refine BitVec.eq_of_getLsbD_eq fun i hi => ?_
  have hi : i < 55 + 1 - lo := hi
  have hbit : va.getLsbD (lo + i) = va'.getLsbD (lo + i) := getLsbD_eq_of_field_eq h (by omega) (by omega)
  simp [slice, BitVec.getLsbD_extractLsb', hbit]

/-- Two addresses are both in the lower region, with the same effective address, or both outside it. -/
structure LowerAlike (tag : Bool) (n : Nat) (va va' : VAddr) : Prop where
  region : inLower tag n va' = inLower tag n va
  ea     : inLower tag n va = true → eaLower tag va' = eaLower tag va

/-- Two addresses are both in the upper region, with the same effective address, or both outside it. -/
structure UpperAlike (tag : Bool) (n : Nat) (va va' : VAddr) : Prop where
  region : inUpper tag n va' = inUpper tag n va
  ea     : inUpper tag n va = true → eaUpper tag va' = eaUpper tag va

section
variable {va va' : VAddr}

section
variable (h : va.extractLsb 55 0 = va'.extractLsb 55 0)
include h

/-- With tagging the lower region ignores the top byte. -/
theorem lowerAlike_of_tag {tag : Bool} (htag : tag = true) (n : Nat) : LowerAlike tag n va va' := by
  subst htag
  exact ⟨by rw [inLower, inLower, sliceZeros, sliceZeros, slice_topBit_congr h], fun _ => by simp [eaLower, h]⟩

/-- With tagging the upper region ignores the top byte. -/
theorem upperAlike_of_tag {tag : Bool} (htag : tag = true) (n : Nat) : UpperAlike tag n va va' := by
  subst htag
  exact ⟨by rw [inUpper, inUpper, sliceOnes, sliceOnes, slice_topBit_congr h], fun _ => by simp [eaUpper, h]⟩

end

section
variable {n : Nat} (hn : 9 ≤ n) (tag : Bool)
include hn

/-- Two addresses whose bit 55 is 1 are both outside the lower region. -/
theorem lowerAlike_of_bit55 (h : va.getLsbD 55 = true) (h' : va'.getLsbD 55 = true) : LowerAlike tag n va va' := by
  have hout := inLower_eq_false_of_bit55 hn h tag
  exact ⟨by rw [hout, inLower_eq_false_of_bit55 hn h'], fun hin => by simp [hout] at hin⟩

/-- Two addresses whose bit 55 is 0 are both outside the upper region. -/
theorem upperAlike_of_bit55 (h : va.getLsbD 55 = false) (h' : va'.getLsbD 55 = false) : UpperAlike tag n va va' := by
  have hout := inUpper_eq_false_of_bit55 hn h tag
  exact ⟨by rw [hout, inUpper_eq_false_of_bit55 hn h'], fun hin => by simp [hout] at hin⟩

end

/-- Alike in the single region, the selection is alike. -/
theorem selectSingle_alike {tag : Bool} (h : LowerAlike tag 16 va va') (base : DWord) (g : Granule) (rg : Regime)
    (acc : AccessKind) : (selectSingle base g rg tag va acc).Alike va va' acc (selectSingle base g rg tag va' acc) := by
  unfold selectSingle
  rw [h.region]
  split
  · next hin =>
    rw [h.ea hin]
    exact .ok _
  · exact .fault .vaRange

/-- Alike in both regions, where the size fields are listed, the selection is alike. -/
theorem selectEl1and0_alike {s : State} (acc : AccessKind)
    (h : txszLegal s.cfg s.tcrEl1.t0sz.toNat = true → txszLegal s.cfg s.tcrEl1.t1sz.toNat = true →
      LowerAlike s.cfg.tag0 s.tcrEl1.t0sz.toNat va va' ∧ UpperAlike s.cfg.tag1 s.tcrEl1.t1sz.toNat va va') :
    (selectEl1and0 s va acc).Alike va va' acc (selectEl1and0 s va' acc) := by
  unfold selectEl1and0
  split
  · next hlegal =>
    obtain ⟨h0, h1⟩ := (Bool.and_eq_true _ _).mp hlegal
    obtain ⟨hlow, hup⟩ := h h0 h1
    rw [hlow.region, hup.region]
    split
    · next hin _ =>
      rw [hlow.ea hin]
      split
      · exact .ok _
      · exact .refused _
    · next _ hin =>
      rw [hup.ea hin]
      split
      · exact .ok _
      · exact .refused _
    · exact .refused _
    · exact .fault .vaRange
  · exact .refused _

/-- At EL0 and EL1, where tagging is on for the region they lie in, two addresses that differ in the top byte only are
selected alike: bit 55 keeps them out of a region without tagging. -/
theorem selectEl1and0_alike_of_tag {s : State} (acc : AccessKind) (h : va.extractLsb 55 0 = va'.extractLsb 55 0)
    (htag : s.cfg.tag0 = true ∧ s.cfg.tag1 = true ∨
      9 ≤ s.cfg.txszMin ∧ (s.cfg.tag0 = true ∧ va.getLsbD 55 = false ∨ s.cfg.tag1 = true ∧ va.getLsbD 55 = true)) :
    (selectEl1and0 s va acc).Alike va va' acc (selectEl1and0 s va' acc) := by
  refine selectEl1and0_alike acc fun h0 h1 => ?_
  have hmin0 := ((txszLegal_iff _ _).mp h0).1
  have hmin1 := ((txszLegal_iff _ _).mp h1).1
  have hbit : va'.getLsbD 55 = va.getLsbD 55 := (getLsbD_eq_of_field_eq h (Nat.zero_le 55) (Nat.le_refl 55)).symm
  obtain ⟨htag0, htag1⟩ | ⟨hmin, ⟨htag0, hva⟩ | ⟨htag1, hva⟩⟩ := htag
  · exact ⟨lowerAlike_of_tag h htag0 _, upperAlike_of_tag h htag1 _⟩
  · exact ⟨lowerAlike_of_tag h htag0 _, upperAlike_of_bit55 (hmin.trans hmin1) _ hva (hbit.trans hva)⟩
  · exact ⟨lowerAlike_of_bit55 (hmin.trans hmin0) _ hva (hbit.trans hva), upperAlike_of_tag h htag1 _⟩

end

/-- Settles O39: the selection is alike, so the translation is, and a fault of it is one of the four kinds. -/
theorem tagByteIsIgnored : Obligations.TagByteIsIgnored := by
  intro s c va va' acc el hfield htag
  have hselect : (selectRegion s va acc el).Alike va va' acc (selectRegion s va' acc el) := by
    cases el with
    | el0 | el1 => exact selectEl1and0_alike_of_tag acc hfield htag
    | el2 | el3 => exact selectSingle_alike (lowerAlike_of_tag hfield htag 16) _ _ _ acc
  have htranslate := translate_alike hselect c
  refine ⟨fun r => hselect.eq_ok, fun t => htranslate.eq_ok, fun z => htranslate.eq_refused, fun f hf => ?_⟩
  obtain ⟨f', hf', halike⟩ := htranslate.eq_fault hf
  cases halike with
  | vaRange => exact .inl ⟨rfl, hf'⟩
  | translation l => exact .inr (.inl ⟨l, rfl, hf'⟩)
  | permission l => exact .inr (.inr (.inl ⟨l, rfl, hf'⟩))
  | addressSize l => exact .inr (.inr (.inr ⟨l, rfl, hf'⟩))

end Sys2Proof.Machine
end

section
/-! SUPPORT. The system registers, which only a `WriteSysReg` step changes (10_state.md R29, 42_translation_walk.md R110). -/

namespace Sys2Proof.Machine

/-- The five system registers of a state (10_state.md R29). -/
def State.sysRegs (s : State) : DWord × DWord × DWord × DWord × TcrEl1 :=
  (s.ttbr0El1, s.ttbr1El1, s.ttbr0El2, s.ttbr0El3, s.tcrEl1)

/-- Two states have the same system registers when the five agree one by one. -/
theorem State.sysRegs_eq_iff {s t : State} :
    t.sysRegs = s.sysRegs ↔ t.ttbr0El1 = s.ttbr0El1 ∧ t.ttbr1El1 = s.ttbr1El1 ∧ t.ttbr0El2 = s.ttbr0El2 ∧
      t.ttbr0El3 = s.ttbr0El3 ∧ t.tcrEl1 = s.tcrEl1 := by
  simp only [State.sysRegs, Prod.mk.injEq]

/-- A write of `Xt` changes no system register. -/
@[simp] theorem writeX_sysRegs (s : State) (t : BitVec 5) (v : DWord) : (writeX s t v).sysRegs = s.sysRegs := by
  simp [State.sysRegs_eq_iff]

/-- Reporting a response changes no system register. -/
@[simp] theorem respond_sysRegs (s : State) (o : Response) : (respond s o).sysRegs = s.sysRegs := rfl

/-- Changing the TLB changes no system register. -/
@[simp] theorem setTlb_sysRegs (s : State) (tlb : List TlbEntry) : (setTlb s tlb).sysRegs = s.sysRegs := rfl

/-- No instruction changes a system register. -/
theorem exec_sysRegs {i : Instr} {s t : State} (h : exec i s = .next t) : t.sysRegs = s.sysRegs :=
  (congrArg State.sysRegs (exec_frame h).1).trans (setTlb_sysRegs s t.tlb)

/-- No action but `WriteSysReg` changes a system register. -/
theorem Performed.sysRegs_eq {c : Choice} {u t : State} {a : Action} (h : Performed c u a t)
    (ha : ∀ w, a ≠ .writeSysReg w) : t.sysRegs = u.sysRegs := by
  cases h with
  | writeSysReg w => exact absurd rfl (ha w)
  | setX r v => exact writeX_sysRegs u r v
  | instr i v hv => simpa using exec_sysRegs hv
  | instrWord w i v _ hv => simpa using exec_sysRegs hv
  | fetchRun va tr i v _ _ hv => simpa using exec_sysRegs hv
  | memWrite | accessSplit | accessFault | accessLoad | accessStore | fetchFault => rfl

/-- Settles O26, by what a step can do: wait, or perform an action that is no `WriteSysReg`. -/
theorem onlyWriteSysRegChangesSystemRegisters : Obligations.OnlyWriteSysRegChangesSystemRegisters := by
  intro s t hstep hne
  refine State.sysRegs_eq_iff.mp ?_
  obtain ⟨-, rfl⟩ | ⟨inp, a, rest, hreq, hperformed⟩ := step_next hstep
  · rfl
  · exact hperformed.sysRegs_eq fun w ha => hne inp w rest (ha ▸ hreq)

end Sys2Proof.Machine
end

section
/-! SUPPORT. Where a walk of the source's geometry ends: in a level 2 block or in a level 3 page (42_translation_walk.md R78 to R84),
and the entry it may have cached (R77, 40_tlb_tlbi.md R52, R54). -/

namespace Sys2Proof.Machine

/-! The address of a block or page: bits of the entry above bits of the virtual address (R74). -/

/-- Bits [47:k] of an entry above bits [k-1:0] of an address, bit by bit. -/
theorem getLsbD_field_append (d : DWord) (ea : VAddr) {k i : Nat} (hpos : 0 < k) (hk : k < 48) (hi : i < 48) :
    (d.extractLsb 47 k ++ ea.extractLsb (k - 1) 0).getLsbD i = if i < k then ea.getLsbD i else d.getLsbD i := by
  have hwidth : k - 1 - 0 + 1 = k := by omega
  rw [BitVec.getLsbD_append, BitVec.getLsbD_extractLsb, BitVec.getLsbD_extractLsb, hwidth]
  by_cases h : i < k
  · simp [h]
  · simp [h, show i - k ≤ 47 - k by omega, show k + (i - k) = i by omega]

/-- A bit of the address field of an entry. -/
theorem getLsbD_addrField (d : DWord) {i : Nat} (hi : i < 48) : (addrField d).getLsbD i = d.getLsbD i := by
  simp [addrField, show i ≤ 47 by omega]

/-- A bit of the join of an entry's address field with the low bits of an address. -/
theorem getLsbD_joinAt_addrField (k : Nat) (d : DWord) (ea : VAddr) {i : Nat} (hi : i < 48) :
    (joinAt k (addrField d) ea).getLsbD i = if i < k then ea.getLsbD i else d.getLsbD i := by
  rw [getLsbD_joinAt _ _ _ _ hi, getLsbD_addrField d hi]

/-- The address of a block is a join at 29 bits. -/
theorem joinAt_29 (d : DWord) (ea : VAddr) : joinAt 29 (addrField d) ea = d.extractLsb 47 29 ++ ea.extractLsb 28 0 := by
  refine BitVec.eq_of_getLsbD_eq fun i hi => ?_
  rw [getLsbD_joinAt_addrField _ _ _ hi]
  exact (getLsbD_field_append d ea (k := 29) (by decide) (by decide) hi).symm

/-- The address of a page of 64KB is a join at 16 bits. -/
theorem joinAt_16 (d : DWord) (ea : VAddr) : joinAt 16 (addrField d) ea = d.extractLsb 47 16 ++ ea.extractLsb 15 0 := by
  refine BitVec.eq_of_getLsbD_eq fun i hi => ?_
  rw [getLsbD_joinAt_addrField _ _ _ hi]
  exact (getLsbD_field_append d ea (k := 16) (by decide) (by decide) hi).symm

/-- The upper bits of a join are the entry's. -/
theorem extractLsb_joinAt_high {k : Nat} (hk : k < 48) (d : DWord) (ea : VAddr) :
    (joinAt k (addrField d) ea).extractLsb 47 k = d.extractLsb 47 k := by
  refine BitVec.eq_of_getLsbD_eq fun i h => ?_
  have hi : k + i < 48 := by omega
  rw [BitVec.getLsbD_extractLsb, BitVec.getLsbD_extractLsb, getLsbD_joinAt_addrField _ _ _ hi, if_neg (by omega)]

/-- The low bits of a join are the address's. -/
theorem extractLsb_joinAt_low {k : Nat} (hpos : 0 < k) (hk : k < 48) (hi : PAddr) (ea : VAddr) :
    (joinAt k hi ea).extractLsb (k - 1) 0 = ea.extractLsb (k - 1) 0 := by
  refine BitVec.eq_of_getLsbD_eq fun i h => ?_
  rw [BitVec.getLsbD_extractLsb, BitVec.getLsbD_extractLsb, Nat.zero_add, getLsbD_joinAt _ _ _ _ (by omega), if_pos (by omega)]

/-- A join does not look at the low bits it replaces. -/
theorem joinAt_clearLow (k : Nat) (hi : PAddr) (ea : VAddr) : joinAt k (clearLow k hi) ea = joinAt k hi ea := by
  refine BitVec.eq_of_getLsbD_eq fun i h => ?_
  rw [getLsbD_joinAt _ _ _ _ h, getLsbD_joinAt _ _ _ _ h, getLsbD_clearLow]
  split
  · rfl
  · next hk => rw [decide_eq_true (Nat.not_lt.mp hk), Bool.true_and]

/-- The low bits of a join, joined again, are those of the last address. -/
theorem joinAt_joinAt (k : Nat) (hi : PAddr) (ea ea' : VAddr) : joinAt k (joinAt k hi ea) ea' = joinAt k hi ea' := by
  refine BitVec.eq_of_getLsbD_eq fun i h => ?_
  simp only [getLsbD_joinAt _ _ _ _ h]
  split <;> rfl

/-! A walk that ends in a level 2 block (R78). -/

/-- What a walk that ends in a level 2 block returns. -/
def blockEnd (cfg : Config) (q : WalkFor) (d2 : DWord) : WalkEnd where
  pa := joinAt 29 (addrField d2) q.ea
  attrs := [entryAttrs cfg 2 false d2]
  level := 2
  k := 29
  wide := none

/-- The walk's base is in range and its first entry, read from plain memory, is a block in range: what is left of the lookup
is the permission. -/
structure ReadsBlock (cfg : Config) (m : Memory) (ttbr : DWord) (q : WalkFor) (d2 : DWord) : Prop where
  base     : inSize q.w (ttbr.extractLsb 47 16 ++ 0#16 : PAddr) = true
  readable : plain cfg (entry2Addr ttbr q.ea) 8 = true
  read     : d2 = memRead64 cfg m (entry2Addr ttbr q.ea)
  block    : upperKind cfg 2 d2 = .block
  sized    : inSize q.w (addrField d2) = true

/-- The address of a page's end is a join at 16 bits. -/
theorem pageEnd_pa (cfg : Config) (q : WalkFor) (d2 d3 : DWord) :
    (pageEnd cfg q d2 d3).pa = joinAt 16 (addrField d3) q.ea :=
  (joinAt_16 d3 q.ea).symm

/-- The cached permission of a walk of one lookup is that of its entry. -/
theorem permits_blockEnd (cfg : Config) (q : WalkFor) (d2 : DWord) (acc : AccessKind) (el : EL) :
    permits cfg (blockEnd cfg q d2).attrs acc el = permitsAt cfg 2 false d2 acc el := by
  simp [permits, blockEnd, permitsAt]

section
variable {cfg : Config} {m : Memory} {ttbr : DWord} {q q' : WalkFor} {d2 d3 : DWord}

/-- A permitted block ends the walk with its address. -/
theorem walk64K42_block_permitted (h : ReadsBlock cfg m ttbr q d2) (hp : permitsAt cfg 2 false d2 q.acc q.el = true) :
    walk64K42 cfg m ttbr q = .ok (blockEnd cfg q d2) := by
  obtain ⟨hbase, hplain, hread, hblock, hsized⟩ := h
  simp only [walk64K42, join_entry2Addr, hbase, readEntry_plain hplain, ← hread, hblock, hp, hsized, checkEntry,
    Bool.not_true, Bool.false_eq_true, if_false, blockEnd, joinAt_29]

/-- A block that does not permit the access ends the walk with a fault. -/
theorem walk64K42_block_denied (h : ReadsBlock cfg m ttbr q d2) (hp : permitsAt cfg 2 false d2 q.acc q.el = false) :
    walk64K42 cfg m ttbr q = .fault (.permission 2 q.va q.acc) := by
  obtain ⟨hbase, hplain, hread, hblock, hsized⟩ := h
  simp only [walk64K42, join_entry2Addr, hbase, readEntry_plain hplain, ← hread, hblock, hp, hsized, checkEntry,
    Bool.not_true, Bool.false_eq_true, if_false]

/-- A permitted table descriptor and a permitted page end the walk with the page's address. -/
theorem walk64K42_page_permitted (h2 : LeadsToTable cfg m ttbr q d2) (h3 : ReadsPage cfg m q d2 d3)
    (hp2 : permitsAt cfg 2 true d2 q.acc q.el = true) (hp3 : permitsAt cfg 3 false d3 q.acc q.el = true) :
    walk64K42 cfg m ttbr q = .ok (pageEnd cfg q d2 d3) :=
  (walk64K42_permitted h2 hp2).trans (walkLevel3_permitted h3 hp3)

/-- A walk that succeeds ended in a block, or was led to a table and ended in a page. -/
theorem walk64K42_ok {wk : WalkEnd} (h : walk64K42 cfg m ttbr q = .ok wk) :
    (∃ d2, ReadsBlock cfg m ttbr q d2 ∧ wk = blockEnd cfg q d2) ∨
    ∃ d2 d3, LeadsToTable cfg m ttbr q d2 ∧ ReadsPage cfg m q d2 d3 ∧ wk = pageEnd cfg q d2 d3 := by
  simp only [walk64K42, join_entry2Addr] at h
  split at h
  · cases h
  · next hbase =>
    have hbase : inSize q.w (ttbr.extractLsb 47 16 ++ 0#16 : PAddr) = true := by simpa using hbase
    obtain ⟨hplain, hread⟩ | ⟨-, hread⟩ := readEntry_cases cfg m (entry2Addr ttbr q.ea) <;> rw [hread] at h
    · dsimp only at h
      split at h
      · cases h
      · next hblock =>
        split at h
        · cases h
        · next hcheck =>
          obtain ⟨-, hsized⟩ := (checkEntry_eq_none _ _ _ _).mp hcheck
          cases h
          refine .inl ⟨_, ⟨hbase, hplain, rfl, hblock, hsized⟩, ?_⟩
          rw [blockEnd, joinAt_29]
      · next htable =>
        split at h
        · cases h
        · next hcheck =>
          obtain ⟨-, hsized⟩ := (checkEntry_eq_none _ _ _ _).mp hcheck
          obtain ⟨d3, h3, -, hend⟩ := walkLevel3_ok h
          exact .inr ⟨_, d3, ⟨hbase, hplain, rfl, htable, hsized⟩, h3, hend⟩
    · cases h

end

/-- Settles O42: the walk reads a permitted block, whose end is a join at 29 bits. -/
theorem blockEndsTheWalkAtLevelTwo : Obligations.BlockEndsTheWalkAtLevelTwo := by
  intro cfg m ttbr q a2 d2 ha2 hd2 hbase hplain hblock hp hsized
  subst ha2
  exact ⟨_, walk64K42_block_permitted ⟨hbase, hplain, hd2, hblock, hsized⟩ hp, extractLsb_joinAt_high (by decide) d2 q.ea,
    extractLsb_joinAt_low (k := 29) (by decide) (by decide) _ q.ea, rfl, rfl, rfl, rfl⟩

/-- Settles O43: a valid level 3 entry is a page, and the page's end is a join at 16 bits. -/
theorem pageEndsTheWalkAtLevelThree : Obligations.PageEndsTheWalkAtLevelThree := by
  intro cfg m ttbr q a2 a3 d2 d3 ha2 hd2 ha3 hd3 hbase hplain2 hplain3 htable hp2 hsized2 hwhole hvalid hp3 hsized3
  subst ha2 ha3
  have hpage : lastKind cfg d3 = .page := by
    cases hkind : lastKind cfg d3 with
    | invalid => exact absurd hkind hvalid
    | page => rfl
  have h2 : LeadsToTable cfg m ttbr q d2 := ⟨hbase, hplain2, hd2, htable, hsized2⟩
  have h3 : ReadsPage cfg m q d2 d3 := ⟨hplain3, hd3, hwhole, hpage, hsized3⟩
  refine ⟨_, walk64K42_page_permitted h2 h3 hp2 hp3, ?_⟩
  rw [pageEnd_pa]
  exact ⟨extractLsb_joinAt_high (by decide) d3 q.ea, extractLsb_joinAt_low (k := 16) (by decide) (by decide) _ q.ea⟩

/-! The entry a walk may have cached (R52, R54, R77). -/

/-- An address in the range of an entry's size agrees with the address of the walk above that size. -/
theorem div_eq_of_in_range {k : Nat} {ea ea' : VAddr} (hlo : (clearLow k ea).toNat ≤ ea'.toNat)
    (hhi : ea'.toNat < (clearLow k ea).toNat + 2 ^ k) : ea'.toNat / 2 ^ k = ea.toNat / 2 ^ k := by
  rw [toNat_clearLow] at hlo hhi
  exact Nat.div_eq_of_lt_le hlo (by rwa [Nat.succ_mul])

/-- Addresses in one block read the same first entry. -/
theorem entry2Addr_eq_of_block {ea ea' : VAddr} (h : ea'.toNat / 2 ^ 29 = ea.toNat / 2 ^ 29) (ttbr : DWord) :
    entry2Addr ttbr ea' = entry2Addr ttbr ea := by
  have hfield : ea'.extractLsb 41 29 = ea.extractLsb 41 29 := by rw [← BitVec.toNat_inj, toNat_field, toNat_field, h]
  rw [entry2Addr, entry2Addr, hfield]

/-- Addresses in one page read the same second entry. -/
theorem entry3Addr_eq_of_page {ea ea' : VAddr} (h : ea'.toNat / 2 ^ 16 = ea.toNat / 2 ^ 16) (d2 : DWord) :
    entry3Addr d2 ea' = entry3Addr d2 ea := by
  have hfield : ea'.extractLsb 28 16 = ea.extractLsb 28 16 := by rw [← BitVec.toNat_inj, toNat_field, toNat_field, h]
  rw [entry3Addr, entry3Addr, hfield]

/-- Another access with the same output size whose first entry is the same reads the same block. -/
theorem ReadsBlock.congr {cfg : Config} {m : Memory} {ttbr : DWord} {q q' : WalkFor} {d2 : DWord}
    (h : ReadsBlock cfg m ttbr q d2) (hw : q'.w = q.w) (ha : entry2Addr ttbr q'.ea = entry2Addr ttbr q.ea) :
    ReadsBlock cfg m ttbr q' d2 := by
  obtain ⟨hbase, hplain, hread, hblock, hsized⟩ := h
  exact ⟨hw ▸ hbase, ha ▸ hplain, ha ▸ hread, hblock, hw ▸ hsized⟩

/-- Another access with the same output size whose second entry is the same reads the same page. -/
theorem ReadsPage.congr {cfg : Config} {m : Memory} {q q' : WalkFor} {d2 d3 : DWord}
    (h : ReadsPage cfg m q d2 d3) (hw : q'.w = q.w) (ha : entry3Addr d2 q'.ea = entry3Addr d2 q.ea) :
    ReadsPage cfg m q' d2 d3 := by
  obtain ⟨hplain, hread, hwhole, hpage, hsized⟩ := h
  exact ⟨ha ▸ hplain, ha ▸ hread, ha ▸ hwhole, hpage, hw ▸ hsized⟩

/-- After a walk that succeeded, the walk of any access in the range of the entry it ended in gives the same upper bits and
attributes where they permit the access, and a Permission fault where they do not. -/
theorem walk64K42_in_range {cfg : Config} {m : Memory} {ttbr : DWord} {q q' : WalkFor} {wk : WalkEnd}
    (h : walk64K42 cfg m ttbr q = .ok wk) (hea : q'.ea.toNat / 2 ^ wk.k = q.ea.toNat / 2 ^ wk.k) (hw : q'.w = q.w) :
    (permits cfg wk.attrs q'.acc q'.el = true →
      ∃ wk', walk64K42 cfg m ttbr q' = .ok wk' ∧ wk'.pa = joinAt wk.k wk.pa q'.ea ∧ wk'.attrs = wk.attrs) ∧
    (permits cfg wk.attrs q'.acc q'.el = false →
      ∃ level, walk64K42 cfg m ttbr q' = .fault (.permission level q'.va q'.acc)) := by
  obtain ⟨d2, h2, rfl⟩ | ⟨d2, d3, h2, h3, rfl⟩ := walk64K42_ok h
  · have h2' : ReadsBlock cfg m ttbr q' d2 := h2.congr hw (entry2Addr_eq_of_block hea ttbr)
    rw [permits_blockEnd]
    exact ⟨fun hp => ⟨_, walk64K42_block_permitted h2' hp, (joinAt_joinAt 29 _ _ _).symm, rfl⟩,
      fun hp => ⟨2, walk64K42_block_denied h2' hp⟩⟩
  · have hea : q'.ea.toNat / 2 ^ 16 = q.ea.toNat / 2 ^ 16 := hea
    have h2' : LeadsToTable cfg m ttbr q' d2 := h2.congr hw (entry2Addr_eq_of_block (by omega) ttbr)
    have h3' : ReadsPage cfg m q' d2 d3 := h3.congr hw (entry3Addr_eq_of_page hea d2)
    rw [permits_pageEnd]
    cases hp2 : permitsAt cfg 2 true d2 q'.acc q'.el with
    | false => exact ⟨nofun, fun _ => ⟨2, walk64K42_denied h2' hp2⟩⟩
    | true =>
      rw [Bool.true_and, walk64K42_permitted h2' hp2]
      refine ⟨fun hp => ⟨_, walkLevel3_permitted h3' hp, ?_, rfl⟩, fun hp => ⟨3, walkLevel3_denied h3' hp⟩⟩
      rw [pageEnd_pa, pageEnd_pa]
      exact (joinAt_joinAt 16 _ _ _).symm

/-- Settles O51: an access the entry matches lies in its range and has the same regime, base and output size. -/
theorem hitAgreesWithTheWalk : Obligations.HitAgreesWithTheWalk := by
  intro s c c' r r' va va' acc acc' el el' wk hsource hwk hbase hn hgranule hmatch
  obtain ⟨hregime, hlo, hhi, -⟩ := (entryMatches_iff _ _ _ _).mp hmatch
  have hregime' : r'.regime = r.regime := hregime.symm
  have hsource' : sourceGeometry r' = true := by
    rw [sourceGeometry, hgranule, hn]
    exact hsource
  cases hw : outSize s r.regime with
  | none =>
    rw [missWalk, hw] at hwk
    cases hwk
  | some w =>
    rw [missWalk_source hw hsource] at hwk
    rw [missWalk_source (hregime' ▸ hw) hsource', hbase, hitAddress, filledEntry, joinAt_clearLow]
    exact walk64K42_in_range (q' := ⟨va', r'.ea, acc', el', w, c'.sizeFirst⟩) hwk (div_eq_of_in_range hlo hhi) rfl

end Sys2Proof.Machine
end

section
/-! SUPPORT. The general geometry (42_translation_walk.md R85; GK8, PRESUMED, log 14): the first table, the address of an entry, what
each kind of entry gives, and that at 64KB and 42 bits it is the walk the source spells out (R80). -/

namespace Sys2Proof.Machine

/-! The geometry. -/

/-- The count of tables is the one number of levels that the index bits fill (R85). -/
theorem tableCount_eq {granule : Granule} {n below : Nat}
    (hlo : below * (granuleBits granule - 3) < 64 - n - granuleBits granule)
    (hhi : 64 - n - granuleBits granule ≤ (below + 1) * (granuleBits granule - 3)) : tableCount granule n = below + 1 := by
  have hg := granuleBits_bounds granule
  refine Nat.div_eq_of_lt_le ?_ ?_ <;> rw [Nat.succ_mul] <;> omega

/-- The size of a table, with the index bits written out (R85). -/
theorem tableBits_eq (granule : Granule) (n below : Nat) :
    tableBits granule n below =
      3 + min (granuleBits granule - 3) (64 - n - (granuleBits granule + below * (granuleBits granule - 3))) :=
  Nat.add_comm _ _

/-- A bit of an entry's address: three zeros, the index, the table's base. -/
theorem getLsbD_entryAddr (granule : Granule) (n below : Nat) (base : PAddr) (ea : VAddr) {i : Nat} (hi : i < 48) :
    (entryAddr granule n below base ea).getLsbD i =
      if i < 3 then false
      else if i < tableBits granule n below then ea.getLsbD (indexLow granule below + (i - 3))
      else base.getLsbD i := by
  rw [entryAddr, BitVec.getLsbD_or, getLsbD_clearLow, BitVec.getLsbD_shiftLeft, BitVec.getLsbD_setWidth,
    BitVec.getLsbD_extractLsb', tableBits]
  by_cases h3 : i < 3
  · simp [h3, show ¬ indexWidth granule n below + 3 ≤ i by omega]
  · by_cases hindex : i < indexWidth granule n below + 3
    · simp [h3, hindex, hi, show ¬ indexWidth granule n below + 3 ≤ i by omega, show i - 3 < indexWidth granule n below by omega,
        show i - 3 < 48 by omega]
    · simp [h3, hindex, show indexWidth granule n below + 3 ≤ i by omega, show ¬ i - 3 < indexWidth granule n below by omega]

/-- A bit of a field cleared below a table's size. -/
theorem getLsbD_clearLow_addrField (k : Nat) (d : DWord) {i : Nat} (hi : i < 48) :
    (clearLow k (addrField d)).getLsbD i = (decide (k ≤ i) && d.getLsbD i) := by
  rw [getLsbD_clearLow, getLsbD_addrField d hi]

/-- A word with an entry's bits from `k` on and zeros below is the entry's field cleared below `k`. -/
theorem eq_clearLow_addrField {k : Nat} {base : PAddr} {d : DWord}
    (h : ∀ i, i < 48 → base.getLsbD i = (decide (k ≤ i) && d.getLsbD i)) : base = clearLow k (addrField d) :=
  BitVec.eq_of_getLsbD_eq fun i hi => (h i hi).trans (getLsbD_clearLow_addrField k d hi).symm

/-- Block descriptors exist at level 2, and for 4KB at level 1 (R85). -/
theorem blockAllowed_iff (granule : Granule) (level : Nat) :
    blockAllowed granule level = true ↔ level = 2 ∨ granule = .kb4 ∧ level = 1 := by
  cases granule <;> simp [blockAllowed, or_comm]

/-- The walk from a given first table: the base register is checked, then the tables are walked. -/
theorem walkGeneral_of_count {cfg : Config} {m : Memory} {granule : Granule} {n below : Nat} {ttbr : DWord} {q : WalkFor}
    (hcount : tableCount granule n = below + 1) (hbelow : below ≤ 3) :
    walkGeneral cfg m granule n ttbr q =
      if inSize q.w (clearLow (tableBits granule n below) (addrField ttbr)) then
        walkTables cfg m granule n q below (clearLow (tableBits granule n below) (addrField ttbr)) []
      else .fault (.addressSize none q.va q.acc) := by
  rw [walkGeneral, hcount]
  dsimp only
  rw [if_neg (by omega)]
  cases inSize q.w (clearLow (tableBits granule n below) (addrField ttbr)) <;> rfl

/-! What an entry gives. -/

section
variable {cfg : Config} {m : Memory} {granule : Granule} {n : Nat} {q : WalkFor} {below : Nat} {base : PAddr} {path : Attrs}
  {d : DWord}

/-- A permitted page in range of no broken group ends the walk. -/
theorem walkTables_page (hplain : plain cfg (entryAddr granule n 0 base q.ea) 8 = true)
    (hd : d = memRead64 cfg m (entryAddr granule n 0 base q.ea))
    (hwhole : groupBroken cfg m granule (entryAddr granule n 0 base q.ea) = false) (hpage : lastKind cfg d = .page)
    (hp : permitsAt cfg 3 false d q.acc q.el = true) (hsized : inSize q.w (addrField d) = true) :
    walkTables cfg m granule n q 0 base path =
      .ok ⟨joinAt (granuleBits granule) (addrField d) q.ea, path ++ [entryAttrs cfg 3 false d], 3, granuleBits granule,
        if groupFits granule n then wideSize cfg granule d else none⟩ := by
  simp only [walkTables, readEntry_plain hplain, ← hd, hwhole, hpage, hp, hsized, checkEntry, Bool.and_false,
    Bool.false_eq_true, if_false]

/-- A permitted block in range ends the walk where blocks exist. -/
theorem walkTables_block (hplain : plain cfg (entryAddr granule n (below + 1) base q.ea) 8 = true)
    (hd : d = memRead64 cfg m (entryAddr granule n (below + 1) base q.ea)) (hblock : upperKind cfg (2 - below) d = .block)
    (hallowed : blockAllowed granule (2 - below) = true) (hp : permitsAt cfg (2 - below) false d q.acc q.el = true)
    (hsized : inSize q.w (addrField d) = true) :
    walkTables cfg m granule n q (below + 1) base path =
      .ok ⟨joinAt (indexLow granule (below + 1)) (addrField d) q.ea, path ++ [entryAttrs cfg (2 - below) false d], 2 - below,
        indexLow granule (below + 1), none⟩ := by
  simp only [walkTables, readEntry_plain hplain, ← hd, hblock, hallowed, hp, hsized, checkEntry, if_true]

/-- A block where none exists is a Translation fault (log 37). -/
theorem walkTables_block_not_allowed (hplain : plain cfg (entryAddr granule n (below + 1) base q.ea) 8 = true)
    (hd : d = memRead64 cfg m (entryAddr granule n (below + 1) base q.ea)) (hblock : upperKind cfg (2 - below) d = .block)
    (hallowed : blockAllowed granule (2 - below) = false) :
    walkTables cfg m granule n q (below + 1) base path = .fault (.translation (2 - below) q.va q.acc) := by
  simp only [walkTables, readEntry_plain hplain, ← hd, hblock, hallowed, Bool.false_eq_true, if_false]

/-- A permitted table descriptor in range leads to the next table. -/
theorem walkTables_table (hplain : plain cfg (entryAddr granule n (below + 1) base q.ea) 8 = true)
    (hd : d = memRead64 cfg m (entryAddr granule n (below + 1) base q.ea)) (htable : upperKind cfg (2 - below) d = .table)
    (hp : permitsAt cfg (2 - below) true d q.acc q.el = true) (hsized : inSize q.w (addrField d) = true) :
    walkTables cfg m granule n q (below + 1) base path =
      walkTables cfg m granule n q below (clearLow (granuleBits granule) (addrField d))
        (path ++ [entryAttrs cfg (2 - below) true d]) := by
  simp only [walkTables, readEntry_plain hplain, ← hd, htable, hp, hsized, checkEntry]

end

/-! The source's walk (R80). -/

/-- A 64KB-aligned table address is the entry's field with its low 16 bits cleared. -/
theorem clearLow_16_addrField (d : DWord) : clearLow 16 (addrField d) = d.extractLsb 47 16 ++ 0#16 := by
  apply BitVec.eq_of_toNat_eq
  rw [toNat_clearLow, addrField, toNat_field, toNat_joined, toNat_field, BitVec.toNat_ofNat]
  omega

/-- A bit of an entry's address in a table of 64KB: three zeros, 13 bits of the address, the table's base. -/
theorem getLsbD_tableEntry (d : DWord) (ea : VAddr) (lo : Nat) {i : Nat} (hi : i < 48) :
    (d.extractLsb 47 16 ++ ea.extractLsb (lo + 12) lo ++ 0#3).getLsbD i =
      if i < 3 then false else if i < 16 then ea.getLsbD (lo + (i - 3)) else d.getLsbD i := by
  have hwidth : lo + 12 - lo + 1 = 13 := by omega
  rw [BitVec.getLsbD_append, BitVec.getLsbD_append, BitVec.getLsbD_extractLsb, BitVec.getLsbD_extractLsb, hwidth]
  by_cases h3 : i < 3
  · simp [h3]
  · by_cases h16 : i < 16
    · simp [h3, h16, show i - 3 < 13 by omega]
    · simp [h3, h16, show ¬ i - 3 < 13 by omega, show i - 3 - 13 < 32 by omega, show 16 + (i - 3 - 13) = i by omega]

/-- In a table of 64KB the general address of an entry is three zeros below 13 bits of the address below the base. -/
theorem getLsbD_entryAddr_clearLow_16 {granule : Granule} {n below : Nat} (h : tableBits granule n below = 16) (d : DWord)
    (ea : VAddr) {i : Nat} (hi : i < 48) :
    (entryAddr granule n below (clearLow 16 (addrField d)) ea).getLsbD i =
      (d.extractLsb 47 16 ++ ea.extractLsb (indexLow granule below + 12) (indexLow granule below) ++ 0#3).getLsbD i := by
  rw [getLsbD_entryAddr _ _ _ _ _ hi, getLsbD_tableEntry _ _ _ hi, h, getLsbD_clearLow_addrField _ _ hi]
  by_cases h16 : i < 16
  · simp only [h16, if_true]
  · simp only [h16, if_false, decide_eq_true (Nat.not_lt.mp h16), Bool.true_and]

/-- The first entry's address at 64KB and 42 bits. -/
theorem entryAddr_source_level2 (ttbr : DWord) (ea : VAddr) :
    entryAddr .kb64 22 1 (clearLow 16 (addrField ttbr)) ea = entry2Addr ttbr ea :=
  BitVec.eq_of_getLsbD_eq fun _ hi => getLsbD_entryAddr_clearLow_16 (by decide) ttbr ea hi

/-- The second entry's address at 64KB and 42 bits. -/
theorem entryAddr_source_level3 (d2 : DWord) (ea : VAddr) :
    entryAddr .kb64 22 0 (clearLow 16 (addrField d2)) ea = entry3Addr d2 ea :=
  BitVec.eq_of_getLsbD_eq fun _ hi => getLsbD_entryAddr_clearLow_16 (by decide) d2 ea hi

/-- The second lookup at 64KB and 42 bits. -/
theorem walkTables_source_level3 (cfg : Config) (m : Memory) (q : WalkFor) (d2 : DWord) :
    walkTables cfg m .kb64 22 q 0 (clearLow 16 (addrField d2)) [entryAttrs cfg 2 true d2] = walkLevel3 cfg m q d2 := by
  have hfits : groupFits .kb64 22 = true := by decide
  simp only [walkTables, walkLevel3, entryAddr_source_level3, join_entry3Addr, hfits, granuleBits, joinAt_16, Bool.true_and,
    if_true, List.cons_append, List.nil_append]

/-- The first lookup at 64KB and 42 bits, once the base register is in range. -/
theorem walkTables_source_level2 {cfg : Config} {ttbr : DWord} {q : WalkFor}
    (hbase : inSize q.w (ttbr.extractLsb 47 16 ++ 0#16 : PAddr) = true) (m : Memory) :
    walkTables cfg m .kb64 22 q 1 (clearLow 16 (addrField ttbr)) [] = walk64K42 cfg m ttbr q := by
  have hallowed : blockAllowed .kb64 2 = true := by decide
  have hlow : indexLow .kb64 1 = 29 := by decide
  rw [walkTables]
  simp only [walk64K42, Nat.zero_add, entryAddr_source_level2, join_entry2Addr, hbase, Bool.not_true, Bool.false_eq_true,
    if_false]
  obtain ⟨-, hread⟩ | ⟨-, hread⟩ := readEntry_cases cfg m (entry2Addr ttbr q.ea) <;> simp only [hread]
  cases upperKind cfg 2 (memRead64 cfg m (entry2Addr ttbr q.ea)) with
  | invalid => rfl
  | block => simp only [Nat.sub_zero, hallowed, hlow, joinAt_29, if_true, List.nil_append]
  | table => simp only [Nat.sub_zero, granuleBits, List.nil_append, walkTables_source_level3]

/-- At 64KB and 42 bits the general walk is the one the source spells out. -/
theorem walkGeneral_eq_walk64K42 (cfg : Config) (m : Memory) (ttbr : DWord) (q : WalkFor) :
    walkGeneral cfg m .kb64 22 ttbr q = walk64K42 cfg m ttbr q := by
  have hbits : tableBits .kb64 22 1 = 16 := by decide
  rw [walkGeneral_of_count (below := 1) (by decide) (by decide), hbits]
  cases hbase : inSize q.w (clearLow 16 (addrField ttbr)) with
  | true => exact walkTables_source_level2 (clearLow_16_addrField ttbr ▸ hbase) m
  | false =>
    rw [clearLow_16_addrField] at hbase
    simp only [walk64K42, hbase, Bool.not_false, Bool.false_eq_true, if_true, if_false]

/-! A miss. -/

/-- Where the extension is admitted a miss outside the source's geometry is the general walk. -/
theorem missWalk_general {c : Choice} {s : State} {r : Region} {va : VAddr} {acc : AccessKind} {el : EL} {w : Nat}
    (hw : outSize s r.regime = some w) (hsource : sourceGeometry r = false) (hgeneral : s.cfg.generalWalk = true) :
    missWalk c s r va acc el =
      walkGeneral s.cfg s.mem r.granule r.n r.base ⟨va, r.ea, acc, el, w, c.sizeFirst⟩ := by
  simp only [missWalk, hw, hsource, hgeneral, Bool.false_eq_true, if_true, if_false]

/-- Settles O47: the source's walk, the miss, and for each granule the first table, the address of an entry and what a page, a block
and a table descriptor give. -/
theorem generalWalkIsTheSourceWalk : Obligations.GeneralWalkIsTheSourceWalk := by
  refine ⟨walkGeneral_eq_walk64K42, ?_, ?_⟩
  · intro s c va acc el r w hr hsource hgeneral hw
    refine missWalk_general ?_ (Bool.eq_false_iff.mpr fun h => hsource ((sourceGeometry_iff r).mp h)) hgeneral
    rw [selectRegion_regime hr]
    cases el with
    | el0 | el1 => exact hw
    | el2 | el3 => exact congrArg some hw
  · intro granule g n hg
    have hg : g = granuleBits granule := by rw [hg]; cases granule <;> rfl
    subst hg
    refine ⟨?_, ?_, ?_⟩
    · intro cfg m ttbr q below base hlo hhi hbelow hbase
      rw [← tableBits_eq] at hbase
      rw [eq_clearLow_addrField hbase]
      exact walkGeneral_of_count (tableCount_eq hlo hhi) hbelow
    · intro below base ea i hi
      rw [← tableBits_eq]
      exact getLsbD_entryAddr granule n below base ea hi
    · intro cfg m q below base path a d ha hplain hd
      subst ha
      refine ⟨?_, ?_, ?_⟩
      · intro hbelow hwhole hpage hp hsized
        subst hbelow
        exact ⟨_, walkTables_page hplain hd hwhole hpage hp hsized, fun i => getLsbD_joinAt_addrField _ d q.ea, rfl, rfl, rfl⟩
      · intro level hlevel hbelow hblock
        obtain ⟨below, rfl⟩ := Nat.exists_eq_add_of_le' hbelow
        obtain rfl : level = 2 - below := by omega
        rw [← blockAllowed_iff, Bool.not_eq_true]
        exact ⟨fun hallowed hp hsized => ⟨_, walkTables_block hplain hd hblock hallowed hp hsized,
            fun i => getLsbD_joinAt_addrField _ d q.ea, rfl, rfl, rfl, rfl⟩,
          fun hallowed => walkTables_block_not_allowed hplain hd hblock hallowed⟩
      · intro level hlevel hbelow htable hp hsized
        obtain ⟨below, rfl⟩ := Nat.exists_eq_add_of_le' hbelow
        obtain rfl : level = 2 - below := by omega
        exact ⟨_, fun i => getLsbD_clearLow_addrField _ d, walkTables_table hplain hd htable hp hsized⟩

end Sys2Proof.Machine
end

section
/-! SUPPORT. The faults of the walk the source spells out, in their order (60_exceptions.md R88 to R91, 42_translation_walk.md R80). -/

namespace Sys2Proof.Machine

/-- Where an outcome is the fault the checks on an entry raise, it is the fault of the check that fails alone, and where both
fail the one the free choice names (R91 item 3, D18). -/
theorem fault_of_failed_checks {α : Type} {o : Result α} {q : WalkFor} {level : Nat} {permitted sized : Bool}
    (h : ∀ f, checkEntry q level permitted sized = some f → o = .fault f) :
    (permitted = false → sized = true → o = .fault (.permission level q.va q.acc)) ∧
    (permitted = true → sized = false → o = .fault (.addressSize (some level) q.va q.acc)) ∧
    (permitted = false → sized = false →
      o = .fault (if q.sizeFirst then .addressSize (some level) q.va q.acc else .permission level q.va q.acc)) := by
  refine ⟨?_, ?_, ?_⟩ <;> rintro rfl rfl
  · exact h _ rfl
  · exact h _ rfl
  · exact h _ (apply_ite some _ _ _).symm

section
variable {cfg : Config} {m : Memory} {ttbr : DWord} {q : WalkFor} {d2 d3 : DWord}

/-! The first lookup. -/

/-- A base register out of range is reported before any entry is read (R90). -/
theorem walk64K42_base_out_of_size (h : inSize q.w (ttbr.extractLsb 47 16 ++ 0#16 : PAddr) = false) :
    walk64K42 cfg m ttbr q = .fault (.addressSize none q.va q.acc) := by
  simp only [walk64K42, h, Bool.not_false, if_true]

section
variable (hbase : inSize q.w (ttbr.extractLsb 47 16 ++ 0#16 : PAddr) = true)
  (hplain : plain cfg (entry2Addr ttbr q.ea) 8 = true) (hread : d2 = memRead64 cfg m (entry2Addr ttbr q.ea))
include hbase hplain hread

/-- An invalid first entry is reported whatever its other bits are (R88). -/
theorem walk64K42_invalid (hkind : upperKind cfg 2 d2 = .invalid) :
    walk64K42 cfg m ttbr q = .fault (.translation 2 q.va q.acc) := by
  simp only [walk64K42, join_entry2Addr, hbase, readEntry_plain hplain, ← hread, hkind, Bool.not_true, Bool.false_eq_true,
    if_false]

/-- A block or table descriptor whose checks fail ends the walk with the fault they raise. -/
theorem walk64K42_check_failed {isTable : Bool} (hkind : upperKind cfg 2 d2 = if isTable then .table else .block) {f : Fault}
    (hcheck : checkEntry q 2 (permitsAt cfg 2 isTable d2 q.acc q.el) (inSize q.w (addrField d2)) = some f) :
    walk64K42 cfg m ttbr q = .fault f := by
  simp only [walk64K42, join_entry2Addr, hbase, readEntry_plain hplain, ← hread, hkind, Bool.not_true, Bool.false_eq_true,
    if_false]
  cases isTable with
  | false | true => simp only [hcheck, Bool.false_eq_true, if_false, if_true]

end

/-! The second lookup. -/

section
variable (hplain : plain cfg (entry3Addr d2 q.ea) 8 = true) (hread : d3 = memRead64 cfg m (entry3Addr d2 q.ea))
  (hwhole : groupBroken cfg m .kb64 (entry3Addr d2 q.ea) = false)
include hplain hread hwhole

/-- An invalid second entry is reported whatever its other bits are (R88). -/
theorem walkLevel3_invalid (hkind : lastKind cfg d3 = .invalid) :
    walkLevel3 cfg m q d2 = .fault (.translation 3 q.va q.acc) := by
  simp only [walkLevel3, join_entry3Addr, readEntry_plain hplain, ← hread, hwhole, hkind, Bool.false_eq_true, if_false]

/-- A page whose checks fail ends the walk with the fault they raise. -/
theorem walkLevel3_check_failed (hkind : lastKind cfg d3 = .page) {f : Fault}
    (hcheck : checkEntry q 3 (permitsAt cfg 3 false d3 q.acc q.el) (inSize q.w (addrField d3)) = some f) :
    walkLevel3 cfg m q d2 = .fault f := by
  simp only [walkLevel3, join_entry3Addr, readEntry_plain hplain, ← hread, hwhole, hkind, hcheck, Bool.false_eq_true,
    if_false]

end

end

/-- Settles O45, in the order of the walk: the base register, the kind of the first entry, the checks on it. -/
theorem faultsOfTheFirstLookup : Obligations.FaultsOfTheFirstLookup := by
  intro cfg m ttbr q a2 d2 ha2 hd2
  subst ha2
  refine ⟨walk64K42_base_out_of_size, fun hbase hplain => ⟨walk64K42_invalid hbase hplain hd2, fun isTable hkind => ?_⟩⟩
  exact fault_of_failed_checks fun f => walk64K42_check_failed hbase hplain hd2 hkind

/-- Settles O46: the first lookup leads to the table, and what is left is the kind of the second entry and the checks on it. -/
theorem faultsOfTheSecondLookup : Obligations.FaultsOfTheSecondLookup := by
  intro cfg m ttbr q a2 a3 d2 d3 ha2 hd2 ha3 hd3 hbase hplain2 hplain3 htable hp2 hsized2 hwhole
  subst ha2 ha3
  have h2 : LeadsToTable cfg m ttbr q d2 := ⟨hbase, hplain2, hd2, htable, hsized2⟩
  rw [walk64K42_permitted h2 hp2]
  refine ⟨walkLevel3_invalid hplain3 hd3 hwhole, fun hpage => ?_⟩
  exact fault_of_failed_checks fun f => walkLevel3_check_failed hplain3 hd3 hwhole hpage

end Sys2Proof.Machine
end

section
/-! SUPPORT. How a fault is reported (60_exceptions.md R93, R98, D17; 42_translation_walk.md R109): a step never stops with one, and a
step that reports one does nothing beyond the start of its request. -/

namespace Sys2Proof.Machine

/-! No step stops with a fault. -/

/-- Reporting that a step is done raises no fault of its own. -/
theorem reportDone_ne_fault {o : Host.Outcome State Fault Refusal} {f : Fault} (h : o ≠ .fault f) : reportDone o ≠ .fault f := by
  cases o with
  | next s => exact nofun
  | fault g => exact h
  | refused z => exact nofun

/-- No word stops the machine with a fault. -/
theorem runWord_ne_fault (w : IWord) (s : State) (f : Fault) : runWord w s ≠ .fault f := by
  cases h : decodeWord w with
  | ok i => exact runWord_ok h ▸ reportDone_ne_fault (exec_ne_fault i s f)
  | error e => exact runWord_error h ▸ nofun

/-- The memory part of an access does not fault. -/
theorem accessMemory_ne_fault (kind : AccessKind) (n value : Nat) (tr : Translated) (s : State) (f : Fault) :
    accessMemory kind n value tr s ≠ .fault f := by
  cases kind with
  | write | fetch | read => exact nofun

/-- An access does not stop the machine: a fault of its translation is reported. -/
theorem access_ne_fault (c : Choice) (kind : AccessKind) (va : VAddr) (n value : Nat) (s : State) (f : Fault) :
    access c kind va n value s ≠ .fault f := by
  unfold access accessInPage
  split
  · split
    · split
      · exact nofun
      · exact nofun
      · exact accessMemory_ne_fault kind n value _ s f
    · exact nofun
  · exact nofun

/-- A fetch to be executed does not stop the machine: a fault of its translation is reported. -/
theorem fetchExecute_ne_fault (c : Choice) (va : VAddr) (s : State) (f : Fault) : fetchExecute c va s ≠ .fault f := by
  unfold fetchExecute fetchRun
  split
  · split
    · split
      · exact nofun
      · exact nofun
      · exact runWord_ne_fault _ _ f
    · exact nofun
  · exact nofun

/-- No action stops the machine with a fault. -/
theorem perform_ne_fault (c : Choice) (a : Action) (s : State) (f : Fault) : perform c a s ≠ .fault f := by
  cases a with
  | instr i => exact reportDone_ne_fault (exec_ne_fault i s f)
  | instrWord w => exact runWord_ne_fault w s f
  | access kind va n value => exact access_ne_fault c kind va n value s f
  | fetchExecute va => exact fetchExecute_ne_fault c va s f
  | memWrite | writeSysReg | setX => exact nofun

/-- Settles O23: a waiting step is a next state, and no action stops with a fault. -/
theorem noStepStopsWithAFault : Obligations.NoStepStopsWithAFault := by
  intro s f
  cases hreq : s.requests with
  | nil => exact step_idle hreq ▸ nofun
  | cons r rest => exact step_request hreq ▸ perform_ne_fault _ r.action _ f

/-! What a reported fault leaves. -/

/-- An action that ends in the report of a fault did nothing else. -/
theorem Performed.eq_reportFault {c : Choice} {u t : State} {a : Action} {f : Fault} (h : Performed c u a t)
    (hf : t.response = .fault f) : t = reportFault u f := by
  cases h with
  | accessFault kind va n value g _ | fetchFault va g _ =>
    obtain rfl : g = f := Response.fault.inj hf
    rfl
  | memWrite | writeSysReg | setX | instr | instrWord | accessSplit | accessLoad | accessStore | fetchRun => cases hf

/-- A step that reports a fault is the start of its request and the report. -/
theorem step_reports_fault {s t : State} {f : Fault} (h : step s = .next t) (hf : t.response = .fault f) :
    ∃ inp rest, t = reportFault (startRequest s inp rest) f := by
  obtain ⟨-, rfl⟩ | ⟨inp, a, rest, -, hp⟩ := step_next h
  · cases hf
  · exact ⟨inp, rest, hp.eq_reportFault hf⟩

/-- Settles O24: the start of the request loses entries and the report changes the response alone. -/
theorem faultChangesNothing : Obligations.FaultChangesNothing := by
  intro s t f h hf
  obtain ⟨inp, rest, rfl⟩ := step_reports_fault h hf
  exact ⟨rfl, rfl, rfl, rfl, rfl, readX_congr rfl, rfl, fun _ => rfl, loseEntries_sublist _ _⟩

/-- An access inside one page whose translation faults reports the fault. -/
theorem access_fault {c : Choice} {s : State} {kind : AccessKind} {va : VAddr} {n value : Nat} {f : Fault}
    (hn : n ≤ roomInPage (splitBits s va kind s.inputs.el) va) (hp : groupPremise c s va kind s.inputs.el = true)
    (h : translate c s va kind s.inputs.el = .fault f) : access c kind va n value s = .next (reportFault s f) := by
  rw [access, if_pos hn, accessInPage, if_pos hp, h]

/-- Settles O56: the step is the access, which reports the fault of its translation. -/
theorem faultingAccessIsReported : Obligations.FaultingAccessIsReported := by
  rintro s inp kind va n v rest u f hreq rfl hn hf hgroup
  exact (step_request hreq).trans (access_fault hn (groupPremise_iff.mpr hgroup) hf)

end Sys2Proof.Machine
end

section
/-! SUPPORT. The TLB after `VAE1` (40_tlb_tlbi.md R53, R56; 70_reset_and_hazards.md R103; the selection is GK6's, log 12). -/

namespace Sys2Proof.Machine

/-- An aligned range of at least 4KB holds the whole 4KB page of each of its addresses. -/
theorem page_within_aligned_range {k base a : Nat} (hk : 12 ≤ k) (halign : base % 2 ^ k = 0) (hlo : base ≤ a)
    (hhi : a < base + 2 ^ k) :
    base ≤ a / 4096 * 4096 ∧ a / 4096 * 4096 + 4096 ≤ base + 2 ^ k := by
  obtain ⟨pages, hpages⟩ : 4096 ∣ 2 ^ k := Nat.pow_dvd_pow 2 hk
  obtain ⟨first, hfirst⟩ := (Dvd.intro pages hpages.symm).trans (Nat.dvd_of_mod_eq_zero halign)
  omega

/-- An entry of at least 4KB that matches an access covers every argument that names the page of the access. -/
theorem covers_of_match {inp : Inputs} {e : TlbEntry} {ea : VAddr} {rg : Regime} {arg : DWord} (hwf : EntryWf e) (hk : 12 ≤ e.k)
    (hmatch : entryMatches inp e ea rg = true) (hpage : clearLow 12 ea = argPage arg) : covers e arg = true := by
  obtain ⟨-, hlo, hhi, -⟩ := (entryMatches_iff _ _ _ _).mp hmatch
  rw [covers_iff, ← hpage, toNat_clearLow]
  exact page_within_aligned_range hk hwf hlo hhi

/-- `VAE1` selects the EL1 and EL0 entries of the current VMID and the argument's ASID that cover the argument's page (R57). -/
theorem tlbiSelects_vae1 {cfg : Config} (h : cfg.tlbiTable = .armv8) (is : Bool) (arg : DWord) (asid : Asid) (vmid : Vmid)
    (e : TlbEntry) :
    tlbiSelects cfg ⟨.vae1, is⟩ (some arg) asid vmid e = true ↔
      e.regime = .el1and0 ∧ e.vmid = vmid ∧ e.asid = argAsid arg ∧ covers e arg = true := by
  rw [tlbiSelects, h, covers_iff]
  exact armv8Selects_vae1 arg vmid e

/-- After `VAE1` of the current ASID no entry of at least 4KB left matches an access in the argument's page at EL1 and EL0
with the same inputs. -/
theorem no_match_after_vae1 {s : State} (h : s.cfg.tlbiTable = .armv8) {is : Bool} {arg : DWord} {ea : VAddr}
    (hasid : argAsid arg = s.inputs.asid) (hpage : clearLow 12 ea = argPage arg) {e : TlbEntry}
    (he : e ∈ (invalidate ⟨.vae1, is⟩ (some arg) s).tlb) (hwf : EntryWf e) (hk : 12 ≤ e.k) :
    entryMatches s.inputs e ea .el1and0 = false := by
  obtain ⟨-, hsel⟩ := mem_invalidate.mp he
  rw [Bool.eq_false_iff] at hsel ⊢
  intro hmatch
  obtain ⟨hregime, -, -, hids⟩ := (entryMatches_iff _ _ _ _).mp hmatch
  obtain ⟨hasid', hvmid⟩ := hids rfl
  exact hsel ((tlbiSelects_vae1 h _ _ _ _ _).mpr ⟨hregime, hvmid, hasid'.trans hasid.symm, covers_of_match hwf hk hmatch hpage⟩)

/-- Settles O18: no entry left matches, so none is used, and a translation that uses none is the walk's. -/
theorem afterVae1ThePageWalks : Obligations.AfterVae1ThePageWalks := by
  intro s t rt c va acc el r htable hinv hsize hel hexec hr hasid hpage
  obtain ⟨-, ⟨-, hwf⟩, -⟩ := hinv
  obtain ⟨op, hop, -, rfl⟩ := (exec_next_iff _ _ _).mp hexec
  obtain rfl : (⟨.vae1, false⟩ : TlbiOp) = op := Option.some.inj hop
  refine translate_miss hr (usedEntry_none fun e he => ?_)
  obtain ⟨hold, -⟩ := mem_invalidate.mp he
  rw [(selectRegion_ok hr).1.mpr hel]
  exact no_match_after_vae1 htable hasid hpage he (hwf e hold) (hsize e hold)

end Sys2Proof.Machine
end
